-- ==== Sys2Proof/Word.lean ====
section
/-! DEFINITION. The byte and the byte sequence of the block (R50: "8-bit unsigned values (0–255)", "an ordered, finite
sequence" of them). Bit 7 of a byte is the most significant (00_scope.md section 5, D19). -/

namespace Sys2Proof

/-- One element of an input or output sequence (R8 `BYTE_BITS`, R50). -/
abbrev Byte := BitVec 8

/-- A finite byte sequence; the element at index 0 is the head (R50, R53). -/
abbrev Bytes := List Byte

end Sys2Proof
end

