-- ==== Sys2Proof/Config.lean ====
section
/-! DEFINITION. What the spec fixes for the hardware (R8) and what it leaves open as named parameters (R9). There is no
free value: no behaviour of the block is "any value" (93_implementation_defined.md, end of Part 2). -/

namespace Sys2Proof

/-- `MARKER` of R8: the first byte of every run marker, the only byte value the encoder compresses. -/
abbrev markerByte : Byte := 0x00#8

/-- `MAX_RUN` of R8: the largest length one marker can hold. -/
abbrev maxRun : Byte := 0xff#8

/-- The open parameters of R9. A capacity of `none` is "unbounded". -/
structure Params where
  /-- `LEN_BITS`: an input length and the cursor fit in this many bits. -/
  lenBits : Nat
  /-- `IN_CAP`: the largest input length a unit accepts. -/
  inCap : Option Nat
  /-- `OUT_CAP`: the largest output length a unit can hold. -/
  outCap : Option Nat
  /-- `N_ENC`: the number of encoder instances. -/
  nEnc : Nat
  /-- `N_DEC`: the number of decoder instances. -/
  nDec : Nat
  /-- `HEX_ACCEPT_UPPER`: host wrapper only, whether the digits `A` to `F` are accepted (R194). -/
  hexAcceptUpper : Bool
deriving DecidableEq, Repr

/-- The defaults R9 recommends. -/
def Params.default : Params :=
  { lenBits := 64, inCap := none, outCap := none, nEnc := 1, nDec := 1, hexAcceptUpper := true }

end Sys2Proof
end

