-- ==== Sys2Proof/Syntax.lean ====
section
/-! DEFINITION. The instructions of the block, one constructor for each row of opcode_table.json (R94), and what the outside
world presents to it: the tokens of R93, the input wires of R177 and the compressed sequence played to a decoder symbol by
symbol (R80, R144). -/

namespace Sys2Proof

/-- The units of the block (R20, R224): encoder or decoder, and the instance number (`N_ENC`, `N_DEC` of R9). -/
inductive UnitId where
  | enc (k : Nat)
  | dec (k : Nat)
deriving DecidableEq, Repr

/-- R93: a unit of input. `End` is out of band and carries no data. -/
inductive Token where
  | byte (b : Byte)
  | endOfInput
deriving DecidableEq, Repr

/-- The input wires of one unit at one rising clock edge (R177). -/
structure Wires where
  rst      : Bool := false
  start    : Bool := false
  inValid  : Bool := false
  inEnd    : Bool := false
  inData   : Byte := 0x00#8
  outReady : Bool := false
  /-- The unit's own timing at this edge: R178 lets `in_ready` be 0 for any finite number of cycles in RUN. `true`: the unit
  takes a token at this edge (log 8, DESIGN CHOICE). The result channel has no such choice (R179). -/
  ready    : Bool := true
deriving DecidableEq, Repr

/-- One thing the outside world presents (log 1). -/
inductive Input where
  /-- One rising edge at the ports of unit `u`. -/
  | edge (u : UnitId) (w : Wires)
  /-- The rest `c` of a compressed sequence, then `End`, played to decoder `k` one stream symbol a step: "The decoder reads
  this sequence as a processor reads a program" (R80; the one-step form of R144). Until it has ended no later input of any unit is taken
(log 10, DESIGN CHOICE); edges interleave units freely. -/
  | stream (k : Nat) (c : Bytes)
deriving DecidableEq, Repr

/-- The operations of R94, one constructor a row of opcode_table.json. `k` is the instance number of the row's unit. -/
inductive Instr where
  | lit (k : Nat) (b : Byte)      -- LIT b, stream symbol (R81)
  | run (k : Nat) (l : Byte)      -- RUN L, stream symbol (R82)
  | runZ (k : Nat)                -- RUN.Z, the symbol 00 00 (R88)
  | trunc (k : Nat)               -- TRUNC, a bare 00 that ends the sequence (R87)
  | eZero (k : Nat)               -- E.ZERO (R112)
  | eNz (k : Nat) (b : Byte)      -- E.NZ b (R113)
  | eEnd (k : Nat)                -- E.END (R114)
  | dLit (k : Nat) (b : Byte)     -- D.LIT b (R141)
  | dMark (k : Nat)               -- D.MARK (R142)
  | dLen (k : Nat) (l : Byte)     -- D.LEN L (R143)
  | dEndOk (k : Nat)              -- D.END with no marker pending (R145)
  | dEndTrunc (k : Nat)           -- D.END with a marker pending (R146)
  | eStart (k : Nat)              -- E.START (R171)
  | dStart (k : Nat)              -- D.START (R171)
  | reset (u : UnitId)            -- RESET (R240)
deriving DecidableEq, Repr

/-- The unit an operation belongs to (the `unit` column of R94). -/
def Instr.unit : Instr → UnitId
  | .lit k _ => .dec k
  | .run k _ => .dec k
  | .runZ k => .dec k
  | .trunc k => .dec k
  | .eZero k => .enc k
  | .eNz k _ => .enc k
  | .eEnd k => .enc k
  | .dLit k _ => .dec k
  | .dMark k => .dec k
  | .dLen k _ => .dec k
  | .dEndOk k => .dec k
  | .dEndTrunc k => .dec k
  | .eStart k => .enc k
  | .dStart k => .dec k
  | .reset u => u

/-- The unit an input is presented to. -/
def Input.unit : Input → UnitId
  | .edge u _ => u
  | .stream k _ => .dec k

end Sys2Proof
end

