-- ==== Sys2Proof/Machine/Operands.lean ====
section
/-! DEFINITION. The operand forms: the token at the cursor, the length byte, and the byte sequences an operation appends
(R51, R52, R82, R83). -/

namespace Sys2Proof.Machine

/-- `zeros(n)` of the notation (00_scope.md section 5): `n` bytes each 0x00. -/
def zeros (n : Nat) : Bytes := List.replicate n 0x00#8

/-- R83: `L = zext(byte 1)`, unsigned, no bias, no scaling. -/
def lengthOf (l : Byte) : Nat := l.toNat

/-- R82: the two bytes of a marker, the marker byte at the lower index, then the count. -/
def markerBytes (l : Byte) : Bytes := [markerByte, l]

/-- R143: the bytes a length byte stands for. -/
def runBytes (l : Byte) : Bytes := zeros (lengthOf l)

/-- R51: the token at cursor `pos` of the input sequence `inp`. -/
def tok (inp : Bytes) (pos : Nat) : Token :=
  match inp[pos]? with
  | some b => .byte b
  | none => .endOfInput

/-- R51: the tokens a host delivers for the input sequence `inp`, in order. -/
def tokens (inp : Bytes) : List Token := inp.map Token.byte ++ [.endOfInput]

end Sys2Proof.Machine
end

