-- ==== Sys2Proof/Machine/State.lean ====
section
/-! DEFINITION. The state of the block as plain data (R20): the registers of every encoder and decoder instance, the
parameters of R9 and what the outside world will present; the reasons a step can stop; the state after reset (R34). -/

namespace Sys2Proof.Machine

/-- R24: where a unit stands in a transaction. The encoder never enters `fail` (R117). -/
inductive Phase where
  | idle
  | run
  | done
  | fail
deriving DecidableEq, Repr

/-- R26: the values of the 2-bit error register. A unit writes only the first two. -/
inductive ErrCode where
  | noError
  | truncatedMarker
  | malformedHex
  | unused
deriving DecidableEq, Repr

/-- The registers of an encoder unit (R20). -/
structure Encoder where
  phase  : Phase
  /-- `run_len`: zero bytes counted and not yet written out (R21). -/
  runLen : BitVec 8
  /-- The cursor: input bytes consumed (R23). -/
  pos    : Nat
  /-- The output buffer (R22). -/
  out    : Bytes
  /-- `U.inp[0..U.pos]`: the bytes of the transaction's input consumed so far (R51; log 4). -/
  inp    : Bytes
  /-- The read index of the result drain, binding state (R179). -/
  rd     : Nat
  /-- The `End` token of the result has been taken (R179; log 9). -/
  rdEnd  : Bool
deriving DecidableEq, Repr

/-- The registers of a decoder unit (R20). -/
structure Decoder where
  phase  : Phase
  /-- A marker byte was consumed and its length byte not yet (R25). -/
  pend   : Bool
  /-- The cursor: input bytes consumed (R23). -/
  pos    : Nat
  /-- The output buffer (R22). -/
  out    : Bytes
  /-- Error code of the last ended transaction (R26). -/
  err    : ErrCode
  /-- `U.inp[0..U.pos]`: the bytes of the transaction's input consumed so far (R51; log 4). -/
  inp    : Bytes
  /-- The read index of the result drain, binding state (R179). -/
  rd     : Nat
  /-- The `End` token of the result has been taken (R179; log 9). -/
  rdEnd  : Bool
deriving DecidableEq, Repr

/-- The state of the block (R20), with its parameters (R9; log 3), the tokens offered and not yet taken (R178) and the inputs
still to come (log 1). -/
structure State where
  cfg        : Params
  encs       : List Encoder
  decs       : List Decoder
  /-- For each encoder the token its host offers and the unit has not taken, which the host must keep offered (R178, R181;
  log 19). -/
  encWaiting : List (Option Token)
  /-- For each decoder the token its host offers and the unit has not taken (R178, R181; log 19). -/
  decWaiting : List (Option Token)
  inputs     : List Input
deriving DecidableEq, Repr

/-- Why the machine stops. The truncated marker is not here: its entry is described (R217), so it is a next state. -/
inductive Fault where
  /-- Raised by every operation addressed to an instance number that is not below `N_ENC` or `N_DEC`, and by `step` for an
  input presented to one: there is no such unit (R9, R224; log 16). Safe: nothing is said of a unit that does not exist. -/
  | noSuchUnit
deriving DecidableEq, Repr

/-- Why an operation is given no meaning. -/
inductive Refusal where
  /-- Raised by `exec` for an instruction that has no meaning yet; no arm of this model uses it. Safe. -/
  | notModelled (mnemonic : String)
  /-- Raised by `exec` for an operation of a unit in RUN that R94 does not select there: the byte of E.NZ, D.LIT or LIT is
  0x00, or `D.pend` is not what the row asks. `step` never meets it, because it decodes with `D.pend` in hand (log 6). Safe. -/
  | notSelected
  /-- Raised by `step` for an input that changes or withdraws a token which is offered and not yet taken, without reset: the
  host breaks a duty of R178 and R181, to which R226 gives no meaning (log 19). Safe. -/
  | offerNotKept
  /-- Raised by a step that would bring the cursor to `2^LEN_BITS` (R9, R58; log 5). Safe. -/
  | lenBitsExceeded
  /-- Raised by a step that would consume more than `IN_CAP` bytes (R9, R58; log 5). Safe. -/
  | inCapExceeded
  /-- Raised by a step whose append would bring `out` over `OUT_CAP` bytes (R9, R58; log 5). Safe. -/
  | outCapExceeded
deriving DecidableEq, Repr

/-- The "reset" column of R34 for an encoder (`inp`, `rd`, `rdEnd`: log 14). -/
def Encoder.reset : Encoder :=
  { phase := .idle, runLen := 0x00#8, pos := 0, out := [], inp := [], rd := 0, rdEnd := false }

/-- The "reset" column of R34 for a decoder (`inp`, `rd`, `rdEnd`: log 14). -/
def Decoder.reset : Decoder :=
  { phase := .idle, pend := false, pos := 0, out := [], err := .noError, inp := [], rd := 0, rdEnd := false }

/-- A block with parameters `p` right after reset of all its units, with nothing presented to it. -/
def State.resetWith (p : Params) : State :=
  { cfg := p, encs := List.replicate p.nEnc Encoder.reset, decs := List.replicate p.nDec Decoder.reset,
    encWaiting := List.replicate p.nEnc none, decWaiting := List.replicate p.nDec none, inputs := [] }

/-- The machine right after reset (R34, R240), with the default parameters of R9. -/
def State.reset : State := State.resetWith Params.default

end Sys2Proof.Machine
end

