-- ==== Sys2Proof/Machine/Ops.lean ====
section
/-! DEFINITION. The named operations over a unit's registers and byte sequences that the meanings share: append (R52),
consume (R23), flush (R111), START values (R34), the TruncatedMarker entry (R217), and the access to a unit of the state with
the capacity check (R9, R58). -/

namespace Sys2Proof.Machine

/-- What a step answers. -/
abbrev Outcome := Host.Outcome State Fault Refusal

/-! ### The encoder's registers -/

/-- `Append(E.out, s)` (R52). -/
def Encoder.append (s : Bytes) (e : Encoder) : Encoder := { e with out := e.out ++ s }

/-- One input byte is consumed: the cursor advances by one (R23) and the consumed input grows by it (R51). -/
def Encoder.consume (b : Byte) (e : Encoder) : Encoder := { e with pos := e.pos + 1, inp := e.inp ++ [b] }

/-- `E.run_len <- n` (R21). -/
def Encoder.setRunLen (n : BitVec 8) (e : Encoder) : Encoder := { e with runLen := n }

/-- `FLUSH(E)` (R111): the marker byte first, then the count, only if `run_len > 0`; then `run_len` is 0. -/
def Encoder.flush (e : Encoder) : Encoder :=
  (if 0x00#8 < e.runLen then e.append (markerBytes e.runLen) else e).setRunLen 0x00#8

/-- Entry to a final phase; the drain's read index is 0 there (R179). -/
def Encoder.finish (p : Phase) (e : Encoder) : Encoder := { e with phase := p, rd := 0, rdEnd := false }

/-- The "START" column of R34 for an encoder. -/
def Encoder.started : Encoder := { Encoder.reset with phase := .run }

/-! ### The decoder's registers -/

/-- `Append(D.out, s)` (R52). -/
def Decoder.append (s : Bytes) (d : Decoder) : Decoder := { d with out := d.out ++ s }

/-- One input byte is consumed: the cursor advances by one (R23) and the consumed input grows by it (R51). -/
def Decoder.consume (b : Byte) (d : Decoder) : Decoder := { d with pos := d.pos + 1, inp := d.inp ++ [b] }

/-- `D.pend <- v` (R25). -/
def Decoder.setPend (v : Bool) (d : Decoder) : Decoder := { d with pend := v }

/-- Entry to a final phase with an error code; the drain's read index is 0 there (R26, R179). -/
def Decoder.finish (p : Phase) (k : ErrCode) (d : Decoder) : Decoder :=
  { d with phase := p, err := k, rd := 0, rdEnd := false }

/-- `raise TruncatedMarker` (R217), the block's one exception entry: `out` is cleared, `pend` is 0, `err` is 1, `phase` is
FAIL, `pos` keeps its value; nothing is saved and control goes nowhere. There is no return from it: FAIL is left by START
(`Decoder.started`) or reset (`Decoder.reset`), and nothing is restored (R220). -/
def Decoder.raiseTruncatedMarker (d : Decoder) : Decoder :=
  ({ d with out := [] }.setPend false).finish .fail .truncatedMarker

/-- The "START" column of R34 for a decoder; it is also how FAIL is left (R220). -/
def Decoder.started : Decoder := { Decoder.reset with phase := .run }

/-! ### Capacities -/

/-- Is `n` within the capacity? `none` is unbounded (R9). -/
def withinCap (cap : Option Nat) (n : Nat) : Bool :=
  match cap with
  | none => true
  | some c => decide (n ≤ c)

/-- Which parameter a transaction with `pos` bytes consumed and `outLen` bytes in its buffer exceeds, if any (R9, R58;
log 5). -/
def Params.excess (p : Params) (pos outLen : Nat) : Option Refusal :=
  if ¬ pos < 2 ^ p.lenBits then some .lenBitsExceeded
  else if !withinCap p.inCap pos then some .inCapExceeded
  else if !withinCap p.outCap outLen then some .outCapExceeded
  else none

/-! ### A unit of the state -/

/-- Encoder `k` becomes `e`. -/
def State.setEnc (k : Nat) (e : Encoder) (s : State) : State := { s with encs := s.encs.set k e }

/-- Decoder `k` becomes `d`. -/
def State.setDec (k : Nat) (d : Decoder) (s : State) : State := { s with decs := s.decs.set k d }

/-- Run `f` on encoder `k`, if there is one (log 16). -/
def onEnc (k : Nat) (s : State) (f : Encoder → Outcome) : Outcome :=
  match s.encs[k]? with
  | none => .fault .noSuchUnit
  | some e => f e

/-- Run `f` on decoder `k`, if there is one (log 16). -/
def onDec (k : Nat) (s : State) (f : Decoder → Outcome) : Outcome :=
  match s.decs[k]? with
  | none => .fault .noSuchUnit
  | some d => f d

/-- Encoder `k` becomes `e`, unless `e` exceeds a capacity: then the transaction is refused (R58). -/
def commitEnc (k : Nat) (e : Encoder) (s : State) : Outcome :=
  match Params.excess s.cfg e.pos e.out.length with
  | some r => .refused r
  | none => .next (s.setEnc k e)

/-- Decoder `k` becomes `d`, unless `d` exceeds a capacity: then the transaction is refused (R58). -/
def commitDec (k : Nat) (d : Decoder) (s : State) : Outcome :=
  match Params.excess s.cfg d.pos d.out.length with
  | some r => .refused r
  | none => .next (s.setDec k d)

/-- A token operation of an encoder: outside RUN the token waits and nothing changes (R172, R174); in RUN an operation whose
`selected_by` condition `sel` fails has no meaning (R94; log 6); otherwise `f` is its effect. -/
def encToken (k : Nat) (sel : Encoder → Bool) (f : Encoder → Encoder) (s : State) : Outcome :=
  onEnc k s fun e =>
    if e.phase ≠ .run then .next s
    else if sel e then commitEnc k (f e) s
    else .refused .notSelected

/-- A token operation of a decoder, as `encToken`. -/
def decToken (k : Nat) (sel : Decoder → Bool) (f : Decoder → Decoder) (s : State) : Outcome :=
  onDec k s fun d =>
    if d.phase ≠ .run then .next s
    else if sel d then commitDec k (f d) s
    else .refused .notSelected

/-- Two operations one after the other (R144); the second runs if the first answers a next state. -/
def andThen (o : Outcome) (f : State → Outcome) : Outcome :=
  match o with
  | .next s => f s
  | .fault r => .fault r
  | .refused r => .refused r

end Sys2Proof.Machine
end

