-- ==== Sys2Proof/Machine/Control.lean ====
section
/-! DEFINITION. START of each unit (R171, R173) and reset (R240, R241). -/

namespace Sys2Proof.Machine

/-- E.START (R171): every register takes its START value; in RUN the request is ignored and nothing changes (R173). -/
def execEStart (k : Nat) (s : State) : Outcome :=
  onEnc k s fun e => if e.phase = .run then .next s else .next (s.setEnc k Encoder.started)

/-- D.START (R171): every register takes its START value, the error code is cleared; in RUN the request is ignored and
nothing changes (R173). -/
def execDStart (k : Nat) (s : State) : Outcome :=
  onDec k s fun d => if d.phase = .run then .next s else .next (s.setDec k Decoder.started)

/-- RESET (R240): every register of the unit takes its reset value, from whatever phase. -/
def execReset (u : UnitId) (s : State) : Outcome :=
  match u with
  | .enc k => onEnc k s fun _ => .next (s.setEnc k Encoder.reset)
  | .dec k => onDec k s fun _ => .next (s.setDec k Decoder.reset)

end Sys2Proof.Machine
end

