-- ==== Sys2Proof/Machine/DecoderOps.lean ====
section
/-! DEFINITION. The decoder's token operations (41_decoder.md R141 to R143, R145, R146). -/

namespace Sys2Proof.Machine

/-- `D.LIT b` on the registers (R141). -/
def Decoder.literal (b : Byte) (d : Decoder) : Decoder := (d.append [b]).consume b

/-- `D.MARK` on the registers (R142). -/
def Decoder.mark (d : Decoder) : Decoder := (d.setPend true).consume 0x00#8

/-- `D.LEN L` on the registers (R143): `L` zero bytes, nothing if `L = 0` (R147). -/
def Decoder.length (l : Byte) (d : Decoder) : Decoder := ((d.append (runBytes l)).setPend false).consume l

/-- `D.END` with no marker pending (R145). -/
def Decoder.endOk (d : Decoder) : Decoder := d.finish .done .noError

/-- D.LIT b (R141): consumes `Byte(b)`, `b != 0`, with no marker pending. -/
def execDLit (k : Nat) (b : Byte) (s : State) : Outcome :=
  decToken k (fun d => !d.pend && b != 0x00#8) (Decoder.literal b) s

/-- D.MARK (R142): consumes `Byte(0x00)` with no marker pending. -/
def execDMark (k : Nat) (s : State) : Outcome := decToken k (fun d => !d.pend) Decoder.mark s

/-- D.LEN L (R143): consumes `Byte(L)`, any `L`, with a marker pending. -/
def execDLen (k : Nat) (l : Byte) (s : State) : Outcome := decToken k (fun d => d.pend) (Decoder.length l) s

/-- D.END (ok) (R145): consumes `End` with no marker pending. -/
def execDEndOk (k : Nat) (s : State) : Outcome := decToken k (fun d => !d.pend) Decoder.endOk s

/-- D.END (truncated) (R146): consumes `End` with a marker pending and takes the TruncatedMarker entry (R217). -/
def execDEndTrunc (k : Nat) (s : State) : Outcome := decToken k (fun d => d.pend) Decoder.raiseTruncatedMarker s

end Sys2Proof.Machine
end

