-- ==== Sys2Proof/Machine/EncoderOps.lean ====
section
/-! DEFINITION. The encoder's token operations (40_encoder.md R112 to R114). -/

namespace Sys2Proof.Machine

/-- `E.ZERO` on the registers (R112): a full run is flushed as (0x00, 255) before the count, tested before the increment. -/
def Encoder.zero (e : Encoder) : Encoder :=
  let e1 := if e.runLen = maxRun then (e.append (markerBytes maxRun)).setRunLen 0x00#8 else e
  (e1.setRunLen (e1.runLen + 1)).consume 0x00#8

/-- `E.NZ b` on the registers (R113): flush, then the byte verbatim. -/
def Encoder.nonZero (b : Byte) (e : Encoder) : Encoder := (e.flush.append [b]).consume b

/-- `E.END` on the registers (R114): flush the trailing run, phase DONE; the cursor does not change. -/
def Encoder.endInput (e : Encoder) : Encoder := e.flush.finish .done

/-- E.ZERO (R112): consumes `Byte(0x00)`. -/
def execEZero (k : Nat) (s : State) : Outcome := encToken k (fun _ => true) Encoder.zero s

/-- E.NZ b (R113): consumes `Byte(b)`, `b != 0`. -/
def execENz (k : Nat) (b : Byte) (s : State) : Outcome := encToken k (fun _ => b != 0x00#8) (Encoder.nonZero b) s

/-- E.END (R114): consumes `End`. -/
def execEEnd (k : Nat) (s : State) : Outcome := encToken k (fun _ => true) Encoder.endInput s

end Sys2Proof.Machine
end

