-- ==== Sys2Proof/Machine/StreamOps.lean ====
section
/-! DEFINITION. The stream symbols, executed by the decoder's token operations: "`LIT b` is executed by `D.LIT b`; the stream
symbol `RUN L` by `D.MARK` followed by `D.LEN L`" (R94, R144). -/

namespace Sys2Proof.Machine

/-- LIT b (R81, R141). -/
def execLit (k : Nat) (b : Byte) (s : State) : Outcome := execDLit k b s

/-- RUN L (R82, R144): `D.MARK` then `D.LEN L`; the cursor advances past both marker bytes. -/
def execRun (k : Nat) (l : Byte) (s : State) : Outcome := andThen (execDMark k s) (execDLen k l)

/-- RUN.Z (R88, R147): the marker `00 00`, accepted, appends nothing. -/
def execRunZ (k : Nat) (s : State) : Outcome := andThen (execDMark k s) (execDLen k 0x00#8)

/-- TRUNC (R87, R146): a bare marker byte at the end of the sequence, `D.MARK` then `D.END` with the marker pending. -/
def execTrunc (k : Nat) (s : State) : Outcome := andThen (execDMark k s) (execDEndTrunc k)

end Sys2Proof.Machine
end

