-- ==== Sys2Proof/Machine/Dispatch.lean ====
section
/-! DEFINITION. One arm per constructor of `Instr` (R94). -/

namespace Sys2Proof.Machine

def exec (i : Instr) (s : State) : Host.Outcome State Fault Refusal :=
  match i with
  | .lit k b => Sys2Proof.Machine.execLit k b s
  | .run k l => Sys2Proof.Machine.execRun k l s
  | .runZ k => Sys2Proof.Machine.execRunZ k s
  | .trunc k => Sys2Proof.Machine.execTrunc k s
  | .eZero k => Sys2Proof.Machine.execEZero k s
  | .eNz k b => Sys2Proof.Machine.execENz k b s
  | .eEnd k => Sys2Proof.Machine.execEEnd k s
  | .dLit k b => Sys2Proof.Machine.execDLit k b s
  | .dMark k => Sys2Proof.Machine.execDMark k s
  | .dLen k l => Sys2Proof.Machine.execDLen k l s
  | .dEndOk k => Sys2Proof.Machine.execDEndOk k s
  | .dEndTrunc k => Sys2Proof.Machine.execDEndTrunc k s
  | .eStart k => Sys2Proof.Machine.execEStart k s
  | .dStart k => Sys2Proof.Machine.execDStart k s
  | .reset u => Sys2Proof.Machine.execReset u s

end Sys2Proof.Machine
end

