-- ==== Sys2Proof/WellFormed.lean ====
section
/-! DEFINITION. Which terms of `Instr` are instructions: the operand constraints of opcode_table.json (`b != 0x00` of LIT,
E.NZ and D.LIT, R94). RUN with length 0 is written RUN.Z, which has a row of its own (R88; log 11). -/

namespace Sys2Proof

/-- The operand constraints of R94. -/
def Instr.wellFormed : Instr → Bool
  | .lit _ b => b != 0x00#8
  | .run _ l => l != 0x00#8
  | .eNz _ b => b != 0x00#8
  | .dLit _ b => b != 0x00#8
  | .runZ _ => true
  | .trunc _ => true
  | .eZero _ => true
  | .eEnd _ => true
  | .dMark _ => true
  | .dLen _ _ => true
  | .dEndOk _ => true
  | .dEndTrunc _ => true
  | .eStart _ => true
  | .dStart _ => true
  | .reset _ => true

end Sys2Proof
end

