-- ==== Sys2Proof/Decode.lean ====
section
/-! DEFINITION. Which operation an input selects (R94), total and rejecting by name; then the encoder, written from the
same tables, and the words of opcode_table.json in the table's own bit numbering. "A pattern alone does not select an
operation: the unit, its phase and `D.pend` do so together with it" (R94), so decoding has a selection context. -/

namespace Sys2Proof

open Sys2Proof.Machine (Phase)

/-- What selects an operation beside the pattern (R94): the phase of the unit and, for a decoder, `D.pend` (false for an
encoder). -/
structure Ctx where
  phase : Phase
  pend  : Bool
deriving DecidableEq, Repr

/-- Why an input selects no operation. -/
inductive Reject where
  /-- There is no stream symbol left (R85: "if no byte is left, stop"). -/
  | endOfStream
  /-- The control word is `00`: neither reset nor START. -/
  | noControl
  /-- The edge carries no request. -/
  | noRequest
  /-- A token is offered outside RUN: it waits, unconsumed (R172). -/
  | tokenWaits
  /-- A token is offered at an edge with `in_ready = 0` in RUN: it waits (R178). -/
  | notReady
  /-- START is raised in RUN: ignored, not latched (R173). -/
  | startIgnored
deriving DecidableEq, Repr

/-- The TOK pattern `e dddddddd` as a token (R94, R177): `e` is `in_end`, whose data bits are ignored. -/
def Token.ofWord (t : BitVec 9) : Token :=
  if t.getLsbD 8 then .endOfInput else .byte (t.extractLsb' 0 8)

/-- The TOK pattern of a token; the ignored data bits of `End` are written 0 (log 12). -/
def Token.toWord : Token → BitVec 9
  | .byte b => 0#1 ++ b
  | .endOfInput => 0x100#9

/-- The token operation a token selects in phase RUN (R94). -/
def selectToken (u : UnitId) (pend : Bool) (t : Token) : Instr :=
  match u, t with
  | .enc k, .byte b => if b = 0x00#8 then .eZero k else .eNz k b
  | .enc k, .endOfInput => .eEnd k
  | .dec k, .byte b => if pend then .dLen k b else if b = 0x00#8 then .dMark k else .dLit k b
  | .dec k, .endOfInput => if pend then .dEndTrunc k else .dEndOk k

/-- The CTL pattern `r s` (R94): reset is `1x`, START is `01`. -/
def decodeControl (u : UnitId) (c : BitVec 2) : Except Reject Instr :=
  if c.getLsbD 1 then .ok (.reset u)
  else if c.getLsbD 0 then
    match u with
    | .enc k => .ok (.eStart k)
    | .dec k => .ok (.dStart k)
  else .error .noControl

/-- The TOK word on the wires (R177). -/
def Wires.tokenWord (w : Wires) : BitVec 9 := BitVec.ofBool w.inEnd ++ w.inData

/-- The CTL word on the wires (R177). -/
def Wires.controlWord (w : Wires) : BitVec 2 := BitVec.ofBool w.rst ++ BitVec.ofBool w.start

/-- The token an input offers (R177): that of its wires, or the one at the front of the sequence played (R93). -/
def Input.offer : Input → Option Token
  | .edge _ w => if w.inValid then some (Token.ofWord w.tokenWord) else none
  | .stream _ [] => some .endOfInput
  | .stream _ (b :: _) => some (.byte b)

/-- Is reset asserted? It abandons the transaction (R241), and with it the token that waits (log 19). -/
def Input.resets : Input → Bool
  | .edge _ w => w.rst
  | .stream _ _ => false

/-- What one rising edge selects: reset before an accepted START before a token (R178, R216, R240). -/
def decodeEdge (c : Ctx) (u : UnitId) (w : Wires) : Except Reject Instr :=
  if w.rst || (w.start && c.phase != .run) then decodeControl u w.controlWord
  else if w.inValid then
    if c.phase != .run then .error .tokenWaits
    else if w.ready then .ok (selectToken u c.pend (Token.ofWord w.tokenWord))
    else .error .notReady
  else if w.start then .error .startIgnored
  else .error .noRequest

/-- The greedy, unique parse of R85, one symbol: the symbol and the bytes after it. -/
def decodeSymbol (k : Nat) : Bytes → Except Reject (Instr × Bytes)
  | [] => .error .endOfStream
  | x :: t =>
    if x != 0x00#8 then .ok (.lit k x, t)
    else
      match t with
      | [] => .ok (.trunc k, [])
      | l :: t' => if l = 0x00#8 then .ok (.runZ k, t') else .ok (.run k l, t')

/-- What the rest `c` of a compressed sequence selects in a decoder, and what is left of the input. With a marker pending the
first byte is its length byte, whatever its value (R84, R85); at the end of the sequence the token is `End` (R93). -/
def decodeStream (c : Ctx) (k : Nat) (bs : Bytes) : Except Reject (Instr × List Input) :=
  if c.phase != .run then .error .tokenWaits
  else if c.pend then
    match bs with
    | [] => .ok (.dEndTrunc k, [])
    | l :: t => .ok (.dLen k l, [.stream k t])
  else
    match decodeSymbol k bs with
    | .error _ => .ok (.dEndOk k, [])
    | .ok (i, t) => .ok (i, if i = .trunc k then [] else [.stream k t])

/-- The operation an input selects and what is left of the input after it. -/
def decode (c : Ctx) : Input → Except Reject (Instr × List Input)
  | .edge u w => (decodeEdge c u w).map (fun i => (i, []))
  | .stream k bs => decodeStream c k bs

/-! ### The encoder -/

/-- A token on the wires of R177. -/
def Wires.ofToken (t : Token) : Wires :=
  { inValid := true, inEnd := t.toWord.getLsbD 8, inData := t.toWord.extractLsb' 0 8 }

/-- A control word on the wires of R177. -/
def Wires.ofControl (c : BitVec 2) : Wires := { rst := c.getLsbD 1, start := c.getLsbD 0 }

/-- The bytes of a stream symbol (R81, R82, R87, R88); none for the other operations. -/
def symbolBytes : Instr → Bytes
  | .lit _ b => [b]
  | .run _ l => [0x00#8, l]
  | .runZ _ => [0x00#8, 0x00#8]
  | .trunc _ => [0x00#8]
  | _ => []

/-- The input that selects an instruction: the bytes of a stream symbol, or the token or control word of R94 at the ports of
its unit. -/
def encode : Instr → Input
  | .lit k b => .stream k (symbolBytes (.lit k b))
  | .run k l => .stream k (symbolBytes (.run k l))
  | .runZ k => .stream k (symbolBytes (.runZ k))
  | .trunc k => .stream k (symbolBytes (.trunc k))
  | .eZero k => .edge (.enc k) (.ofToken (.byte 0x00#8))
  | .eNz k b => .edge (.enc k) (.ofToken (.byte b))
  | .eEnd k => .edge (.enc k) (.ofToken .endOfInput)
  | .dLit k b => .edge (.dec k) (.ofToken (.byte b))
  | .dMark k => .edge (.dec k) (.ofToken (.byte 0x00#8))
  | .dLen k l => .edge (.dec k) (.ofToken (.byte l))
  | .dEndOk k => .edge (.dec k) (.ofToken .endOfInput)
  | .dEndTrunc k => .edge (.dec k) (.ofToken .endOfInput)
  | .eStart k => .edge (.enc k) (.ofControl 0b01#2)
  | .dStart k => .edge (.dec k) (.ofControl 0b01#2)
  | .reset u => .edge u (.ofControl 0b10#2)

/-- A context in which R94 selects the instruction (the `selected_by` column): RUN for a token or a symbol, with the `D.pend`
its row asks; a phase other than RUN for START; any for reset. -/
def ctxOf : Instr → Ctx
  | .dLen _ _ => { phase := .run, pend := true }
  | .dEndTrunc _ => { phase := .run, pend := true }
  | .eStart _ => { phase := .idle, pend := false }
  | .dStart _ => { phase := .idle, pend := false }
  | .reset _ => { phase := .idle, pend := false }
  | _ => { phase := .run, pend := false }

/-- What is left of `encode i` once `i` has been taken from it: after a complete symbol the end of the sequence. -/
def leftOf : Instr → List Input
  | .lit k _ => [.stream k []]
  | .run k _ => [.stream k []]
  | .runZ k => [.stream k []]
  | _ => []

/-! ### The rows and words of opcode_table.json -/

/-- A row's width in bits, its mask and its match. -/
structure TableRow where
  width   : Nat
  mask    : Nat
  pattern : Nat
deriving DecidableEq, Repr

/-- The row of opcode_table.json an instruction stands in. -/
def tableRow : Instr → TableRow
  | .lit _ _ => ⟨8, 0x00, 0x00⟩
  | .run _ _ => ⟨16, 0xff00, 0x0000⟩
  | .runZ _ => ⟨16, 0xffff, 0x0000⟩
  | .trunc _ => ⟨8, 0xff, 0x00⟩
  | .eZero _ => ⟨9, 0x1ff, 0x000⟩
  | .eNz _ _ => ⟨9, 0x100, 0x000⟩
  | .eEnd _ => ⟨9, 0x100, 0x100⟩
  | .dLit _ _ => ⟨9, 0x100, 0x000⟩
  | .dMark _ => ⟨9, 0x1ff, 0x000⟩
  | .dLen _ _ => ⟨9, 0x100, 0x000⟩
  | .dEndOk _ => ⟨9, 0x100, 0x100⟩
  | .dEndTrunc _ => ⟨9, 0x100, 0x100⟩
  | .eStart _ => ⟨2, 0x3, 0x1⟩
  | .dStart _ => ⟨2, 0x3, 0x1⟩
  | .reset _ => ⟨2, 0x2, 0x2⟩

/-- The number a byte sequence is in the table's numbering of S1 and S2: byte 0 on the left (R82, R94). -/
def streamWord (bs : Bytes) : Nat := bs.foldl (fun n b => 256 * n + b.toNat) 0

/-- The word of an input in the table's numbering: the bytes of a symbol, the control word if a control wire is raised, else
the token word. -/
def Input.tableWord : Input → Nat
  | .stream _ bs => streamWord bs
  | .edge _ w => if w.rst || w.start then w.controlWord.toNat else w.tokenWord.toNat

/-- The input a table word of `nbits` bits is laid out as. Rows of different units and formats share their words, and the
spec selects among them by the unit and its state, which a word does not hold. Among the rows whose width, in whole bytes
or in bits, is `nbits` and whose pattern the word meets, the row with the most fixed bits is taken, bits above the row's
width counting as fixed at 0, and of several the first in the table (log 13, DESIGN CHOICE). -/
def tableInput (nbits w : Nat) : Option Input :=
  if nbits = 8 then
    if w = 1 || w = 2 || w = 3 then some (.edge (.enc 0) (.ofControl (BitVec.ofNat 2 w)))
    else if w < 256 then some (.stream 0 [BitVec.ofNat 8 w])
    else none
  else if nbits = 16 then
    if w < 256 then some (.stream 0 [0x00#8, BitVec.ofNat 8 w])
    else if w < 512 then
      some (.edge (.enc 0) { inValid := true, inEnd := true, inData := BitVec.ofNat 8 w })
    else none
  else if nbits = 9 then
    if w < 512 then
      some (.edge (.enc 0) { inValid := true, inEnd := decide (256 ≤ w), inData := BitVec.ofNat 8 w })
    else none
  else if nbits = 2 then
    if w < 4 then some (.edge (.enc 0) (.ofControl (BitVec.ofNat 2 w))) else none
  else none

/-- The context a table word is read in: a control word outside RUN, a token or a symbol in RUN with no marker pending. -/
def tableCtx : Input → Ctx
  | .edge _ w => if w.inValid then { phase := .run, pend := false } else { phase := .idle, pend := false }
  | .stream _ _ => { phase := .run, pend := false }

/-- The instruction the decoder reads from a table word (log 13). -/
def decodeTableWord (nbits w : Nat) : Option Instr :=
  match tableInput nbits w with
  | none => none
  | some inp =>
    match decode (tableCtx inp) inp with
    | .ok (i, _) => some i
    | .error _ => none

end Sys2Proof
end

