-- ==== Sys2Proof/Machine/Flags.lean ====
section
/-! DEFINITION. The status flags (R29): the codes of the phase and of the error register, the read-only STATUS view (R30) and
the result that is read off the state (R174). No operation writes a flag other than as its rule says (R29). -/

namespace Sys2Proof.Machine

/-- The 2-bit codes of R24. -/
def Phase.code : Phase → BitVec 2
  | .idle => 0#2
  | .run => 1#2
  | .done => 2#2
  | .fail => 3#2

/-- The 2-bit codes of R26 and R210. -/
def ErrCode.code : ErrCode → BitVec 2
  | .noError => 0#2
  | .truncatedMarker => 1#2
  | .malformedHex => 2#2
  | .unused => 3#2

/-- R30: bits 1:0 `phase`, bits 3:2 `err`, bits 7:4 hardwired 0. -/
def statusView (p : Phase) (e : ErrCode) : BitVec 8 := 0#4 ++ e.code ++ p.code

/-- `E.STATUS` (R30): the encoder has no error register, its code reads 0 (R26). -/
def Encoder.status (e : Encoder) : BitVec 8 := statusView e.phase .noError

/-- `D.STATUS` (R30). -/
def Decoder.status (d : Decoder) : BitVec 8 := statusView d.phase d.err

/-- The two shapes of a transaction result (00_scope.md section 5): `Ok(s)` and `Err(k)`. -/
inductive Result where
  | ok (s : Bytes)
  | err (k : ErrCode)
deriving DecidableEq, Repr

/-- R174: `Ok(U.out)` in DONE, `Err(TruncatedMarker)` in FAIL with no sequence, no result in IDLE or RUN. -/
def resultView (p : Phase) (out : Bytes) : Option Result :=
  match p with
  | .idle => none
  | .run => none
  | .done => some (.ok out)
  | .fail => some (.err .truncatedMarker)

/-- The result of an encoder's transaction (R174). -/
def Encoder.result (e : Encoder) : Option Result := resultView e.phase e.out

/-- The result of a decoder's transaction (R174). -/
def Decoder.result (d : Decoder) : Option Result := resultView d.phase d.out

/-- R175: a unit's run is over when its phase is DONE or FAIL. -/
def Phase.over : Phase → Bool
  | .done => true
  | .fail => true
  | .idle => false
  | .run => false

end Sys2Proof.Machine
end

