-- ==== Sys2Proof/Machine/Ports.lean ====
section
/-! DEFINITION. The output wires of a unit (R177) and the result drain (R179). -/

namespace Sys2Proof.Machine

/-- The output wires of one unit (R177). `outData` is `none` where the unit offers no result byte. `outEnd` is false where it
offers no result token: R177 gives `out_end` a meaning for an offered token only (log 9, DESIGN CHOICE). -/
structure OutWires where
  inReady  : Bool
  status   : BitVec 8
  outValid : Bool
  outEnd   : Bool
  outData  : Option Byte
deriving DecidableEq, Repr

/-- `out_valid` (R179): "In phase `DONE` the unit offers", at every edge until the one `End` token has been taken. An offer is
never withdrawn: the token of `rd` stays on the wires until it is transferred (D10), or START or reset abandons the drain. -/
def offersResult (p : Phase) (rdEnd : Bool) : Bool := p == .done && !rdEnd

/-- The output wires, from the registers they show and, for `in_ready` alone, the unit's willingness at this edge (R177, R178,
R179). The spec states
neither `out_end` nor `out_data` at an edge with `out_valid = 0`, also after the result's `End` has been taken; there `outEnd`
is driven false and `outData` is `none` (log 9, DESIGN CHOICE). -/
def outWires (p : Phase) (status : BitVec 8) (out : Bytes) (rd : Nat) (rdEnd ready : Bool) : OutWires :=
  { inReady := ready && p == .run
    status := status
    outValid := offersResult p rdEnd
    outEnd := offersResult p rdEnd && decide (out.length ≤ rd)
    outData := if offersResult p rdEnd then out[rd]? else none }

/-- The output wires of an encoder. -/
def Encoder.outputs (ready : Bool) (e : Encoder) : OutWires := outWires e.phase e.status e.out e.rd e.rdEnd ready

/-- The output wires of a decoder. -/
def Decoder.outputs (ready : Bool) (d : Decoder) : OutWires := outWires d.phase d.status d.out d.rd d.rdEnd ready

/-- One edge of the drain of an encoder's result (R179): a byte transfer advances `rd`, the transfer of `End` ends it. -/
def Encoder.drain (w : Wires) (e : Encoder) : Encoder :=
  if offersResult e.phase e.rdEnd && w.outReady then
    if e.rd < e.out.length then { e with rd := e.rd + 1 } else { e with rdEnd := true }
  else e

/-- One edge of the drain of a decoder's result (R179). -/
def Decoder.drain (w : Wires) (d : Decoder) : Decoder :=
  if offersResult d.phase d.rdEnd && w.outReady then
    if d.rd < d.out.length then { d with rd := d.rd + 1 } else { d with rdEnd := true }
  else d

/-- An edge at which no operation is performed: only the result drain can move. -/
def drainEdge (u : UnitId) (w : Wires) (s : State) : Outcome :=
  match u with
  | .enc k => onEnc k s fun e => .next (s.setEnc k (e.drain w))
  | .dec k => onDec k s fun d => .next (s.setDec k (d.drain w))

end Sys2Proof.Machine
end

