-- ==== Sys2Proof/Machine/Fetch.lean ====
section
/-! DEFINITION. Taking the next input of the outside world and selecting the operation it asks for (R94, R178). -/

namespace Sys2Proof.Machine

/-- The selection context of a unit (R94), if the unit exists. -/
def State.ctx (s : State) : UnitId → Option Ctx
  | .enc k => (s.encs[k]?).map (fun e => { phase := e.phase, pend := false })
  | .dec k => (s.decs[k]?).map (fun d => { phase := d.phase, pend := d.pend })

/-- The inputs still to come become `l`. -/
def State.setInputs (l : List Input) (s : State) : State := { s with inputs := l }

/-! ### The token a host offers (R178, R181) -/

/-- The token waiting at a unit: offered at its last edge and not taken. -/
def State.waiting (s : State) : UnitId → Option Token
  | .enc k => (s.encWaiting[k]?).join
  | .dec k => (s.decWaiting[k]?).join

/-- `o` is the token that now waits at unit `u`. -/
def State.setWaiting (u : UnitId) (o : Option Token) (s : State) : State :=
  match u with
  | .enc k => { s with encWaiting := s.encWaiting.set k o }
  | .dec k => { s with decWaiting := s.decWaiting.set k o }

/-- An input of unit `u` is over: `o` waits at the unit and `l` is still to come. -/
def State.advance (u : UnitId) (o : Option Token) (l : List Input) (s : State) : State := (s.setWaiting u o).setInputs l

/-- "The host keeps a token offered and unchanged until it is taken" (R178, R181): a waiting token is offered again, unless
reset is asserted. -/
def keepsOffer (waiting : Option Token) (inp : Input) : Bool :=
  inp.resets || waiting.isNone || inp.offer == waiting

/-- The token that waits once `inp` has selected `i`: START takes none (R178), a token operation takes the one offered, reset
abandons it. -/
def waitingAfter (i : Instr) (inp : Input) : Option Token :=
  match i with
  | .eStart _ => inp.offer
  | .dStart _ => inp.offer
  | _ => none

/-- What the next step is about. -/
inductive Fetched where
  /-- The operation selected, and the state with its input taken. -/
  | op (i : Instr) (s : State)
  /-- An edge at which no operation is performed, and the state with the edge taken. -/
  | edge (u : UnitId) (w : Wires) (s : State)
  /-- Nothing is presented, or what is presented waits. -/
  | wait
  /-- The input is presented to a unit that does not exist. -/
  | noUnit
  /-- The host has changed or withdrawn a token that was not taken (R178, R181). -/
  | brokenOffer
deriving DecidableEq, Repr

/-- The next input and what it selects. An edge is over once it has passed, whatever it selected, and the token it offered
waits if it was not taken; a compressed sequence played to a decoder outside RUN waits where it is (R172). There is one list
for all units, so what stands behind a sequence, inputs of other units and START or reset of its own decoder too, is reached
when the sequence has ended, and not at all while that decoder is outside RUN: an order of this model, none of the block, whose
units share nothing (R11, R176; log 10, DESIGN CHOICE). A host that does not keep its offer is outside R181 and is given no meaning (R226; log 19). -/
def fetch (s : State) : Fetched :=
  match s.inputs with
  | [] => .wait
  | inp :: rest =>
    match s.ctx inp.unit with
    | none => .noUnit
    | some c =>
      if keepsOffer (s.waiting inp.unit) inp then
        match decode c inp with
        | .ok (i, left) => .op i (s.advance inp.unit (waitingAfter i inp) (left ++ rest))
        | .error _ =>
          match inp with
          | .edge u w => .edge u w (s.advance u (Input.edge u w).offer rest)
          | .stream _ _ => .wait
      else .brokenOffer

/-- What a step does with what it fetched. -/
def runFetched (run : Instr → State → Outcome) (s : State) : Fetched → Outcome
  | .op i s' => run i s'
  | .edge u w s' => drainEdge u w s'
  | .wait => .next s
  | .noUnit => .fault .noSuchUnit
  | .brokenOffer => .refused .offerNotKept

/-- The phase of a unit, and for a decoder `pend`, become those of a context in which R94 selects `i`; nothing changes for
reset, or for START of a unit that is not in RUN. -/
def State.enable (i : Instr) (s : State) : State :=
  match i with
  | .reset _ => s
  | .eStart k => { s with encs := s.encs.modify k (fun e => if e.phase = .run then { e with phase := .idle } else e) }
  | .dStart k => { s with decs := s.decs.modify k (fun d => if d.phase = .run then { d with phase := .idle } else d) }
  | i =>
    match i.unit with
    | .enc k => { s with encs := s.encs.modify k (fun e => { e with phase := .run }) }
    | .dec k => { s with decs := s.decs.modify k (fun d => { d with phase := .run, pend := (ctxOf i).pend }) }

/-- The state in which the very next step runs the instruction of a table word: its unit is in a state that selects the
instruction, no other token waits there, and the word is the next input (log 2, log 13). A word that is no instruction changes
nothing. -/
def State.presentTableWord (s : State) (nbits w : Nat) : State :=
  match tableInput nbits w, decodeTableWord nbits w with
  | some inp, some i => (s.enable i).advance i.unit none (inp :: s.inputs)
  | _, _ => s

end Sys2Proof.Machine
end

