-- ==== Sys2Proof/Machine/Step.lean ====
section
/-! DEFINITION. One step of the block: the next input of the outside world, and the operation it selects (R10 level S). -/

namespace Sys2Proof.Machine

/-- One step. With nothing presented the block does nothing (R175, R225). -/
def step (s : State) : Host.Outcome State Fault Refusal := runFetched exec s (fetch s)

/-- `s` with a table word as the next input, in a state that selects it (log 2, log 13). -/
def State.withFetchWord (s : State) (nbits w : Nat) : State := s.presentTableWord nbits w

end Sys2Proof.Machine
end

