-- ==== Sys2Proof/Machine/Codec.lean ====
section
/-! DEFINITION. Level T of R10: the functions from a whole input sequence to a result (R115, R148), the classes of compressed
sequences (R85, R89), the closed form and the lengths (R116, R119, R122), and the assembler's lines (R96, R97). -/

namespace Sys2Proof.Codec

open Sys2Proof.Machine

/-! ### The encoder's function -/

/-- `flush(r, o)` of R115. -/
def flush (r : Byte) (o : Bytes) : Bytes := if 0x00#8 < r then o ++ markerBytes r else o

/-- `enc(b, r, o)` of R115: remaining input, counter, output. -/
def enc : Bytes → Byte → Bytes → Bytes
  | [], r, o => flush r o
  | x :: t, r, o =>
    if x = 0x00#8 then
      if r = maxRun then enc t 0x01#8 (o ++ markerBytes maxRun) else enc t (r + 1) o
    else enc t 0x00#8 (flush r o ++ [x])

/-- `encode(b)` of R115. -/
def encode (b : Bytes) : Bytes := enc b 0x00#8 []

/-! ### The decoder's function -/

/-- `dec(c, o)` of R148. -/
def dec : Bytes → Bytes → Result
  | [], o => .ok o
  | [x], o => if x = 0x00#8 then .err .truncatedMarker else .ok (o ++ [x])
  | x :: l :: t, o => if x = 0x00#8 then dec t (o ++ runBytes l) else dec (l :: t) (o ++ [x])

/-- `decode(c)` of R148. -/
def decode (c : Bytes) : Result := dec c []

/-! ### Parsing and the classes of R89 -/

/-- The two symbols of R80. -/
inductive Sym where
  | lit (b : Byte)
  | run (l : Byte)
deriving DecidableEq, Repr

/-- The bytes of a symbol (R81, R82). -/
def Sym.bytes : Sym → Bytes
  | .lit b => [b]
  | .run l => markerBytes l

/-- The plain bytes a symbol stands for (R81, R82). -/
def Sym.plain : Sym → Bytes
  | .lit b => [b]
  | .run l => runBytes l

/-- The bytes of a list of symbols laid end to end (R80). -/
def symbols (l : List Sym) : Bytes := l.flatMap Sym.bytes

/-- The unique parse of R85: the symbols, and whether one bare 0x00 follows them. -/
def parse : Bytes → List Sym × Bool
  | [] => ([], false)
  | [x] => if x = 0x00#8 then ([], true) else ([.lit x], false)
  | x :: l :: t =>
    if x = 0x00#8 then ((.run l) :: (parse t).1, (parse t).2)
    else ((.lit x) :: (parse (l :: t)).1, (parse (l :: t)).2)

/-- A marker length in 1 to 255, a literal that is no marker byte. -/
def Sym.wellFormed : Sym → Bool
  | .lit b => b != 0x00#8
  | .run l => l != 0x00#8

/-- R89: every run that is followed by a run has length 255. -/
def fullBeforeRun : List Sym → Bool
  | .run l :: .run m :: t => l == maxRun && fullBeforeRun (.run m :: t)
  | _ :: t => fullBeforeRun t
  | [] => true

/-- R89 "accepted": no truncated marker. -/
def accepted (c : Bytes) : Bool := !(parse c).2

/-- R89 "well-formed": accepted, and every marker has a length in 1 to 255. -/
def wellFormed (c : Bytes) : Bool := accepted c && (parse c).1.all Sym.wellFormed

/-- R89 "canonical". -/
def canonical (c : Bytes) : Bool := wellFormed c && fullBeforeRun (parse c).1

/-! ### Closed form and lengths -/

/-- `markers(n)` of R116. -/
def markers (n : Nat) : Bytes :=
  (List.replicate (n / 255) (markerBytes maxRun)).flatten ++
    (if n % 255 ≠ 0 then markerBytes (BitVec.ofNat 8 (n % 255)) else [])

/-- R116: maximal runs of zeros as `markers`, other bytes as they are; `n` zeros are already counted. -/
def closedFrom : Nat → Bytes → Bytes
  | n, [] => markers n
  | n, x :: t => if x = 0x00#8 then closedFrom (n + 1) t else markers n ++ x :: closedFrom 0 t

/-- The closed form of `encode` (R116). -/
def closedForm (b : Bytes) : Bytes := closedFrom 0 b

/-- The lengths of the maximal runs of zeros (R13 "run"), `n` zeros already counted. -/
def runsFrom : Nat → Bytes → List Nat
  | n, [] => if n = 0 then [] else [n]
  | n, x :: t =>
    if x = 0x00#8 then runsFrom (n + 1) t
    else (if n = 0 then [] else [n]) ++ runsFrom 0 t

/-- The lengths `n_1, ..., n_m` of the maximal zero runs (R119). -/
def runLengths (b : Bytes) : List Nat := runsFrom 0 b

/-- The number `z` of non-zero bytes (R119). -/
def nonZeros (b : Bytes) : Nat := b.countP (fun x => x != 0x00#8)

/-- `ceil(n / 255)` of the notation (00_scope.md section 5). -/
def ceil255 (n : Nat) : Nat := (n + 255 - 1) / 255

/-- The number of consecutive zeros at the end (`t` of R122). -/
def trailingZeros (b : Bytes) : Nat := (b.reverse.takeWhile (fun x => x == 0x00#8)).length

/-- R122: the counter after `t` consecutive zeros. -/
def pendingRun (t : Nat) : Nat := if t = 0 then 0 else (t - 1) % 255 + 1

/-! ### Source text (R96, R97) -/

/-- A line of a compressed program: `LIT`, `RUN`, `ZEROS`, and `.byte 0x00`, which stands for a bare marker. -/
inductive AsmLine where
  | lit (b : Byte)
  | run (l : Byte)
  | zeros (n : Nat)
  | bareMarker
deriving DecidableEq, Repr

/-- The bytes a line assembles to (R96, R97). -/
def AsmLine.bytes : AsmLine → Bytes
  | .lit b => [b]
  | .run l => markerBytes l
  | .zeros n => markers n
  | .bareMarker => [markerByte]

/-- "Symbols ... assemble in order with nothing between them" (R96). -/
def assemble (p : List AsmLine) : Bytes := p.flatMap AsmLine.bytes

/-- R97: a list of LIT and ZEROS n (`n >= 1`) lines in which no two ZEROS lines are adjacent. -/
def canonicalProgram : List AsmLine → Bool
  | [] => true
  | .lit b :: t => b != 0x00#8 && canonicalProgram t
  | .zeros n :: .lit b :: t => n != 0 && b != 0x00#8 && canonicalProgram t
  | [.zeros n] => n != 0
  | _ => false

end Sys2Proof.Codec
end

