-- ==== Sys2Proof/Machine/HostScript.lean ====
section
/-! DEFINITION. What a host that keeps its duties presents for one transaction (R181, R243): START, every byte of the input
once and in index order, then `End` once. -/

namespace Sys2Proof.Machine

/-- One edge with START raised (R177). -/
def startEdge (u : UnitId) : Input := .edge u (Wires.ofControl 0b01#2)

/-- One edge with a token offered (R178). -/
def tokenEdge (u : UnitId) (t : Token) : Input := .edge u (Wires.ofToken t)

/-- The inputs of a whole transaction with input sequence `inp`: "`1 + len(inp) + 1` operations" (R180). -/
def transaction (u : UnitId) (inp : Bytes) : List Input := startEdge u :: (tokens inp).map (tokenEdge u)

/-- The inputs of a decoder's transaction in the one-step form of R144: START, then the sequence symbol by symbol. -/
def symbolTransaction (k : Nat) (c : Bytes) : List Input := [startEdge (.dec k), .stream k c]

end Sys2Proof.Machine
end

