-- ==== Sys2Proof/Machine/HexBoundary.lean ====
section
/-! DEFINITION. The host's hex boundary (R190 to R198), "recorded as host behaviour, not as behaviour of the block"
(00_scope.md R5): no meaning of the machine uses it. Digit values: R192, R194 (log 17). -/

namespace Sys2Proof.HexBoundary

open Sys2Proof.Machine

/-- The value of a hexadecimal digit (R192); `A` to `F` only if `upper`, the parameter `HEX_ACCEPT_UPPER` (R194). -/
def digitValue (upper : Bool) (c : Char) : Option Nat :=
  if 48 ≤ c.toNat && c.toNat ≤ 57 then some (c.toNat - 48)
  else if 97 ≤ c.toNat && c.toNat ≤ 102 then some (c.toNat - 87)
  else if upper && 65 ≤ c.toNat && c.toNat ≤ 70 then some (c.toNat - 55)
  else none

/-- The digit of a nibble, lower case (R195). -/
def digitChar (n : Nat) : Char := if n < 10 then Char.ofNat (48 + n) else Char.ofNat (87 + n)

/-- `hexdec` (R192, R193): two digits a byte, the high nibble first; `none` is the malformed-hex error. -/
def hexdec (upper : Bool) : List Char → Option Bytes
  | [] => some []
  | [_] => none
  | h :: l :: t =>
    match digitValue upper h, digitValue upper l, hexdec upper t with
    | some a, some b, some r => some (BitVec.ofNat 8 (16 * a + b) :: r)
    | _, _, _ => none

/-- `hexenc` (R195): `2 * len(b)` characters, no prefix, no separators. -/
def hexenc (b : Bytes) : List Char := b.flatMap fun x => [digitChar (x.toNat / 16), digitChar (x.toNat % 16)]

/-- The result of a wrapped entry point (R191). -/
inductive HexResult where
  | ok (s : List Char)
  | err (k : ErrCode)
deriving DecidableEq, Repr

/-- `encode_hex` of R191; malformed hex is code 2 (R198). -/
def encodeHex (p : Params) (s : List Char) : HexResult :=
  match hexdec p.hexAcceptUpper s with
  | none => .err .malformedHex
  | some b => .ok (hexenc (Codec.encode b))

/-- `decode_hex` of R191: malformed hex before the truncated marker (R216). -/
def decodeHex (p : Params) (s : List Char) : HexResult :=
  match hexdec p.hexAcceptUpper s with
  | none => .err .malformedHex
  | some c =>
    match Codec.decode c with
    | .err k => .err k
    | .ok b => .ok (hexenc b)

/-- The command line strips one leading `0x` (R196); `0X` and a second `0x` stay (93 V10). -/
def stripPrefix : List Char → List Char
  | '0' :: 'x' :: t => t
  | s => s

/-- What the host presents to a unit for a hex string: nothing at all if the string is malformed (R197). -/
def hexTransaction (p : Params) (u : UnitId) (s : List Char) : List Input :=
  match hexdec p.hexAcceptUpper s with
  | none => []
  | some b => transaction u b

end Sys2Proof.HexBoundary
end

