-- ==== Sys2Proof/Safety.lean ====
section
/-! DEFINITION. What claims use: the invariants of R35, the agreement of the registers with level T (R10, R115, R122, R148),
and the phase transitions of R170. A safe run of a unit ends in DONE; FAIL is its fault state (R175, R226). -/

namespace Sys2Proof.Machine

/-- The drain's registers move only in DONE (R179). -/
abbrev drainInv (p : Phase) (len rd : Nat) (rdEnd : Bool) : Prop :=
  rd ≤ len ∧ (p ≠ .done → rd = 0 ∧ rdEnd = false) ∧ (rdEnd = true → rd = len)

/-- R35 of an encoder: (b), (c), (e) with the consumed input, (f) with what keeps it true while a run is pending; no FAIL
(R24). -/
abbrev Encoder.Inv (e : Encoder) : Prop :=
  (e.phase ≠ .run → e.runLen = 0x00#8) ∧
  (e.phase = .idle → e.pos = 0 ∧ e.out = []) ∧
  e.phase ≠ .fail ∧
  e.pos = e.inp.length ∧
  Codec.canonical e.out = true ∧
  (e.phase = .run → Codec.canonical (e.out ++ markerBytes 0x01#8) = true) ∧
  drainInv e.phase e.out.length e.rd e.rdEnd

/-- R35 of a decoder: (b), (c), (d), (e) with the consumed input; error codes 2 and 3 never occur (R26). -/
abbrev Decoder.Inv (d : Decoder) : Prop :=
  (d.phase ≠ .run → d.pend = false) ∧
  (d.phase = .idle → d.pos = 0 ∧ d.out = []) ∧
  (d.phase = .fail ↔ d.err = .truncatedMarker) ∧
  (d.phase = .fail → d.out = []) ∧
  (d.err = .noError ∨ d.err = .truncatedMarker) ∧
  d.pos = d.inp.length ∧
  drainInv d.phase d.out.length d.rd d.rdEnd

/-- R35 of the block: every unit meets its invariant and stays within the capacities (R9, R58), and there are `N_ENC` and
`N_DEC` of them, each with a place for its waiting token (log 19). -/
abbrev State.Inv (s : State) : Prop :=
  s.encs.length = s.cfg.nEnc ∧ s.decs.length = s.cfg.nDec ∧
  s.encWaiting.length = s.cfg.nEnc ∧ s.decWaiting.length = s.cfg.nDec ∧
  (∀ e ∈ s.encs, e.Inv ∧ Params.excess s.cfg e.pos e.out.length = none) ∧
  (∀ d ∈ s.decs, d.Inv ∧ Params.excess s.cfg d.pos d.out.length = none)

/-- The encoder agrees with level T: in RUN the rest of any input leads `enc` from the registers to where it leads it from
the start (R115), the counter is that of R122 and the buffer with the pending run decodes to the consumed input (R122); in
DONE the result is `encode` of the input. -/
def Encoder.Agrees (e : Encoder) : Prop :=
  (e.phase = .run →
    (∀ rest, Codec.encode (e.inp ++ rest) = Codec.enc rest e.runLen e.out) ∧
    e.runLen.toNat = Codec.pendingRun (Codec.trailingZeros e.inp) ∧
    ∃ p, Codec.decode e.out = .ok p ∧ p ++ zeros e.runLen.toNat = e.inp) ∧
  (e.phase = .done → e.out = Codec.encode e.inp)

/-- The decoder agrees with level T (R148): in RUN `dec` goes on from the registers, with the marker byte put back while it
is pending; in DONE the result is `Ok(out)`, in FAIL it is the error. -/
def Decoder.Agrees (d : Decoder) : Prop :=
  (d.phase = .run → ∀ rest, Codec.decode (d.inp ++ rest) =
    Codec.dec (if d.pend then markerByte :: rest else rest) d.out) ∧
  (d.phase = .done → Codec.decode d.inp = .ok d.out) ∧
  (d.phase = .fail → Codec.decode d.inp = .err .truncatedMarker)

/-- Every unit of the block agrees with level T. -/
def State.Agrees (s : State) : Prop := (∀ e ∈ s.encs, e.Agrees) ∧ (∀ d ∈ s.decs, d.Agrees)

/-- The transitions of R170, with "no change" for the steps that leave the phase as it is. -/
def phaseMove : Phase → Phase → Bool
  | _, .idle => true
  | .idle, .run => true
  | .done, .run => true
  | .fail, .run => true
  | .run, .run => true
  | .run, .done => true
  | .run, .fail => true
  | .done, .done => true
  | .fail, .fail => true
  | _, _ => false

end Sys2Proof.Machine
end

