-- ==== Sys2Proof/Certificates/Slice0/Obligations.lean ====
section
/-! DEFINITION. The statements about the block, from the numbered rules of spec/. A hypothesis `Params.excess … = none` says
that the step stays within the capacities (R9, R58); with unbounded capacities it holds for every cursor below `2^LEN_BITS`.
`keepsOffer … = true` says that the host keeps a token offered until it is taken (R178, R181); it holds where none waits.
`State.advance` takes an input off the state and records the token that now waits, the model's account of that duty (log 19). -/

open Sys2Proof Sys2Proof.Machine Sys2Proof.HexBoundary

/-! ### Decoding and stepping -/

/-- When the next input selects an instruction in the state of its unit (R94), the step is that instruction on the state with
the input taken; after START the token offered beside it waits (R178), after any other operation none waits. -/
def Obligations.StepRunsDecodedInstruction : Prop :=
  ∀ (s : State) (inp : Input) (rest left : List Input) (c : Ctx) (i : Instr),
    s.inputs = inp :: rest → s.ctx inp.unit = some c → keepsOffer (s.waiting inp.unit) inp = true →
    decode c inp = .ok (i, left) →
    step s = exec i (s.advance inp.unit (waitingAfter i inp) (left ++ rest))

/-- Words written out from the tables of R81, R82, R87, R88 and R94, each with the instruction it stands for. -/
def Obligations.WrittenOutWordsDecode : Prop :=
  decode ⟨.run, false⟩ (.stream 0 [0xff#8, 0x00#8, 0x04#8]) = .ok (.lit 0 0xff#8, [.stream 0 [0x00#8, 0x04#8]]) ∧
  decode ⟨.run, false⟩ (.stream 0 [0x00#8, 0x04#8, 0xff#8]) = .ok (.run 0 0x04#8, [.stream 0 [0xff#8]]) ∧
  decode ⟨.run, false⟩ (.stream 0 [0x00#8, 0x00#8, 0x05#8]) = .ok (.runZ 0, [.stream 0 [0x05#8]]) ∧
  decode ⟨.run, false⟩ (.stream 0 [0x00#8]) = .ok (.trunc 0, []) ∧
  decode ⟨.run, false⟩ (.edge (.enc 0) { inValid := true, inEnd := false, inData := 0b00000000#8 }) = .ok (.eZero 0, []) ∧
  decode ⟨.run, false⟩ (.edge (.enc 0) { inValid := true, inEnd := false, inData := 0b10000001#8 }) =
    .ok (.eNz 0 0x81#8, []) ∧
  decode ⟨.run, false⟩ (.edge (.enc 0) { inValid := true, inEnd := true, inData := 0b11111111#8 }) = .ok (.eEnd 0, []) ∧
  decode ⟨.run, false⟩ (.edge (.dec 0) { inValid := true, inEnd := false, inData := 0b10000001#8 }) =
    .ok (.dLit 0 0x81#8, []) ∧
  decode ⟨.run, false⟩ (.edge (.dec 0) { inValid := true, inEnd := false, inData := 0b00000000#8 }) = .ok (.dMark 0, []) ∧
  decode ⟨.run, true⟩ (.edge (.dec 0) { inValid := true, inEnd := false, inData := 0b00000000#8 }) =
    .ok (.dLen 0 0x00#8, []) ∧
  decode ⟨.run, false⟩ (.edge (.dec 0) { inValid := true, inEnd := true, inData := 0b00000000#8 }) = .ok (.dEndOk 0, []) ∧
  decode ⟨.run, true⟩ (.edge (.dec 0) { inValid := true, inEnd := true, inData := 0b01010101#8 }) =
    .ok (.dEndTrunc 0, []) ∧
  decode ⟨.idle, false⟩ (.edge (.enc 0) { rst := false, start := true }) = .ok (.eStart 0, []) ∧
  decode ⟨.fail, false⟩ (.edge (.dec 0) { rst := false, start := true }) = .ok (.dStart 0, []) ∧
  decode ⟨.run, false⟩ (.edge (.dec 0) { rst := true, start := true, inValid := true }) = .ok (.reset (.dec 0), [])

/-- The selection table of R94: unit, token, `D.pend` and phase select the operation; the data bits of `End` are ignored. -/
def Obligations.PatternUnitAndStateSelectTheOperation : Prop :=
  (∀ (k : Nat) (pend : Bool) (w : Wires), w.rst = false → w.start = false → w.inValid = true → w.ready = true →
    (w.inEnd = false → w.inData = 0x00#8 → decode ⟨.run, pend⟩ (.edge (.enc k) w) = .ok (.eZero k, [])) ∧
    (w.inEnd = false → w.inData ≠ 0x00#8 → decode ⟨.run, pend⟩ (.edge (.enc k) w) = .ok (.eNz k w.inData, [])) ∧
    (w.inEnd = true → decode ⟨.run, pend⟩ (.edge (.enc k) w) = .ok (.eEnd k, [])) ∧
    (w.inEnd = false → w.inData ≠ 0x00#8 → decode ⟨.run, false⟩ (.edge (.dec k) w) = .ok (.dLit k w.inData, [])) ∧
    (w.inEnd = false → w.inData = 0x00#8 → decode ⟨.run, false⟩ (.edge (.dec k) w) = .ok (.dMark k, [])) ∧
    (w.inEnd = false → decode ⟨.run, true⟩ (.edge (.dec k) w) = .ok (.dLen k w.inData, [])) ∧
    (w.inEnd = true → decode ⟨.run, false⟩ (.edge (.dec k) w) = .ok (.dEndOk k, [])) ∧
    (w.inEnd = true → decode ⟨.run, true⟩ (.edge (.dec k) w) = .ok (.dEndTrunc k, []))) ∧
  (∀ (k : Nat) (c : Ctx) (w : Wires), w.rst = false → w.start = true → c.phase ≠ .run →
    decode c (.edge (.enc k) w) = .ok (.eStart k, []) ∧ decode c (.edge (.dec k) w) = .ok (.dStart k, [])) ∧
  (∀ (u : UnitId) (c : Ctx) (w : Wires), w.rst = true → decode c (.edge u w) = .ok (.reset u, []))

/-- Decoding the encoding of a well-formed instruction gives it back, and a complete stream symbol is read off the front of
any sequence with the rest left untouched. -/
def Obligations.DecodeOfEncodeIsTheInstruction : Prop :=
  (∀ i : Instr, i.wellFormed = true → decode (ctxOf i) (encode i) = .ok (i, leftOf i)) ∧
  (∀ (k : Nat) (b : Byte) (t : Bytes), b ≠ 0x00#8 →
    decode ⟨.run, false⟩ (.stream k (symbolBytes (.lit k b) ++ t)) = .ok (.lit k b, [.stream k t])) ∧
  (∀ (k : Nat) (l : Byte) (t : Bytes), l ≠ 0x00#8 →
    decode ⟨.run, false⟩ (.stream k (symbolBytes (.run k l) ++ t)) = .ok (.run k l, [.stream k t])) ∧
  (∀ (k : Nat) (t : Bytes),
    decode ⟨.run, false⟩ (.stream k (symbolBytes (.runZ k) ++ t)) = .ok (.runZ k, [.stream k t]))

/-- Every instruction is reached by the step: in a state of its unit that selects it, with no token waiting there and its
encoding as the next input, the step runs it. `State.enable` sets the phase, and `pend` of a decoder, and nothing else. -/
def Obligations.EveryWellFormedInstructionIsFetched : Prop :=
  ∀ (s : State) (i : Instr), i.wellFormed = true → (s.ctx i.unit).isSome = true →
    step ((s.enable i).advance i.unit none (encode i :: s.inputs)) =
      exec i ((s.enable i).advance i.unit none (leftOf i ++ s.inputs))

/-- R85: every byte sequence parses in exactly one way, as a list of symbols followed by either nothing or one bare 0x00. -/
def Obligations.ParsingIsUniqueAndGreedy : Prop :=
  (∀ c : Bytes, Codec.symbols (Codec.parse c).1 ++ (if (Codec.parse c).2 then [markerByte] else []) = c ∧
    ∀ b, Codec.Sym.lit b ∈ (Codec.parse c).1 → b ≠ 0x00#8) ∧
  (∀ l : List Codec.Sym, (∀ b, Codec.Sym.lit b ∈ l → b ≠ 0x00#8) →
    Codec.parse (Codec.symbols l) = (l, false) ∧ Codec.parse (Codec.symbols l ++ [markerByte]) = (l, true)) ∧
  Codec.parse [0x00#8, 0x00#8, 0x05#8] = ([.run 0x00#8, .lit 0x05#8], false)

/-! ### Reset and START -/

/-- R34: the values after reset, and the values START writes. -/
def Obligations.ResetAndStartValues : Prop :=
  (∀ p : Params,
    (∀ e ∈ (State.resetWith p).encs, e.phase = .idle ∧ e.runLen = 0x00#8 ∧ e.pos = 0 ∧ e.out = [] ∧ e.status = 0x00#8) ∧
    (∀ d ∈ (State.resetWith p).decs, d.phase = .idle ∧ d.pend = false ∧ d.pos = 0 ∧ d.out = [] ∧ d.err = .noError ∧
      d.status = 0x00#8)) ∧
  (∀ (s : State) (k : Nat) (e : Encoder), s.encs[k]? = some e → e.phase ≠ .run →
    ∃ t e', exec (.eStart k) s = .next t ∧ t.encs[k]? = some e' ∧
      e'.phase = .run ∧ e'.runLen = 0x00#8 ∧ e'.pos = 0 ∧ e'.out = [] ∧ e'.status = 0x01#8) ∧
  (∀ (s : State) (k : Nat) (d : Decoder), s.decs[k]? = some d → d.phase ≠ .run →
    ∃ t d', exec (.dStart k) s = .next t ∧ t.decs[k]? = some d' ∧
      d'.phase = .run ∧ d'.pend = false ∧ d'.pos = 0 ∧ d'.out = [] ∧ d'.err = .noError ∧ d'.status = 0x01#8)

/-- R240: at an edge with reset asserted, whatever else is on the wires and whatever the phase, the unit takes its reset
values and has no result; and a unit that is in IDLE, as it then is, changes no register at any edge without reset and START. -/
def Obligations.ResetWinsFromEveryPhase : Prop :=
  (∀ (s : State) (k : Nat) (e : Encoder), s.encs[k]? = some e →
    (∃ t e', exec (.reset (.enc k)) s = .next t ∧ t.encs[k]? = some e' ∧ e'.phase = .idle ∧
        e'.runLen = 0x00#8 ∧ e'.pos = 0 ∧ e'.out = [] ∧ e'.result = none) ∧
    (∀ (w : Wires) (rest : List Input), s.inputs = .edge (.enc k) w :: rest → w.rst = true →
      ∃ t e', step s = .next t ∧ t.inputs = rest ∧ t.encs[k]? = some e' ∧ e'.phase = .idle ∧
        e'.runLen = 0x00#8 ∧ e'.pos = 0 ∧ e'.out = [] ∧ e'.result = none) ∧
    (∀ (w : Wires) (rest : List Input), s.inputs = .edge (.enc k) w :: rest → e.phase = .idle → w.rst = false →
      w.start = false → keepsOffer (s.waiting (.enc k)) (.edge (.enc k) w) = true →
      ∃ t, step s = .next t ∧ t.inputs = rest ∧ t.encs = s.encs ∧ t.decs = s.decs)) ∧
  (∀ (s : State) (k : Nat) (d : Decoder), s.decs[k]? = some d →
    (∃ t d', exec (.reset (.dec k)) s = .next t ∧ t.decs[k]? = some d' ∧ d'.phase = .idle ∧
        d'.pend = false ∧ d'.pos = 0 ∧ d'.out = [] ∧ d'.err = .noError ∧ d'.result = none) ∧
    (∀ (w : Wires) (rest : List Input), s.inputs = .edge (.dec k) w :: rest → w.rst = true →
      ∃ t d', step s = .next t ∧ t.inputs = rest ∧ t.decs[k]? = some d' ∧ d'.phase = .idle ∧
        d'.pend = false ∧ d'.pos = 0 ∧ d'.out = [] ∧ d'.err = .noError ∧ d'.result = none) ∧
    (∀ (w : Wires) (rest : List Input), s.inputs = .edge (.dec k) w :: rest → d.phase = .idle → w.rst = false →
      w.start = false → keepsOffer (s.waiting (.dec k)) (.edge (.dec k) w) = true →
      ∃ t, step s = .next t ∧ t.inputs = rest ∧ t.encs = s.encs ∧ t.decs = s.decs))

/-- R173: START is not accepted in RUN: the operation changes nothing, an edge that raises it alone changes nothing and is
not latched, and RUN is left only by consuming `End` or by reset. -/
def Obligations.StartIsIgnoredInRun : Prop :=
  (∀ (s : State) (k : Nat) (e : Encoder), s.encs[k]? = some e → e.phase = .run → exec (.eStart k) s = .next s) ∧
  (∀ (s : State) (k : Nat) (d : Decoder), s.decs[k]? = some d → d.phase = .run → exec (.dStart k) s = .next s) ∧
  (∀ (s : State) (u : UnitId) (c : Ctx) (w : Wires) (rest : List Input),
    s.inputs = .edge u w :: rest → s.ctx u = some c → c.phase = .run → w.rst = false → w.inValid = false →
    s.waiting u = none → step s = .next (s.advance u none rest)) ∧
  (∀ (i : Instr) (s t : State) (k : Nat) (e e' : Encoder), exec i s = .next t → s.encs[k]? = some e →
    t.encs[k]? = some e' → e.phase = .run → e'.phase ≠ .run → i = .eEnd k ∨ i = .reset (.enc k)) ∧
  (∀ (i : Instr) (s t : State) (k : Nat) (d d' : Decoder), exec i s = .next t → s.decs[k]? = some d →
    t.decs[k]? = some d' → d.phase = .run → d'.phase ≠ .run →
    i = .dEndOk k ∨ i = .dEndTrunc k ∨ i = .trunc k ∨ i = .reset (.dec k))

/-! ### The encoder's operations -/

/-- R112: E.ZERO flushes a full run as (0x00, 255) before counting, tested before the increment. -/
def Obligations.EZeroCountsAndRollsOverAt255 : Prop :=
  ∀ (s : State) (k : Nat) (e : Encoder), s.encs[k]? = some e → e.phase = .run →
    Params.excess s.cfg (e.pos + 1) (e.out.length + (if e.runLen = 0xff#8 then 2 else 0)) = none →
    ∃ t e', exec (.eZero k) s = .next t ∧ t.encs[k]? = some e' ∧ e'.phase = .run ∧ e'.pos = e.pos + 1 ∧
      (e.runLen = 0xff#8 → e'.runLen = 0x01#8 ∧ e'.out = e.out ++ [0x00#8, 0xff#8]) ∧
      (e.runLen ≠ 0xff#8 → e'.runLen.toNat = e.runLen.toNat + 1 ∧ e'.out = e.out)

/-- R113: E.NZ b flushes the pending run, then appends the byte verbatim. -/
def Obligations.ENzFlushesThenAppendsTheByte : Prop :=
  ∀ (s : State) (k : Nat) (b : Byte) (e : Encoder), s.encs[k]? = some e → e.phase = .run → b ≠ 0x00#8 →
    Params.excess s.cfg (e.pos + 1) (e.out.length + (if e.runLen = 0x00#8 then 1 else 3)) = none →
    ∃ t e', exec (.eNz k b) s = .next t ∧ t.encs[k]? = some e' ∧ e'.phase = .run ∧ e'.pos = e.pos + 1 ∧
      e'.runLen = 0x00#8 ∧ (e.runLen = 0x00#8 → e'.out = e.out ++ [b]) ∧
      (e.runLen ≠ 0x00#8 → e'.out = e.out ++ [0x00#8, e.runLen, b])

/-- R114: E.END flushes the trailing run and enters DONE; the cursor does not change. -/
def Obligations.EEndFlushesTheTrailingRun : Prop :=
  ∀ (s : State) (k : Nat) (e : Encoder), s.encs[k]? = some e → e.phase = .run →
    Params.excess s.cfg e.pos (e.out.length + (if e.runLen = 0x00#8 then 0 else 2)) = none →
    ∃ t e', exec (.eEnd k) s = .next t ∧ t.encs[k]? = some e' ∧ e'.phase = .done ∧ e'.pos = e.pos ∧
      e'.runLen = 0x00#8 ∧ (e.runLen = 0x00#8 → e'.out = e.out) ∧
      (e.runLen ≠ 0x00#8 → e'.out = e.out ++ [0x00#8, e.runLen])

/-! ### The decoder's operations -/

/-- R141: D.LIT b appends the byte verbatim. -/
def Obligations.DLitAppendsTheByte : Prop :=
  ∀ (s : State) (k : Nat) (b : Byte) (d : Decoder), s.decs[k]? = some d → d.phase = .run → d.pend = false →
    b ≠ 0x00#8 → Params.excess s.cfg (d.pos + 1) (d.out.length + 1) = none →
    ∃ t d', exec (.dLit k b) s = .next t ∧ t.decs[k]? = some d' ∧ d'.phase = .run ∧ d'.pend = false ∧ d'.err = d.err ∧
      d'.pos = d.pos + 1 ∧ d'.out = d.out ++ [b]

/-- R142: D.MARK sets `pend` and appends nothing. -/
def Obligations.DMarkRemembersTheMarker : Prop :=
  ∀ (s : State) (k : Nat) (d : Decoder), s.decs[k]? = some d → d.phase = .run → d.pend = false →
    Params.excess s.cfg (d.pos + 1) d.out.length = none →
    ∃ t d', exec (.dMark k) s = .next t ∧ t.decs[k]? = some d' ∧ d'.phase = .run ∧ d'.pend = true ∧ d'.err = d.err ∧
      d'.pos = d.pos + 1 ∧ d'.out = d.out

/-- R143, R147: D.LEN L appends L zero bytes for every L, nothing for L = 0, and clears `pend`. -/
def Obligations.DLenAppendsThatManyZeros : Prop :=
  ∀ (s : State) (k : Nat) (l : Byte) (d : Decoder), s.decs[k]? = some d → d.phase = .run → d.pend = true →
    Params.excess s.cfg (d.pos + 1) (d.out.length + l.toNat) = none →
    ∃ t d', exec (.dLen k l) s = .next t ∧ t.decs[k]? = some d' ∧ d'.phase = .run ∧ d'.pend = false ∧ d'.err = d.err ∧
      d'.pos = d.pos + 1 ∧ d'.out = d.out ++ List.replicate l.toNat 0x00#8

/-- R145: D.END with no marker pending succeeds with the buffer as it stands. -/
def Obligations.DEndWithNoMarkerPendingSucceeds : Prop :=
  ∀ (s : State) (k : Nat) (d : Decoder), s.decs[k]? = some d → d.phase = .run → d.pend = false →
    Params.excess s.cfg d.pos d.out.length = none →
    ∃ t d', exec (.dEndOk k) s = .next t ∧ t.decs[k]? = some d' ∧ d'.phase = .done ∧ d'.pend = false ∧
      d'.err = .noError ∧ d'.pos = d.pos ∧ d'.out = d.out ∧ d'.result = some (.ok d.out)

/-- R146, R217: D.END with a marker pending takes the TruncatedMarker entry: the buffer is discarded, `err` is 1, the phase is
FAIL, the cursor keeps its value, nothing is saved anywhere else, and the unit consumes no further token. -/
def Obligations.DEndWithAMarkerPendingFails : Prop :=
  ∀ (s : State) (k : Nat) (d : Decoder), s.decs[k]? = some d → d.phase = .run → d.pend = true →
    Params.excess s.cfg d.pos 0 = none →
    ∃ t d', exec (.dEndTrunc k) s = .next t ∧ t.decs[k]? = some d' ∧ d'.phase = .fail ∧ d'.pend = false ∧
      d'.err = .truncatedMarker ∧ d'.err.code = 1#2 ∧ d'.pos = d.pos ∧ d'.out = [] ∧
      d'.result = some (.err .truncatedMarker) ∧
      t.cfg = s.cfg ∧ t.encs = s.encs ∧ t.inputs = s.inputs ∧ t.encWaiting = s.encWaiting ∧ t.decWaiting = s.decWaiting ∧
      (∀ j, j ≠ k → t.decs[j]? = s.decs[j]?) ∧
      (∀ ready, (d'.outputs ready).inReady = false)

/-! ### The stream symbols -/

/-- LIT b is executed by D.LIT b (R94): the byte is appended verbatim. -/
def Obligations.LitSymbolAppendsTheByte : Prop :=
  ∀ (s : State) (k : Nat) (b : Byte) (d : Decoder), s.decs[k]? = some d → d.phase = .run → d.pend = false →
    b ≠ 0x00#8 → Params.excess s.cfg (d.pos + 1) (d.out.length + 1) = none →
    exec (.lit k b) s = exec (.dLit k b) s ∧
    ∃ t d', exec (.lit k b) s = .next t ∧ t.decs[k]? = some d' ∧ d'.phase = .run ∧ d'.pend = false ∧
      d'.pos = d.pos + 1 ∧ d'.out = d.out ++ [b]

/-- R144: RUN L is D.MARK then D.LEN L; together they append L zero bytes and advance the cursor by 2. R147: RUN.Z is the
same with L = 0, appends nothing and raises nothing. -/
def Obligations.RunSymbolIsMarkThenLength : Prop :=
  (∀ (s : State) (k : Nat) (l : Byte) (d : Decoder), s.decs[k]? = some d → d.phase = .run → d.pend = false →
    Params.excess s.cfg (d.pos + 2) (d.out.length + l.toNat) = none →
    ∃ m t d', exec (.dMark k) s = .next m ∧ exec (.dLen k l) m = .next t ∧ exec (.run k l) s = .next t ∧
      t.decs[k]? = some d' ∧ d'.phase = .run ∧ d'.pend = false ∧ d'.err = d.err ∧ d'.pos = d.pos + 2 ∧
      d'.out = d.out ++ List.replicate l.toNat 0x00#8) ∧
  (∀ (s : State) (k : Nat) (d : Decoder), s.decs[k]? = some d → d.phase = .run → d.pend = false →
    Params.excess s.cfg (d.pos + 2) d.out.length = none →
    ∃ m t d', exec (.dMark k) s = .next m ∧ exec (.dLen k 0x00#8) m = .next t ∧ exec (.runZ k) s = .next t ∧
      t.decs[k]? = some d' ∧ d'.phase = .run ∧ d'.pend = false ∧ d'.err = d.err ∧ d'.pos = d.pos + 2 ∧
      d'.out = d.out)

/-- TRUNC, a bare marker byte that ends the sequence: D.MARK, then D.END with the marker pending (R87, R146). -/
def Obligations.TruncSymbolEndsInFail : Prop :=
  ∀ (s : State) (k : Nat) (d : Decoder), s.decs[k]? = some d → d.phase = .run → d.pend = false →
    Params.excess s.cfg (d.pos + 1) d.out.length = none →
    ∃ m t d', exec (.dMark k) s = .next m ∧ exec (.dEndTrunc k) m = .next t ∧ exec (.trunc k) s = .next t ∧
      t.decs[k]? = some d' ∧ d'.phase = .fail ∧ d'.pend = false ∧ d'.err = .truncatedMarker ∧ d'.pos = d.pos + 1 ∧
      d'.out = [] ∧ d'.result = some (.err .truncatedMarker)

/-! ### Where operations wait or are refused -/

/-- R172: outside RUN a unit consumes no token: an edge that only offers a token changes no register, the token waits, and
`in_ready` is 0. R172 says that the model has no step for a token consumed there; that `exec` called on a token operation or
stream symbol outside RUN answers the state unchanged is the model's choice (log 6), and that a sequence played to the decoder
waits where it is is the model's (log 10). -/
def Obligations.TokensWaitOutsideRun : Prop :=
  (∀ (s : State) (k : Nat) (e : Encoder), s.encs[k]? = some e → e.phase ≠ .run →
    exec (.eZero k) s = .next s ∧ (∀ b, exec (.eNz k b) s = .next s) ∧ exec (.eEnd k) s = .next s) ∧
  (∀ (s : State) (k : Nat) (d : Decoder), s.decs[k]? = some d → d.phase ≠ .run →
    (∀ b, exec (.dLit k b) s = .next s) ∧ exec (.dMark k) s = .next s ∧ (∀ l, exec (.dLen k l) s = .next s) ∧
    exec (.dEndOk k) s = .next s ∧ exec (.dEndTrunc k) s = .next s ∧ (∀ b, exec (.lit k b) s = .next s) ∧
    (∀ l, exec (.run k l) s = .next s) ∧ exec (.runZ k) s = .next s ∧ exec (.trunc k) s = .next s) ∧
  (∀ (s : State) (u : UnitId) (c : Ctx) (w : Wires) (rest : List Input), s.inputs = .edge u w :: rest →
    s.ctx u = some c → c.phase ≠ .run → w.rst = false → w.start = false → w.outReady = false →
    keepsOffer (s.waiting u) (.edge u w) = true → step s = .next (s.advance u (Input.edge u w).offer rest)) ∧
  (∀ (s : State) (k : Nat) (c : Ctx) (bs : Bytes) (rest : List Input), s.inputs = .stream k bs :: rest →
    s.ctx (.dec k) = some c → c.phase ≠ .run → keepsOffer (s.waiting (.dec k)) (.stream k bs) = true → step s = .next s) ∧
  (∀ (e : Encoder) (ready : Bool), e.phase ≠ .run → (e.outputs ready).inReady = false) ∧
  (∀ (d : Decoder) (ready : Bool), d.phase ≠ .run → (d.outputs ready).inReady = false)

/-- A step never meets an operation that the state does not select, and never one without a meaning. -/
def Obligations.StepNeverMeetsAnUnselectedOperation : Prop :=
  ∀ s : State, step s ≠ .refused .notSelected ∧ ∀ m, step s ≠ .refused (.notModelled m)

/-- R58: with unbounded capacities no step of a host that keeps its offers is refused but for the length bound `LEN_BITS`, and
a step faults only for an input presented to a unit that does not exist. -/
def Obligations.UnboundedBlockGoesOn : Prop :=
  ∀ s : State, s.cfg.inCap = none → s.cfg.outCap = none →
    (∀ inp rest, s.inputs = inp :: rest → (s.ctx inp.unit).isSome = true ∧ keepsOffer (s.waiting inp.unit) inp = true) →
    (∃ t, step s = .next t) ∨ step s = .refused .lenBitsExceeded

/-- R58: an operation that would exceed a parameter of R9 is refused, under the name of the first of `LEN_BITS`, `IN_CAP`
and `OUT_CAP` it exceeds; RUN, RUN.Z and TRUNC already where their marker byte would. That the refusal comes at the first
exceeding operation, and the order of the names, are the model's choice (log 5). -/
def Obligations.OverCapacityIsRefused : Prop :=
  (∀ (s : State) (k : Nat) (e : Encoder) (r : Refusal), s.encs[k]? = some e → e.phase = .run →
    (Params.excess s.cfg (e.pos + 1) (e.out.length + (if e.runLen = 0xff#8 then 2 else 0)) = some r →
      exec (.eZero k) s = .refused r) ∧
    (∀ b : Byte, b ≠ 0x00#8 → Params.excess s.cfg (e.pos + 1) (e.out.length + (if e.runLen = 0x00#8 then 1 else 3)) =
      some r → exec (.eNz k b) s = .refused r) ∧
    (Params.excess s.cfg e.pos (e.out.length + (if e.runLen = 0x00#8 then 0 else 2)) = some r →
      exec (.eEnd k) s = .refused r)) ∧
  (∀ (s : State) (k : Nat) (d : Decoder) (r : Refusal), s.decs[k]? = some d → d.phase = .run → d.pend = false →
    (∀ b : Byte, b ≠ 0x00#8 → Params.excess s.cfg (d.pos + 1) (d.out.length + 1) = some r →
      exec (.dLit k b) s = .refused r ∧ exec (.lit k b) s = .refused r) ∧
    (Params.excess s.cfg (d.pos + 1) d.out.length = some r →
      exec (.dMark k) s = .refused r ∧ (∀ l, exec (.run k l) s = .refused r) ∧ exec (.runZ k) s = .refused r ∧
      exec (.trunc k) s = .refused r) ∧
    (∀ l : Byte, Params.excess s.cfg (d.pos + 1) d.out.length = none →
      Params.excess s.cfg (d.pos + 2) (d.out.length + l.toNat) = some r →
      exec (.run k l) s = .refused r ∧ (l = 0x00#8 → exec (.runZ k) s = .refused r)) ∧
    (Params.excess s.cfg d.pos d.out.length = some r → exec (.dEndOk k) s = .refused r)) ∧
  (∀ (s : State) (k : Nat) (d : Decoder) (r : Refusal), s.decs[k]? = some d → d.phase = .run → d.pend = true →
    (∀ l : Byte, Params.excess s.cfg (d.pos + 1) (d.out.length + l.toNat) = some r → exec (.dLen k l) s = .refused r) ∧
    (Params.excess s.cfg d.pos 0 = some r → exec (.dEndTrunc k) s = .refused r)) ∧
  (∀ (p : Params) (pos len : Nat),
    (Params.excess p pos len = none ↔
      pos < 2 ^ p.lenBits ∧ (∀ c, p.inCap = some c → pos ≤ c) ∧ (∀ c, p.outCap = some c → len ≤ c)) ∧
    (Params.excess p pos len = some .lenBitsExceeded ↔ 2 ^ p.lenBits ≤ pos) ∧
    (Params.excess p pos len = some .inCapExceeded ↔ pos < 2 ^ p.lenBits ∧ ∃ c, p.inCap = some c ∧ c < pos) ∧
    (Params.excess p pos len = some .outCapExceeded ↔
      pos < 2 ^ p.lenBits ∧ (∀ c, p.inCap = some c → pos ≤ c) ∧ ∃ c, p.outCap = some c ∧ c < len))

/-! ### Frames -/

/-- No operation touches another unit, the parameters, the tokens that wait or the inputs still to come (R20, R176). -/
def Obligations.OnlyTheOperationsUnitChanges : Prop :=
  ∀ (i : Instr) (s t : State), exec i s = .next t →
    t.cfg = s.cfg ∧ t.inputs = s.inputs ∧ t.encWaiting = s.encWaiting ∧ t.decWaiting = s.decWaiting ∧
    t.encs.length = s.encs.length ∧ t.decs.length = s.decs.length ∧
    (∀ k, i.unit ≠ .enc k → t.encs[k]? = s.encs[k]?) ∧ (∀ k, i.unit ≠ .dec k → t.decs[k]? = s.decs[k]?)

/-- The registers each encoder operation leaves unchanged when it is performed in RUN (R29: no flag is written other than as
the rule says), and the drain's start: the read index is 0 at the entry to DONE (R179). `inp`, `rd`, `rdEnd` are the model's record of the consumed input and of the drain (log 4, log 9). -/
def Obligations.EncoderRegisterFrame : Prop :=
  ∀ (s t : State) (k : Nat) (e e' : Encoder), s.encs[k]? = some e → t.encs[k]? = some e' → e.phase = .run →
    (exec (.eZero k) s = .next t → e'.phase = .run ∧ e'.inp = e.inp ++ [0x00#8] ∧ e'.rd = e.rd ∧ e'.rdEnd = e.rdEnd) ∧
    (∀ b, exec (.eNz k b) s = .next t →
      e'.phase = .run ∧ e'.inp = e.inp ++ [b] ∧ e'.rd = e.rd ∧ e'.rdEnd = e.rdEnd) ∧
    (exec (.eEnd k) s = .next t → e'.pos = e.pos ∧ e'.inp = e.inp ∧ e'.rd = 0 ∧ e'.rdEnd = false)

/-- The registers each decoder operation leaves unchanged when it is performed in RUN (R29), and the drain's start: the read
index is 0 at the entry to DONE (R179), and in the model at the entry to FAIL too (log 9). `inp`, `rd`, `rdEnd` are the
model's record of the consumed input and of the drain (log 4, log 9). -/
def Obligations.DecoderRegisterFrame : Prop :=
  ∀ (s t : State) (k : Nat) (d d' : Decoder), s.decs[k]? = some d → t.decs[k]? = some d' → d.phase = .run →
    (∀ b, exec (.dLit k b) s = .next t ∨ exec (.lit k b) s = .next t →
      d'.phase = .run ∧ d'.pend = d.pend ∧ d'.err = d.err ∧ d'.inp = d.inp ++ [b] ∧ d'.rd = d.rd ∧ d'.rdEnd = d.rdEnd) ∧
    (exec (.dMark k) s = .next t →
      d'.phase = .run ∧ d'.out = d.out ∧ d'.err = d.err ∧ d'.inp = d.inp ++ [0x00#8] ∧ d'.rd = d.rd ∧
      d'.rdEnd = d.rdEnd) ∧
    (∀ l, exec (.dLen k l) s = .next t →
      d'.phase = .run ∧ d'.err = d.err ∧ d'.inp = d.inp ++ [l] ∧ d'.rd = d.rd ∧ d'.rdEnd = d.rdEnd) ∧
    (∀ l, exec (.run k l) s = .next t →
      d'.phase = .run ∧ d'.pend = d.pend ∧ d'.err = d.err ∧ d'.inp = d.inp ++ [0x00#8, l] ∧ d'.rd = d.rd ∧
      d'.rdEnd = d.rdEnd) ∧
    (exec (.runZ k) s = .next t →
      d'.phase = .run ∧ d'.pend = d.pend ∧ d'.err = d.err ∧ d'.out = d.out ∧ d'.inp = d.inp ++ [0x00#8, 0x00#8] ∧
      d'.rd = d.rd ∧ d'.rdEnd = d.rdEnd) ∧
    (exec (.dEndOk k) s = .next t → d'.pend = d.pend ∧ d'.pos = d.pos ∧ d'.out = d.out ∧ d'.inp = d.inp ∧ d'.rd = 0 ∧
      d'.rdEnd = false) ∧
    (exec (.dEndTrunc k) s = .next t → d'.pos = d.pos ∧ d'.inp = d.inp ∧ d'.rd = 0 ∧ d'.rdEnd = false) ∧
    (exec (.trunc k) s = .next t → d'.inp = d.inp ++ [0x00#8] ∧ d'.rd = 0 ∧ d'.rdEnd = false)

/-- R52: an output buffer is only appended to, at its end, by at most 3 bytes in the encoder and at most 255 in the decoder;
every byte already there reads as before. The only removals are the discard at the decoder's failure and the clearing at
START and reset. -/
def Obligations.OutputBytesAreOnlyAppended : Prop :=
  (∀ (i : Instr) (s t : State) (k : Nat) (e e' : Encoder), exec i s = .next t → s.encs[k]? = some e →
    t.encs[k]? = some e' →
    ((i = .eStart k ∧ e.phase ≠ .run) ∨ i = .reset (.enc k) → e'.out = []) ∧
    (i ≠ .eStart k → i ≠ .reset (.enc k) →
      (∃ a, e'.out = e.out ++ a ∧ a.length ≤ 3) ∧ ∀ j, j < e.out.length → e'.out[j]? = e.out[j]?)) ∧
  (∀ (i : Instr) (s t : State) (k : Nat) (d d' : Decoder), exec i s = .next t → s.decs[k]? = some d →
    t.decs[k]? = some d' →
    (((i = .dEndTrunc k ∨ i = .trunc k) ∧ d.phase = .run) ∨ (i = .dStart k ∧ d.phase ≠ .run) ∨ i = .reset (.dec k) →
      d'.out = []) ∧
    (i ≠ .dStart k → i ≠ .reset (.dec k) → i ≠ .dEndTrunc k → i ≠ .trunc k →
      (∃ a, d'.out = d.out ++ a ∧ a.length ≤ 255) ∧ ∀ j, j < d.out.length → d'.out[j]? = d.out[j]?))

/-- R23: the cursor advances by exactly 1 with every consumed byte, and by 2 over a whole marker; `End` does not change it. -/
def Obligations.CursorAdvancesByOnePerByte : Prop :=
  (∀ (s t : State) (k : Nat) (e e' : Encoder), s.encs[k]? = some e → t.encs[k]? = some e' → e.phase = .run →
    (exec (.eZero k) s = .next t ∨ (∃ b, exec (.eNz k b) s = .next t) → e'.pos = e.pos + 1) ∧
    (exec (.eEnd k) s = .next t → e'.pos = e.pos)) ∧
  (∀ (s t : State) (k : Nat) (d d' : Decoder), s.decs[k]? = some d → t.decs[k]? = some d' → d.phase = .run →
    ((∃ b, exec (.dLit k b) s = .next t) ∨ (∃ b, exec (.lit k b) s = .next t) ∨ exec (.dMark k) s = .next t ∨
      (∃ l, exec (.dLen k l) s = .next t) ∨ exec (.trunc k) s = .next t → d'.pos = d.pos + 1) ∧
    ((∃ l, exec (.run k l) s = .next t) ∨ exec (.runZ k) s = .next t → d'.pos = d.pos + 2) ∧
    (exec (.dEndOk k) s = .next t ∨ exec (.dEndTrunc k) s = .next t → d'.pos = d.pos))

/-! ### Rules of the whole machine -/

/-- R211, R213: a decoder enters FAIL only when `End` arrives with a marker pending (TRUNC being the marker and `End` in one
step), and an encoder never enters it. -/
def Obligations.FailIsEnteredOnlyByAPendingMarkerAtEnd : Prop :=
  (∀ (i : Instr) (s t : State) (k : Nat) (d d' : Decoder), exec i s = .next t → s.decs[k]? = some d →
    t.decs[k]? = some d' → d.phase ≠ .fail → d'.phase = .fail →
    d.phase = .run ∧ ((i = .dEndTrunc k ∧ d.pend = true) ∨ (i = .trunc k ∧ d.pend = false))) ∧
  (∀ (i : Instr) (s t : State) (k : Nat) (e e' : Encoder), exec i s = .next t → s.encs[k]? = some e →
    t.encs[k]? = some e' → e'.phase = .fail → e.phase = .fail)

/-- The transitions of R170 are the only ones an operation makes, each on its own event, and the only ones a step makes; the
row into FAIL is the decoder's alone. -/
def Obligations.PhasesMoveOnlyAsTheTransitionTable : Prop :=
  (∀ (i : Instr) (s t : State) (k : Nat) (e e' : Encoder), exec i s = .next t → s.encs[k]? = some e →
    t.encs[k]? = some e' →
    e'.phase = e.phase ∨ (i = .eStart k ∧ e.phase ≠ .run ∧ e'.phase = .run) ∨
    (i = .eEnd k ∧ e.phase = .run ∧ e'.phase = .done) ∨ (i = .reset (.enc k) ∧ e'.phase = .idle)) ∧
  (∀ (i : Instr) (s t : State) (k : Nat) (d d' : Decoder), exec i s = .next t → s.decs[k]? = some d →
    t.decs[k]? = some d' →
    d'.phase = d.phase ∨ (i = .dStart k ∧ d.phase ≠ .run ∧ d'.phase = .run) ∨
    (i = .dEndOk k ∧ d.phase = .run ∧ d.pend = false ∧ d'.phase = .done) ∨
    (i = .dEndTrunc k ∧ d.phase = .run ∧ d.pend = true ∧ d'.phase = .fail) ∨
    (i = .trunc k ∧ d.phase = .run ∧ d.pend = false ∧ d'.phase = .fail) ∨
    (i = .reset (.dec k) ∧ d'.phase = .idle)) ∧
  (∀ s t : State, step s = .next t →
    (∀ (k : Nat) (e e' : Encoder), s.encs[k]? = some e → t.encs[k]? = some e' →
      phaseMove e.phase e'.phase = true ∧ (e'.phase = .fail → e.phase = .fail)) ∧
    (∀ (k : Nat) (d d' : Decoder), s.decs[k]? = some d → t.decs[k]? = some d' → phaseMove d.phase d'.phase = true))

/-- R35 holds right after reset, whatever the parameters. -/
def Obligations.InvariantHoldsAtReset : Prop := ∀ p : Params, (State.resetWith p).Inv

/-- R35 is kept by every step from every state that meets it. The clauses on `inp`, `rd`, `rdEnd` and the places of the
waiting tokens are the model's (log 4, log 9, log 19). -/
def Obligations.StepKeepsTheInvariant : Prop := ∀ s t : State, s.Inv → step s = .next t → t.Inv

/-- The registers agree with level T right after reset. -/
def Obligations.AgreementHoldsAtReset : Prop := ∀ p : Params, (State.resetWith p).Agrees

/-- R10: level S refines level T. From every state whose registers agree with `encode` and `decode` of the input consumed so
far, every step leads to such a state; so DONE holds `encode` of the input, or what `decode` gives, and FAIL its error. -/
def Obligations.StepKeepsAgreementWithTheFunctions : Prop :=
  ∀ s t : State, s.Agrees → step s = .next t → t.Agrees

/-- R11, R59: steps of different units commute: if both are possible, either order reaches the same state. Said of the
operations; of the steps over any two inputs of different units, an edge of the drain, a token that is left waiting and a
symbol of a sequence among them, where what is left of each input is compared apart; and of two edges that stand in either order
before the same further inputs (log 7). -/
def Obligations.StepsOfDifferentUnitsCommute : Prop :=
  (∀ (i j : Instr) (s s₁ s₂ : State), i.unit ≠ j.unit → exec i s = .next s₁ → exec j s = .next s₂ →
    ∃ t, exec j s₁ = .next t ∧ exec i s₂ = .next t) ∧
  (∀ (x y : Input) (s s₁ s₂ : State), x.unit ≠ y.unit → step (s.setInputs [x]) = .next s₁ →
    step (s.setInputs [y]) = .next s₂ →
    ∃ t : State, step (s₁.setInputs [y]) = .next (t.setInputs s₂.inputs) ∧
      step (s₂.setInputs [x]) = .next (t.setInputs s₁.inputs)) ∧
  (∀ (u v : UnitId) (w w' : Wires) (rest : List Input) (s s₁ s₂ : State), u ≠ v →
    step (s.setInputs (.edge u w :: .edge v w' :: rest)) = .next s₁ →
    step (s.setInputs (.edge v w' :: .edge u w :: rest)) = .next s₂ →
    ∃ t, step s₁ = .next t ∧ step s₂ = .next t ∧ t.inputs = rest)

/-- R176, R242: what an operation does to its unit depends on nothing but the unit's own registers and the parameters; the
other units and the rest of the state can not be felt. -/
def Obligations.OperationsFeelOnlyTheirOwnUnit : Prop :=
  ∀ (i : Instr) (s s' t : State), s.cfg = s'.cfg → exec i s = .next t →
    (∀ k, i.unit = .enc k → s.encs[k]? = s'.encs[k]? → ∃ t', exec i s' = .next t' ∧ t'.encs[k]? = t.encs[k]?) ∧
    (∀ k, i.unit = .dec k → s.decs[k]? = s'.decs[k]? → ∃ t', exec i s' = .next t' ∧ t'.decs[k]? = t.decs[k]?)

/-! ### Status, result, wires -/

/-- R30: the STATUS view: `phase` in bits 1:0, `err` in bits 3:2 (hardwired 0 in the encoder), bits 7:4 hardwired 0; with the
codes of R24 and R26; it is what the `status` output wires show, at every edge. -/
def Obligations.StatusShowsPhaseAndError : Prop :=
  (∀ e : Encoder, e.status.extractLsb' 0 2 = e.phase.code ∧ e.status.extractLsb' 2 6 = 0#6) ∧
  (∀ d : Decoder, d.status.extractLsb' 0 2 = d.phase.code ∧ d.status.extractLsb' 2 2 = d.err.code ∧
    d.status.extractLsb' 4 4 = 0#4) ∧
  (Phase.idle.code = 0#2 ∧ Phase.run.code = 1#2 ∧ Phase.done.code = 2#2 ∧ Phase.fail.code = 3#2) ∧
  (ErrCode.noError.code = 0#2 ∧ ErrCode.truncatedMarker.code = 1#2 ∧ ErrCode.malformedHex.code = 2#2) ∧
  (∀ e : Encoder, e.Inv → (e.status.extractLsb' 0 2).toNat ≤ 2) ∧
  (∀ d : Decoder, d.Inv → (d.status.extractLsb' 2 2).toNat ≤ 1) ∧
  (Encoder.reset.status = 0x00#8 ∧ Decoder.reset.status = 0x00#8) ∧
  (∀ (e : Encoder) (ready : Bool), (e.outputs ready).status = e.status) ∧
  (∀ (d : Decoder) (ready : Bool), (d.outputs ready).status = d.status)

/-- R174: there is a result in DONE and FAIL only, `Ok(U.out)` and `Err(TruncatedMarker)`; it stays unchanged until the next
START or reset, over every operation and every step; outside DONE no port shows a byte of `out`. -/
def Obligations.ResultIsReleasedWholeAndStays : Prop :=
  (∀ e : Encoder, (e.phase.over = false → e.result = none) ∧ (e.phase = .done → e.result = some (.ok e.out))) ∧
  (∀ d : Decoder, (d.phase.over = false → d.result = none) ∧ (d.phase = .done → d.result = some (.ok d.out)) ∧
    (d.phase = .fail → d.result = some (.err .truncatedMarker))) ∧
  (∀ s t : State, step s = .next t →
    (∀ (k : Nat) (e e' : Encoder), s.encs[k]? = some e → t.encs[k]? = some e' → e.phase.over = true → e'.phase.over = true →
      e'.result = e.result) ∧
    (∀ (k : Nat) (d d' : Decoder), s.decs[k]? = some d → t.decs[k]? = some d' → d.phase.over = true → d'.phase.over = true →
      d'.result = d.result ∧ d'.status = d.status)) ∧
  (∀ (i : Instr) (s t : State) (k : Nat) (e e' : Encoder), exec i s = .next t → s.encs[k]? = some e →
    t.encs[k]? = some e' → e.phase.over = true → i ≠ .eStart k → i ≠ .reset (.enc k) → e'.result = e.result) ∧
  (∀ (i : Instr) (s t : State) (k : Nat) (d d' : Decoder), exec i s = .next t → s.decs[k]? = some d →
    t.decs[k]? = some d' → d.phase.over = true → i ≠ .dStart k → i ≠ .reset (.dec k) → d'.result = d.result) ∧
  (∀ (e : Encoder) (ready : Bool), e.phase ≠ .done → (e.outputs ready).outData = none) ∧
  (∀ (d : Decoder) (ready : Bool), d.phase ≠ .done → (d.outputs ready).outData = none)

/-- R179: in DONE the unit offers the bytes of `out` in index order and then one `End`, at every edge (`out_valid = 1`), and once
that `End` is taken nothing more; a transfer, at an edge without reset and START where `out_valid` and `out_ready` are 1,
advances the drain and changes no other register; at every other such edge no register changes; outside DONE nothing is
offered. That the offer stands at every edge of DONE and that "one `End`" means nothing after it are the model's readings of
R179 (log 9). -/
def Obligations.DrainOffersTheResultInOrder : Prop :=
  (∀ (e : Encoder) (ready : Bool),
    (e.phase ≠ .done ∨ e.rdEnd = true → (e.outputs ready).outValid = false) ∧
    (e.phase = .done → e.rdEnd = false → (e.outputs ready).outValid = true ∧ (e.outputs ready).outData = e.out[e.rd]? ∧
      ((e.outputs ready).outEnd = true ↔ e.out.length ≤ e.rd))) ∧
  (∀ (d : Decoder) (ready : Bool),
    (d.phase ≠ .done ∨ d.rdEnd = true → (d.outputs ready).outValid = false) ∧
    (d.phase = .done → d.rdEnd = false → (d.outputs ready).outValid = true ∧ (d.outputs ready).outData = d.out[d.rd]? ∧
      ((d.outputs ready).outEnd = true ↔ d.out.length ≤ d.rd))) ∧
  (∀ (s : State) (k : Nat) (e : Encoder) (w : Wires) (rest : List Input), s.inputs = .edge (.enc k) w :: rest →
    s.encs[k]? = some e → e.phase = .done → w.rst = false → w.start = false →
    keepsOffer (s.waiting (.enc k)) (.edge (.enc k) w) = true →
    (e.rdEnd = false → w.outReady = true →
      step s = .next ((s.advance (.enc k) (Input.edge (.enc k) w).offer rest).setEnc k
        (if e.rd < e.out.length then { e with rd := e.rd + 1 } else { e with rdEnd := true }))) ∧
    (e.rdEnd = true ∨ w.outReady = false →
      step s = .next (s.advance (.enc k) (Input.edge (.enc k) w).offer rest))) ∧
  (∀ (s : State) (k : Nat) (d : Decoder) (w : Wires) (rest : List Input), s.inputs = .edge (.dec k) w :: rest →
    s.decs[k]? = some d → d.phase = .done → w.rst = false → w.start = false →
    keepsOffer (s.waiting (.dec k)) (.edge (.dec k) w) = true →
    (d.rdEnd = false → w.outReady = true →
      step s = .next ((s.advance (.dec k) (Input.edge (.dec k) w).offer rest).setDec k
        (if d.rd < d.out.length then { d with rd := d.rd + 1 } else { d with rdEnd := true }))) ∧
    (d.rdEnd = true ∨ w.outReady = false →
      step s = .next (s.advance (.dec k) (Input.edge (.dec k) w).offer rest)))

/-- R178: in RUN a token is taken exactly at the edges with `in_valid = 1` and `in_ready = 1`, and `in_ready` is 1 in RUN
wherever the unit is willing; a token not taken waits; at an edge where START is accepted no token is taken. -/
def Obligations.TokensAreTakenOnlyWhenReady : Prop :=
  (∀ (e : Encoder) (ready : Bool), (e.outputs ready).inReady = true ↔ e.phase = .run ∧ ready = true) ∧
  (∀ (d : Decoder) (ready : Bool), (d.outputs ready).inReady = true ↔ d.phase = .run ∧ ready = true) ∧
  (∀ (s : State) (u : UnitId) (c : Ctx) (w : Wires) (rest : List Input), s.inputs = .edge u w :: rest →
    s.ctx u = some c → c.phase = .run → w.rst = false → keepsOffer (s.waiting u) (.edge u w) = true →
    (w.inValid = true → w.ready = true →
      step s = exec (selectToken u c.pend (if w.inEnd then .endOfInput else .byte w.inData)) (s.advance u none rest)) ∧
    (w.inValid = false ∨ w.ready = false → step s = .next (s.advance u (Input.edge u w).offer rest))) ∧
  (∀ (s : State) (k : Nat) (e : Encoder) (w : Wires) (rest : List Input), s.inputs = .edge (.enc k) w :: rest →
    s.encs[k]? = some e → e.phase ≠ .run → w.rst = false → w.start = true →
    keepsOffer (s.waiting (.enc k)) (.edge (.enc k) w) = true →
    step s = exec (.eStart k) (s.advance (.enc k) (Input.edge (.enc k) w).offer rest)) ∧
  (∀ (s : State) (k : Nat) (d : Decoder) (w : Wires) (rest : List Input), s.inputs = .edge (.dec k) w :: rest →
    s.decs[k]? = some d → d.phase ≠ .run → w.rst = false → w.start = true →
    keepsOffer (s.waiting (.dec k)) (.edge (.dec k) w) = true →
    step s = exec (.dStart k) (s.advance (.dec k) (Input.edge (.dec k) w).offer rest))

/-! ### The functions of level T -/

/-- R121, R151: `decode(encode(b)) = Ok(b)` for every plain sequence. -/
def Obligations.DecodeOfEncodeIsTheInput : Prop := ∀ b : Bytes, Codec.decode (Codec.encode b) = .ok b

/-- R120: the encoder's output is always canonical, hence well-formed, hence accepted. -/
def Obligations.EncodeIsAlwaysCanonical : Prop :=
  ∀ b : Bytes, Codec.canonical (Codec.encode b) = true ∧ Codec.wellFormed (Codec.encode b) = true ∧
    Codec.accepted (Codec.encode b) = true

/-- R90, R152: the canonical sequences are exactly the outputs of the encoder, and re-encoding a decoded sequence gives it
back exactly if it is canonical. -/
def Obligations.CanonicalExactlyTheEncoderOutputs : Prop :=
  (∀ c : Bytes, Codec.canonical c = true ↔ ∃ b, c = Codec.encode b) ∧
  (∀ c b : Bytes, c = Codec.encode b → Codec.decode c = .ok b) ∧
  (∀ c b : Bytes, Codec.decode c = .ok b → (Codec.encode b = c ↔ Codec.canonical c = true))

/-- R116: the closed form of `encode`, and the number of markers of a run of `n` zeros. -/
def Obligations.EncodeHasTheClosedForm : Prop :=
  (∀ b : Bytes, Codec.encode b = Codec.closedForm b) ∧
  (∀ n : Nat, Codec.encode (zeros n) = Codec.markers n ∧ (Codec.markers n).length = 2 * Codec.ceil255 n)

/-- R119: the output length of `encode`, at most twice the input's, with equality only for `[]` and `[0x00]`. -/
def Obligations.EncodeLengthFormula : Prop :=
  ∀ b : Bytes,
    (Codec.encode b).length = Codec.nonZeros b + 2 * ((Codec.runLengths b).map Codec.ceil255).sum ∧
    (Codec.encode b).length ≤ 2 * b.length ∧
    ((Codec.encode b).length = 2 * b.length ↔ b = [] ∨ b = [0x00#8])

/-- R153: the output length of `decode` from the parse, its bound, where the bound is reached, and that it can be 0. -/
def Obligations.DecodeLengthFormulaAndBound : Prop :=
  (∀ c o : Bytes, Codec.decode c = .ok o →
    c.length = (Codec.parse c).1.countP (fun y => match y with | .lit _ => true | .run _ => false) +
      2 * (Codec.parse c).1.countP (fun y => match y with | .lit _ => false | .run _ => true) ∧
    o.length = ((Codec.parse c).1.map (fun y => match y with | .lit _ => 1 | .run l => l.toNat)).sum ∧
    o.length ≤ c.length + 253 * (c.length / 2)) ∧
  (∀ (m : Nat) (b : Byte), b ≠ 0x00#8 →
    Codec.decode (List.replicate m [0x00#8, 0xff#8]).flatten = .ok (zeros (2 * m + 253 * m)) ∧
    Codec.decode ((List.replicate m [0x00#8, 0xff#8]).flatten ++ [b]) = .ok (zeros (2 * m + 253 * m) ++ [b]) ∧
    Codec.decode (List.replicate m [0x00#8, 0x00#8]).flatten = .ok [])

/-- R118, R150: a sequence with no 0x00 byte is returned unchanged by `encode` and by `decode`. -/
def Obligations.ZeroFreeSequencesAreUnchanged : Prop :=
  ∀ b : Bytes, (∀ x ∈ b, x ≠ 0x00#8) → Codec.encode b = b ∧ Codec.decode b = .ok b

/-- R89: `decode` returns `Ok` on exactly the accepted sequences, and then the plain bytes of the parsed symbols; canonical
implies well-formed implies accepted, each strictly. -/
def Obligations.DecodeAcceptsExactlyTheAccepted : Prop :=
  (∀ c : Bytes, Codec.accepted c = true → Codec.decode c = .ok ((Codec.parse c).1.flatMap Codec.Sym.plain)) ∧
  (∀ c : Bytes, Codec.accepted c = false → Codec.decode c = .err .truncatedMarker) ∧
  (∀ c : Bytes, (Codec.canonical c = true → Codec.wellFormed c = true) ∧
    (Codec.wellFormed c = true → Codec.accepted c = true)) ∧
  (Codec.wellFormed [0x00#8, 0x02#8, 0x00#8, 0x03#8] = true ∧ Codec.canonical [0x00#8, 0x02#8, 0x00#8, 0x03#8] = false) ∧
  (Codec.accepted [0x00#8, 0x00#8] = true ∧ Codec.wellFormed [0x00#8, 0x00#8] = false) ∧
  Codec.accepted [0x00#8] = false

/-- The functions on concatenations (95_test_vectors.md Q12, Q13): decoding goes on after an accepted sequence, and encoding
may be cut where no run of zeros is cut. -/
def Obligations.FunctionsOnConcatenations : Prop :=
  (∀ c₁ c₂ p₁ : Bytes, Codec.decode c₁ = .ok p₁ →
    (∀ p₂, Codec.decode c₂ = .ok p₂ → Codec.decode (c₁ ++ c₂) = .ok (p₁ ++ p₂)) ∧
    (∀ r, Codec.decode c₂ = .err r → Codec.decode (c₁ ++ c₂) = .err r)) ∧
  (∀ b₁ b₂ : Bytes, b₁.getLast? ≠ some 0x00#8 ∨ b₂.head? ≠ some 0x00#8 →
    Codec.encode (b₁ ++ b₂) = Codec.encode b₁ ++ Codec.encode b₂)

/-- R97: `ZEROS n` assembles to what the encoder emits for `n` zeros, and a canonical program assembles to a canonical
sequence. -/
def Obligations.CanonicalProgramsAssembleToCanonical : Prop :=
  (∀ n : Nat, Codec.assemble [.zeros n] = Codec.encode (zeros n)) ∧
  (∀ p : List Codec.AsmLine, Codec.canonicalProgram p = true → Codec.canonical (Codec.assemble p) = true)

/-! ### Whole transactions -/

/-- R51: the tokens a host delivers for a sequence are the tokens at the cursor, index by index. -/
def Obligations.DeliveredTokensAreTheTokensAtTheCursor : Prop :=
  ∀ inp : Bytes, tokens inp = (List.range (inp.length + 1)).map (tok inp)

/-- R115: an encoder that accepts START and then takes the `len(b) + 1` token steps of `b` ends in DONE with
`out = encode(b)`, `pos = len(b)` and `run_len = 0`, for every `b` within the capacities; nothing before START matters. The
host breaks no offer by starting without a token: none waits (R181). -/
def Obligations.EncoderTransactionComputesEncode : Prop :=
  ∀ (s : State) (k : Nat) (e : Encoder) (b : Bytes) (rest : List Input), s.encs[k]? = some e → e.phase ≠ .run →
    s.waiting (.enc k) = none → s.inputs = transaction (.enc k) b ++ rest →
    Params.excess s.cfg b.length (Codec.encode b).length = none →
    ∃ t e', Host.Core.run core (b.length + 2) s = .next t ∧ t.inputs = rest ∧ t.encs[k]? = some e' ∧
      e'.phase = .done ∧ e'.out = Codec.encode b ∧ e'.pos = b.length ∧ e'.runLen = 0x00#8 ∧
      e'.result = some (.ok (Codec.encode b))

/-- R148: a decoder that accepts START and then takes the `len(c) + 1` token steps of `c` ends with `pos = len(c)`,
`pend = 0`, and in DONE with `out` what `decode(c)` gives, or in FAIL with `err = 1` and `out = []` when it gives the error,
for every `c` within the capacities (the buffer holds the bytes of every complete symbol). No token waits before START (R181). -/
def Obligations.DecoderTransactionComputesDecode : Prop :=
  ∀ (s : State) (k : Nat) (d : Decoder) (c : Bytes) (rest : List Input), s.decs[k]? = some d → d.phase ≠ .run →
    s.waiting (.dec k) = none → s.inputs = transaction (.dec k) c ++ rest →
    Params.excess s.cfg c.length ((Codec.parse c).1.flatMap Codec.Sym.plain).length = none →
    ∃ t d', Host.Core.run core (c.length + 2) s = .next t ∧ t.inputs = rest ∧ t.decs[k]? = some d' ∧
      d'.pos = c.length ∧ d'.pend = false ∧ d'.result = some (Codec.decode c) ∧
      (∀ o, Codec.decode c = .ok o → d'.phase = .done ∧ d'.err = .noError ∧ d'.out = o) ∧
      (∀ r, Codec.decode c = .err r → d'.phase = .fail ∧ d'.err = .truncatedMarker ∧ d'.out = [])

/-- R144: the one-step form, which takes a whole stream symbol in one step, reaches the same result as the token form. -/
def Obligations.SymbolStepsComputeDecode : Prop :=
  ∀ (s : State) (k : Nat) (d : Decoder) (c : Bytes) (rest : List Input), s.decs[k]? = some d → d.phase ≠ .run →
    s.waiting (.dec k) = none → s.inputs = symbolTransaction k c ++ rest →
    Params.excess s.cfg c.length ((Codec.parse c).1.flatMap Codec.Sym.plain).length = none →
    ∃ t d', Host.Core.run core ((Codec.parse c).1.length + 2) s = .next t ∧ t.inputs = rest ∧
      t.waiting (.dec k) = none ∧ t.decs[k]? = some d' ∧
      d'.pos = c.length ∧ d'.pend = false ∧ d'.result = some (Codec.decode c)

/-! ### The host's hex boundary -/

/-- R192, R195: a hex string of `2 * len(b)` digits stands for `b`. -/
def Obligations.HexDecodeOfHexEncode : Prop :=
  ∀ (upper : Bool) (b : Bytes), hexdec upper (hexenc b) = some b ∧ (hexenc b).length = 2 * b.length

/-- R193: `hexdec` fails in exactly two cases, an odd length or a non-hex-digit character, and otherwise gives `len(s) / 2`
bytes. -/
def Obligations.HexDecodeFailsInExactlyTwoCases : Prop :=
  ∀ (upper : Bool) (s : List Char),
    (hexdec upper s = none ↔ s.length % 2 = 1 ∨ ∃ c ∈ s, digitValue upper c = none) ∧
    (∀ b, hexdec upper s = some b → b.length = s.length / 2)

/-- R191, R197, R216: the wrapped functions: `decode_hex` undoes `encode_hex`; malformed hex is reported before anything
else and nothing is presented to a unit. -/
def Obligations.WrappedCodecRoundTrips : Prop :=
  (∀ (p : Params) (b : Bytes), ∃ s, encodeHex p (hexenc b) = .ok s ∧ decodeHex p s = .ok (hexenc b)) ∧
  (∀ (p : Params) (u : UnitId) (s : List Char), hexdec p.hexAcceptUpper s = none →
    encodeHex p s = .err .malformedHex ∧ decodeHex p s = .err .malformedHex ∧ hexTransaction p u s = [])

/-! ### The host's offer -/

/-- R178, R181, R226: "The host keeps a token offered and unchanged until it is taken". A host that changes or withdraws a
token which waits at a unit, without reset, is given no meaning: the step is refused under the name of that duty, and under
that name in no other case. A token waits exactly where the last edge of its unit offered it and it was not taken: outside
RUN, also beside an accepted START, and in RUN at an edge with `in_ready = 0`. That reset releases the host is the model's
choice (log 19); the two premises on lengths are part of `State.Inv`. -/
def Obligations.OfferedTokenMustBeKept : Prop :=
  (∀ (s : State) (inp : Input) (rest : List Input) (c : Ctx) (o : Token), s.inputs = inp :: rest →
    s.ctx inp.unit = some c → s.waiting inp.unit = some o → inp.resets = false → inp.offer ≠ some o →
    step s = .refused .offerNotKept) ∧
  (∀ s : State, step s = .refused .offerNotKept → ∃ inp rest o, s.inputs = inp :: rest ∧ s.waiting inp.unit = some o ∧
    inp.resets = false ∧ inp.offer ≠ some o) ∧
  (∀ (u : UnitId) (w : Wires), (Input.edge u w).resets = w.rst ∧
    (Input.edge u w).offer = if w.inValid then some (if w.inEnd then .endOfInput else .byte w.inData) else none) ∧
  (∀ (s t : State) (u : UnitId) (c : Ctx) (w : Wires) (rest : List Input), s.encWaiting.length = s.encs.length →
    s.decWaiting.length = s.decs.length → s.inputs = .edge u w :: rest → s.ctx u = some c → step s = .next t →
    (w.rst = false → c.phase ≠ .run ∨ w.ready = false → t.waiting u = (Input.edge u w).offer) ∧
    (w.rst = true ∨ (c.phase = .run ∧ w.ready = true) → t.waiting u = none) ∧
    (∀ v, v ≠ u → t.waiting v = s.waiting v))

/-! ### The unit's offer -/

/-- The unit holds a result token it offers until the host takes it (R179; D10: "the sender holds its data until then"): a step,
whatever it is about, that is no edge of this unit with reset, START or `out_ready` leaves the same token on the result wires,
at whatever edge they are looked at. That the offer stands at every edge of DONE is the model's reading of R179 (log 9). -/
def Obligations.OfferedResultTokenIsHeld : Prop :=
  (∀ (s t : State) (k : Nat) (e : Encoder) (ready : Bool), s.encs[k]? = some e → (e.outputs ready).outValid = true →
    step s = .next t →
    (∀ w rest, s.inputs = .edge (.enc k) w :: rest → w.rst = false ∧ w.start = false ∧ w.outReady = false) →
    ∃ e', t.encs[k]? = some e' ∧ ∀ ready', (e'.outputs ready').outValid = true ∧
      (e'.outputs ready').outEnd = (e.outputs ready).outEnd ∧ (e'.outputs ready').outData = (e.outputs ready).outData) ∧
  (∀ (s t : State) (k : Nat) (d : Decoder) (ready : Bool), s.decs[k]? = some d → (d.outputs ready).outValid = true →
    step s = .next t →
    (∀ w rest, s.inputs = .edge (.dec k) w :: rest → w.rst = false ∧ w.start = false ∧ w.outReady = false) →
    ∃ d', t.decs[k]? = some d' ∧ ∀ ready', (d'.outputs ready').outValid = true ∧
      (d'.outputs ready').outEnd = (d.outputs ready).outEnd ∧ (d'.outputs ready').outData = (d.outputs ready).outData)
end

