-- ==== Sys2Proof/Laws/Codec.lean ====
section
/-! SUPPORT. The functions of level T through the list of symbols they write and read: `enc` writes `encSyms`, `dec` reads
`parse`. Everything about `encode` and `decode` follows from these two views. -/

namespace Sys2Proof.Codec

open Sys2Proof.Machine

/-! ### Small facts -/

@[simp] theorem zeros_zero : zeros 0 = [] := rfl

theorem zeros_succ (n : Nat) : zeros (n + 1) = 0x00#8 :: zeros n := rfl

theorem zeros_add (m n : Nat) : zeros (m + n) = zeros m ++ zeros n := by
  simp only [zeros, List.replicate_add]

@[simp] theorem length_zeros (n : Nat) : (zeros n).length = n := by simp [zeros]

@[simp] theorem runBytes_zero : runBytes 0x00#8 = [] := rfl

theorem runBytes_eq (l : Byte) : runBytes l = zeros l.toNat := rfl

/-- A byte is positive exactly if it is not 0. -/
theorem byte_pos_iff {r : Byte} : 0x00#8 < r ↔ r ≠ 0x00#8 := by
  rw [BitVec.lt_def, ne_eq, ← BitVec.toNat_inj]
  simp [Nat.pos_iff_ne_zero]

/-- Below 255 the 8-bit increment does not wrap (R122). -/
theorem toNat_succ {r : Byte} (h : r ≠ maxRun) : (r + 1).toNat = r.toNat + 1 := by
  have h1 : r.toNat ≠ 255 := fun hc => h (by rw [← BitVec.toNat_inj]; simpa using hc)
  have h2 := r.isLt
  rw [BitVec.toNat_add, show (1 : Byte).toNat = 1 from rfl]
  omega

/-! ### Symbols and their bytes -/

@[simp] theorem symbols_nil : symbols [] = [] := rfl

@[simp] theorem symbols_cons (y : Sym) (l : List Sym) : symbols (y :: l) = y.bytes ++ symbols l := rfl

@[simp] theorem symbols_append (l m : List Sym) : symbols (l ++ m) = symbols l ++ symbols m := by
  simp [symbols]

/-- A symbol at the front of a sequence is read off it, whatever follows (R84, R85). -/
theorem parse_lit {b : Byte} (hb : b ≠ 0x00#8) (t : Bytes) :
    parse (b :: t) = (.lit b :: (parse t).1, (parse t).2) := by
  cases t <;> simp [parse, hb]

/-- A marker at the front of a sequence is read off it, whatever its length byte and whatever follows (R85). -/
theorem parse_run (l : Byte) (t : Bytes) :
    parse (0x00#8 :: l :: t) = (.run l :: (parse t).1, (parse t).2) := by
  simp [parse]

theorem parse_symbols_append {l : List Sym} (h : ∀ b, Sym.lit b ∈ l → b ≠ 0x00#8) (t : Bytes) :
    parse (symbols l ++ t) = (l ++ (parse t).1, (parse t).2) := by
  induction l with
  | nil => simp
  | cons y l ih =>
    have ih := ih fun b hb => h b (List.mem_cons_of_mem _ hb)
    cases y with
    | lit b => simp [Sym.bytes, parse_lit (h b (List.mem_cons_self ..)), ih]
    | run m => simp [Sym.bytes, markerBytes, parse_run, ih]

/-- Induction along the greedy parse of R85: the end, a bare marker, a literal, a marker. -/
theorem parse_induction {P : Bytes → Prop} (nil : P []) (bare : P [0x00#8])
    (lit : ∀ b t, b ≠ 0x00#8 → P t → P (b :: t)) (run : ∀ l t, P t → P (0x00#8 :: l :: t)) (c : Bytes) : P c := by
  induction hn : c.length using Nat.strong_induction_on generalizing c with
  | _ n ih =>
    subst hn
    match c with
    | [] => exact nil
    | x :: t =>
      by_cases hx : x = 0x00#8
      · subst hx
        match t with
        | [] => exact bare
        | l :: t => exact run l t (ih t.length (by simp only [List.length_cons]; omega) t rfl)
      · exact lit x t hx (ih t.length (by simp) t rfl)

/-- No byte is lost in parsing (R85). -/
theorem symbols_parse (c : Bytes) :
    symbols (parse c).1 ++ (if (parse c).2 then [markerByte] else []) = c := by
  induction c using parse_induction with
  | nil => rfl
  | bare => rfl
  | lit b t hb ih => rw [parse_lit hb]; simpa [Sym.bytes] using ih
  | run l t ih => rw [parse_run]; simpa [Sym.bytes, markerBytes] using ih

/-- Parsed literals are never 0x00 (R81). -/
theorem parse_lit_ne {c : Bytes} {b : Byte} (h : Sym.lit b ∈ (parse c).1) : b ≠ 0x00#8 := by
  induction c using parse_induction with
  | nil => simp [parse] at h
  | bare => simp [parse] at h
  | lit x t hx ih =>
    rw [parse_lit hx] at h
    rcases List.mem_cons.1 h with h | h
    · simp only [Sym.lit.injEq] at h; subst h; exact hx
    · exact ih h
  | run l t ih => rw [parse_run] at h; exact ih (by simpa using h)

/-! ### The decoder's function reads the parse -/

theorem dec_lit {b : Byte} (hb : b ≠ 0x00#8) (t o : Bytes) : dec (b :: t) o = dec t (o ++ [b]) := by
  cases t <;> simp [dec, hb]

theorem dec_run (l : Byte) (t o : Bytes) : dec (0x00#8 :: l :: t) o = dec t (o ++ runBytes l) := by
  simp [dec]

/-- `dec` in terms of the parse: the plain bytes of the symbols, or the error if a bare marker is left. -/
theorem dec_eq (c o : Bytes) :
    dec c o = if (parse c).2 then .err .truncatedMarker else .ok (o ++ (parse c).1.flatMap Sym.plain) := by
  induction c using parse_induction generalizing o with
  | nil => simp [dec, parse]
  | bare => simp [dec, parse]
  | lit b t hb ih => rw [dec_lit hb, ih, parse_lit hb]; simp [Sym.plain]
  | run l t ih => rw [dec_run, ih, parse_run]; simp [Sym.plain]

theorem decode_eq (c : Bytes) :
    decode c = if (parse c).2 then .err .truncatedMarker else .ok ((parse c).1.flatMap Sym.plain) := by
  simp [decode, dec_eq]

/-- Decoding goes on after an accepted sequence. -/
theorem dec_append {c p : Bytes} (h : decode c = .ok p) (t o : Bytes) : dec (c ++ t) o = dec t (o ++ p) := by
  have hs := symbols_parse c
  rw [decode_eq] at h
  split at h
  · simp at h
  · rename_i hc
    simp only [Bool.not_eq_true] at hc
    simp only [Result.ok.injEq] at h
    subst h
    simp only [hc, Bool.false_eq_true, if_false, List.append_nil] at hs
    conv_lhs => rw [← hs]
    rw [dec_eq, dec_eq t, parse_symbols_append fun b hb => parse_lit_ne hb]
    simp

/-! ### The encoder's function writes symbols -/

/-- The symbol a pending run is flushed as (R111). -/
def flushSyms (r : Byte) : List Sym := if 0x00#8 < r then [.run r] else []

/-- The symbols `enc` writes. -/
def encSyms : Bytes → Byte → List Sym
  | [], r => flushSyms r
  | x :: t, r =>
    if x = 0x00#8 then if r = maxRun then .run maxRun :: encSyms t 0x01#8 else encSyms t (r + 1)
    else flushSyms r ++ .lit x :: encSyms t 0x00#8

theorem flush_eq (r : Byte) (o : Bytes) : flush r o = o ++ symbols (flushSyms r) := by
  unfold flush flushSyms; split <;> simp [Sym.bytes]

theorem enc_eq (b : Bytes) (r : Byte) (o : Bytes) : enc b r o = o ++ symbols (encSyms b r) := by
  induction b generalizing r o with
  | nil => simp [enc, encSyms, flush_eq]
  | cons x t ih =>
    unfold enc encSyms
    split
    · split <;> simp [ih, Sym.bytes]
    · simp [ih, flush_eq, Sym.bytes]

theorem encode_eq (b : Bytes) : encode b = symbols (encSyms b 0x00#8) := by simp [encode, enc_eq]

/-- Every symbol the encoder writes is well-formed: no `00 00`, no literal 0x00 (R120). -/
theorem encSyms_wellFormed {b : Bytes} {r : Byte} {y : Sym} (h : y ∈ encSyms b r) : y.wellFormed = true := by
  induction b generalizing r with
  | nil =>
    unfold encSyms flushSyms at h
    split at h
    · rename_i hr; simp only [List.mem_singleton] at h; subst h; simpa [Sym.wellFormed] using byte_pos_iff.1 hr
    · simp at h
  | cons x t ih =>
    unfold encSyms at h
    split at h
    · split at h
      · rcases List.mem_cons.1 h with h | h
        · subst h; rfl
        · exact ih h
      · exact ih h
    · rename_i hx
      rcases List.mem_append.1 h with h | h
      · unfold flushSyms at h
        split at h
        · rename_i hr; simp only [List.mem_singleton] at h; subst h; simpa [Sym.wellFormed] using byte_pos_iff.1 hr
        · simp at h
      · rcases List.mem_cons.1 h with h | h
        · subst h; simpa [Sym.wellFormed] using hx
        · exact ih h

theorem encSyms_lit_ne {b : Bytes} {r x : Byte} (h : Sym.lit x ∈ encSyms b r) : x ≠ 0x00#8 := by
  simpa [Sym.wellFormed] using encSyms_wellFormed h

theorem parse_encode (b : Bytes) : parse (encode b) = (encSyms b 0x00#8, false) := by
  have := parse_symbols_append (l := encSyms b 0x00#8) (fun _ h => encSyms_lit_ne h) []
  simpa [encode_eq, parse] using this

theorem flushSyms_plain (r : Byte) : (flushSyms r).flatMap Sym.plain = zeros r.toNat := by
  unfold flushSyms
  split
  · simp [Sym.plain, runBytes_eq]
  · rename_i h
    have : r = 0x00#8 := by simpa [byte_pos_iff] using h
    subst this; rfl

/-- The symbols written stand for the pending zeros and the input (R122). -/
theorem encSyms_plain (b : Bytes) (r : Byte) : (encSyms b r).flatMap Sym.plain = zeros r.toNat ++ b := by
  induction b generalizing r with
  | nil => simp [encSyms, flushSyms_plain]
  | cons x t ih =>
    unfold encSyms
    split
    · rename_i hx; subst hx
      split
      · rename_i hr; subst hr
        rw [List.flatMap_cons, ih]
        change zeros (maxRun : Byte).toNat ++ (zeros 1 ++ t) = zeros (maxRun : Byte).toNat ++ 0x00#8 :: t
        simp only [zeros_succ, zeros_zero, List.cons_append, List.nil_append]
      · rename_i hr
        rw [ih, toNat_succ hr, zeros_add]
        simp [zeros]
    · simp [ih, flushSyms_plain, Sym.plain]

theorem fullBeforeRun_lit (b : Byte) (l : List Sym) : fullBeforeRun (.lit b :: l) = fullBeforeRun l := by
  cases l <;> rfl

theorem fullBeforeRun_maxRun (l : List Sym) : fullBeforeRun (.run maxRun :: l) = fullBeforeRun l := by
  cases l with
  | nil => rfl
  | cons y l => cases y <;> simp [fullBeforeRun]

theorem fullBeforeRun_run_lit (m b : Byte) (l : List Sym) :
    fullBeforeRun (.run m :: .lit b :: l) = fullBeforeRun l := by
  rw [← fullBeforeRun_lit b l]; rfl

/-- Every marker the encoder writes before another one is full (R120). -/
theorem encSyms_full (b : Bytes) (r : Byte) : fullBeforeRun (encSyms b r) = true := by
  induction b generalizing r with
  | nil => unfold encSyms flushSyms; split <;> rfl
  | cons x t ih =>
    unfold encSyms
    split
    · split
      · rw [fullBeforeRun_maxRun, ih]
      · exact ih _
    · unfold flushSyms
      split
      · simp [fullBeforeRun_run_lit, ih]
      · simp [fullBeforeRun_lit, ih]

/-- `n` more zeros are counted as long as the counter stays below 256 (R112). -/
theorem encSyms_zeros (n : Nat) (t : Bytes) (r : Byte) (h : r.toNat + n ≤ 255) :
    encSyms (zeros n ++ t) r = encSyms t (r + BitVec.ofNat 8 n) := by
  induction n generalizing r with
  | zero => simp
  | succ n ih =>
    have hr : r ≠ maxRun := by rintro rfl; simp at h
    rw [zeros_succ, List.cons_append, encSyms, if_pos rfl, if_neg hr, ih _ (by rw [toNat_succ hr]; omega)]
    congr 1
    rw [BitVec.add_assoc]
    congr 1
    apply BitVec.eq_of_toNat_eq
    simp [Nat.add_comm]

/-- Canonical symbols are what the encoder writes for the bytes they stand for (R90). -/
theorem encSyms_of_canonical {l : List Sym} (hw : l.all Sym.wellFormed = true) (hf : fullBeforeRun l = true) :
    encSyms (l.flatMap Sym.plain) 0x00#8 = l := by
  induction l with
  | nil => rfl
  | cons y l ih =>
    rw [List.all_cons, Bool.and_eq_true] at hw
    cases y with
    | lit b =>
      have hb : b ≠ 0x00#8 := by simpa [Sym.wellFormed] using hw.1
      rw [fullBeforeRun_lit] at hf
      simp [Sym.plain, encSyms, hb, flushSyms, ih hw.2 hf]
    | run m =>
      have hm : m ≠ 0x00#8 := by simpa [Sym.wellFormed] using hw.1
      have hm' := m.isLt
      have h1 : encSyms ((Sym.run m :: l).flatMap Sym.plain) 0x00#8 = encSyms (l.flatMap Sym.plain) m := by
        rw [List.flatMap_cons]
        simp only [Sym.plain, runBytes_eq]
        rw [encSyms_zeros _ _ _ (by simp; omega)]
        simp
      rw [h1]
      cases l with
      | nil => simp [encSyms, flushSyms, byte_pos_iff, hm]
      | cons z l =>
        cases z with
        | lit b =>
          have hw2 := hw.2
          rw [List.all_cons, Bool.and_eq_true] at hw2
          have hb : b ≠ 0x00#8 := by simpa [Sym.wellFormed] using hw2.1
          have ih := ih hw.2 (by rw [fullBeforeRun_run_lit] at hf; rwa [fullBeforeRun_lit])
          simp only [Sym.plain, List.flatMap_cons, List.cons_append, List.nil_append, encSyms, hb, if_false] at ih ⊢
          simp only [flushSyms, byte_pos_iff, ne_eq, not_true_eq_false, if_false, hm, not_false_eq_true, if_true,
            List.nil_append, List.cons_append] at ih ⊢
          rw [ih]
        | run m2 =>
          have hw2 := hw.2
          rw [List.all_cons, Bool.and_eq_true] at hw2
          have hm2 : m2 ≠ 0x00#8 := by simpa [Sym.wellFormed] using hw2.1
          simp only [fullBeforeRun, Bool.and_eq_true, beq_iff_eq] at hf
          have ih := ih hw.2 hf.2
          rw [hf.1]
          obtain ⟨n, hn⟩ : ∃ n, m2.toNat = n + 1 :=
            Nat.exists_eq_succ_of_ne_zero fun hc => hm2 (BitVec.eq_of_toNat_eq (by simpa using hc))
          simp only [Sym.plain, List.flatMap_cons, runBytes_eq, hn, zeros_succ, List.cons_append] at ih ⊢
          rw [encSyms, if_pos rfl, if_neg (by decide)] at ih
          rw [encSyms, if_pos rfl, if_pos rfl]
          simpa using ih

/-! ### The canonical sequences (R89) -/

/-- The class of a sequence of well-formed symbols is decided by its adjacent markers. -/
theorem canonical_symbols {l : List Sym} (hw : l.all Sym.wellFormed = true) :
    canonical (symbols l) = fullBeforeRun l := by
  have h : parse (symbols l) = (l, false) := by
    have := parse_symbols_append (l := l)
      (fun b hb => by simpa [Sym.wellFormed] using List.all_eq_true.1 hw _ hb) []
    simpa [parse] using this
  simp [canonical, wellFormed, accepted, h, hw]

/-- A canonical sequence is the bytes of well-formed symbols with every marker before a marker full. -/
theorem canonical_elim {c : Bytes} (h : canonical c = true) :
    ∃ l : List Sym, c = symbols l ∧ l.all Sym.wellFormed = true ∧ fullBeforeRun l = true := by
  have hs := symbols_parse c
  simp only [canonical, wellFormed, accepted, Bool.and_eq_true, Bool.not_eq_true'] at h
  obtain ⟨⟨h1, h2⟩, h3⟩ := h
  rw [h1] at hs
  exact ⟨_, by simpa using hs.symm, h2, h3⟩

/-- Where a marker of length 1 may follow, any list of symbols may. -/
theorem fullBeforeRun_append {l m : List Sym} (hl : fullBeforeRun (l ++ [.run 0x01#8]) = true)
    (hm : fullBeforeRun m = true) : fullBeforeRun (l ++ m) = true := by
  induction l with
  | nil => exact hm
  | cons y l ih =>
    cases y with
    | lit b => rw [List.cons_append, fullBeforeRun_lit] at *; exact ih hl
    | run n =>
      cases l with
      | nil =>
        simp only [List.cons_append, List.nil_append, fullBeforeRun, Bool.and_true, beq_iff_eq] at hl
        rw [hl, List.cons_append, fullBeforeRun_maxRun]; exact hm
      | cons z l =>
        cases z with
        | lit b =>
          simp only [List.cons_append] at *
          rw [fullBeforeRun_run_lit] at *
          simp only [fullBeforeRun_lit] at ih
          exact ih hl
        | run q =>
          simp only [List.cons_append, fullBeforeRun, Bool.and_eq_true] at *
          exact ⟨hl.1, ih hl.2⟩

/-- Where a marker of length 1 may follow a canonical sequence, any canonical list of symbols may (R120: what keeps the
encoder's buffer canonical while a run is pending). -/
theorem canonical_append {c : Bytes} (h : canonical (c ++ markerBytes 0x01#8) = true) (hc : canonical c = true)
    {m : List Sym} (hw : m.all Sym.wellFormed = true) (hm : fullBeforeRun m = true) :
    canonical (c ++ symbols m) = true := by
  obtain ⟨l, rfl, h1, _⟩ := canonical_elim hc
  have e : symbols l ++ markerBytes 0x01#8 = symbols (l ++ [.run 0x01#8]) := by simp [Sym.bytes]
  rw [e, canonical_symbols (by rw [List.all_append, h1]; rfl)] at h
  rw [← symbols_append, canonical_symbols (by rw [List.all_append, h1, hw]; rfl)]
  exact fullBeforeRun_append h hm

/-- The symbols a pending run is flushed as are canonical, before a literal and at the end. -/
theorem flushSyms_wellFormed (r : Byte) : (flushSyms r).all Sym.wellFormed = true := by
  unfold flushSyms; split <;> simp_all [Sym.wellFormed, byte_pos_iff]

theorem flushSyms_full (r : Byte) : fullBeforeRun (flushSyms r) = true := by
  unfold flushSyms; split <;> rfl

theorem flushSyms_lit_full (r b : Byte) (m : List Sym) :
    fullBeforeRun (flushSyms r ++ .lit b :: m) = fullBeforeRun m := by
  unfold flushSyms; split <;> simp [fullBeforeRun_lit, fullBeforeRun_run_lit]

/-! ### Trailing zeros (R122) -/

theorem trailingZeros_zero (b : Bytes) : trailingZeros (b ++ [0x00#8]) = trailingZeros b + 1 := by
  simp [trailingZeros]

theorem trailingZeros_nonZero (b : Bytes) {x : Byte} (h : x ≠ 0x00#8) : trailingZeros (b ++ [x]) = 0 := by
  simp [trailingZeros, h]

end Sys2Proof.Codec
end

