-- ==== Sys2Proof/Laws/Decode.lean ====
section
/-! SUPPORT. What the words of R94 carry: the token of a TOK word, the bits of a CTL word, and what an edge with one of them
selects. Later proofs cite these lemmas and take no word apart. -/

namespace Sys2Proof

open Sys2Proof.Machine (Phase)

/-- The data byte of a TOK word. -/
theorem tokenWord_data (e : Bool) (b : Byte) : (BitVec.ofBool e ++ b).extractLsb' 0 8 = b := by
  ext i hi
  rw [BitVec.getElem_extractLsb', BitVec.getLsbD_append]
  simp [hi]

/-- The `in_end` bit of a TOK word. -/
theorem tokenWord_end (e : Bool) (b : Byte) : (BitVec.ofBool e ++ b).getLsbD 8 = e := by
  rw [BitVec.getLsbD_append]; simp

/-- The token on the wires (R177). -/
theorem token_of_wires (w : Wires) :
    Token.ofWord w.tokenWord = if w.inEnd then .endOfInput else .byte w.inData := by
  simp only [Token.ofWord, Wires.tokenWord, tokenWord_data, tokenWord_end]

/-- A token put on the wires is read off them. -/
theorem token_of_ofToken (t : Token) : Token.ofWord (Wires.ofToken t).tokenWord = t := by
  rw [token_of_wires]
  cases t with
  | endOfInput => rfl
  | byte b =>
    have h1 : (Token.byte b).toWord = BitVec.ofBool false ++ b := rfl
    simp only [Wires.ofToken, h1, tokenWord_end, tokenWord_data, Bool.false_eq_true, if_false]

/-- The bits `r s` of a CTL word. -/
theorem controlWord_bits (w : Wires) :
    w.controlWord.getLsbD 1 = w.rst ∧ w.controlWord.getLsbD 0 = w.start := by
  unfold Wires.controlWord
  cases w.rst <;> cases w.start <;> decide

/-- A token offered in RUN selects its operation. -/
theorem decode_token (u : UnitId) (pend : Bool) (t : Token) :
    decode ⟨.run, pend⟩ (.edge u (.ofToken t)) = .ok (selectToken u pend t, []) := by
  have h : decodeEdge ⟨.run, pend⟩ u (.ofToken t) =
      .ok (selectToken u pend (Token.ofWord (Wires.ofToken t).tokenWord)) := rfl
  rw [token_of_ofToken] at h
  simp [decode, h, Except.map]

/-- An edge with reset asserted selects RESET whatever else it carries (R240). -/
theorem decode_reset {u : UnitId} {c : Ctx} {w : Wires} (h : w.rst = true) :
    decode c (.edge u w) = .ok (.reset u, []) := by
  simp only [decode, decodeEdge, decodeControl, controlWord_bits, h, Bool.true_or, if_true, Except.map]

/-- START of the unit. -/
def startOf : UnitId → Instr
  | .enc k => .eStart k
  | .dec k => .dStart k

/-- An edge with START raised outside RUN selects START (R171, R178). -/
theorem decode_start {u : UnitId} {c : Ctx} {w : Wires} (h : w.rst = false) (hs : w.start = true) (hp : c.phase ≠ .run) :
    decode c (.edge u w) = .ok (startOf u, []) := by
  simp only [decode, decodeEdge, decodeControl, controlWord_bits, h, hs]
  cases u <;> simp [hp, Except.map, startOf]

/-- An edge outside RUN with neither reset nor START selects nothing (R172). -/
theorem decode_waits {u : UnitId} {c : Ctx} {w : Wires} (h : c.phase ≠ .run) (hr : w.rst = false) (hs : w.start = false) :
    ∃ r, decode c (.edge u w) = .error r := by
  simp only [decode, decodeEdge, hr, hs]
  cases w.inValid <;> simp [h, Except.map]

/-- Outside RUN only an edge with reset or START selects an operation (R172). -/
theorem decode_outside_run {c : Ctx} {inp : Input} {i : Instr} {left : List Input} (h : decode c inp = .ok (i, left))
    (hp : c.phase ≠ .run) : ∃ w, inp = .edge inp.unit w ∧ (w.rst = true ∨ w.start = true) := by
  cases inp with
  | edge u w =>
    refine ⟨w, rfl, ?_⟩
    cases hr : w.rst <;> cases hs : w.start <;> simp
    obtain ⟨r, hd⟩ := decode_waits (u := u) hp hr hs
    simp [hd] at h
  | stream k bs => simp [decode, decodeStream, hp] at h

/-- In RUN a token is taken exactly if it is offered and the unit is ready; START is then ignored (R173, R178). -/
theorem decode_run {u : UnitId} {pend : Bool} {w : Wires} (h : w.rst = false) (hv : w.inValid = true)
    (hr : w.ready = true) :
    decode ⟨.run, pend⟩ (.edge u w) =
      .ok (selectToken u pend (if w.inEnd then .endOfInput else .byte w.inData), []) := by
  simp [decode, decodeEdge, h, hv, hr, token_of_wires, Except.map]

/-- What an input can select: reset, START of a unit outside RUN, a token of a unit in RUN, or a symbol or token of a decoder
in RUN to which a sequence is played. -/
theorem decode_cases {c : Ctx} {inp : Input} {i : Instr} {left : List Input} (h : decode c inp = .ok (i, left)) :
    i = .reset inp.unit ∨ (c.phase ≠ .run ∧ i = startOf inp.unit) ∨
    (c.phase = .run ∧ ∃ t, i = selectToken inp.unit c.pend t) ∨
    (c.phase = .run ∧ c.pend = false ∧ ∃ k bs t, inp = .stream k bs ∧ decodeSymbol k bs = .ok (i, t)) := by
  cases inp with
  | edge u w =>
    cases hd : decodeEdge c u w with
    | error r => simp [decode, hd, Except.map] at h
    | ok j =>
      obtain rfl : j = i := by simp [decode, hd, Except.map] at h; exact h.1
      simp only [decodeEdge, decodeControl, controlWord_bits] at hd
      split at hd
      · rename_i hc
        split at hd
        · exact .inl (by simpa [Input.unit] using hd.symm)
        · rename_i hr
          have hsp : w.start = true ∧ c.phase ≠ .run := by simpa [hr] using hc
          rw [if_pos hsp.1] at hd
          refine .inr (.inl ⟨hsp.2, ?_⟩)
          cases u <;> simpa [Input.unit, startOf] using hd.symm
      · split at hd
        · split at hd
          · simp at hd
          · rename_i hp
            split at hd
            · exact .inr (.inr (.inl ⟨by simpa using hp, _, by simpa [Input.unit] using hd.symm⟩))
            · simp at hd
        · split at hd <;> simp at hd
  | stream k bs =>
    simp only [decode, decodeStream] at h
    split at h
    · simp at h
    · rename_i hp
      have hp : c.phase = .run := by simpa using hp
      split at h
      · rename_i hpend
        refine .inr (.inr (.inl ⟨hp, ?_⟩))
        cases bs with
        | nil => exact ⟨.endOfInput, by simp at h; simp [← h.1, selectToken, Input.unit, hpend]⟩
        | cons l t => exact ⟨.byte l, by simp at h; simp [← h.1, selectToken, Input.unit, hpend]⟩
      · rename_i hpend
        split at h
        · refine .inr (.inr (.inl ⟨hp, .endOfInput, ?_⟩))
          simp at h; simp [← h.1, selectToken, Input.unit, hpend]
        · rename_i j t hs
          simp only [Except.ok.injEq, Prod.mk.injEq] at h
          exact .inr (.inr (.inr ⟨hp, by simpa using hpend, k, bs, t, rfl, by rw [← h.1]; exact hs⟩))

/-- The operation an input selects belongs to the unit the input is presented to. -/
theorem decode_unit {c : Ctx} {inp : Input} {i : Instr} {left : List Input} (h : decode c inp = .ok (i, left)) :
    i.unit = inp.unit := by
  rcases decode_cases h with rfl | ⟨_, rfl⟩ | ⟨_, t, rfl⟩ | ⟨_, _, k, bs, t, rfl, hs⟩
  · rfl
  · cases inp.unit <;> rfl
  · unfold selectToken
    cases inp.unit <;> cases t <;> simp only <;> (repeat' split) <;> rfl
  · unfold decodeSymbol at hs
    cases bs with
    | nil => simp at hs
    | cons x bs =>
      simp only at hs
      split at hs
      · simp at hs; simp [← hs.1, Instr.unit, Input.unit]
      · cases bs with
        | nil => simp at hs; simp [← hs.1, Instr.unit, Input.unit]
        | cons l bs =>
          simp only at hs
          split at hs <;> simp at hs <;> simp [← hs.1, Instr.unit, Input.unit]

end Sys2Proof
end

