-- ==== Sys2Proof/Laws/State.lean ====
section
/-! SUPPORT. One lemma per field per update of the registers and of the state, each true by definition, so that no later proof
unfolds a record update. -/

namespace Sys2Proof.Machine

@[simp] theorem Encoder.append_phase (a : Bytes) (e : Encoder) : (e.append a).phase = e.phase := rfl
@[simp] theorem Encoder.append_runLen (a : Bytes) (e : Encoder) : (e.append a).runLen = e.runLen := rfl
@[simp] theorem Encoder.append_pos (a : Bytes) (e : Encoder) : (e.append a).pos = e.pos := rfl
@[simp] theorem Encoder.append_out (a : Bytes) (e : Encoder) : (e.append a).out = e.out ++ a := rfl
@[simp] theorem Encoder.append_inp (a : Bytes) (e : Encoder) : (e.append a).inp = e.inp := rfl
@[simp] theorem Encoder.append_rd (a : Bytes) (e : Encoder) : (e.append a).rd = e.rd := rfl
@[simp] theorem Encoder.append_rdEnd (a : Bytes) (e : Encoder) : (e.append a).rdEnd = e.rdEnd := rfl

@[simp] theorem Encoder.consume_phase (b : Byte) (e : Encoder) : (e.consume b).phase = e.phase := rfl
@[simp] theorem Encoder.consume_runLen (b : Byte) (e : Encoder) : (e.consume b).runLen = e.runLen := rfl
@[simp] theorem Encoder.consume_pos (b : Byte) (e : Encoder) : (e.consume b).pos = e.pos + 1 := rfl
@[simp] theorem Encoder.consume_out (b : Byte) (e : Encoder) : (e.consume b).out = e.out := rfl
@[simp] theorem Encoder.consume_inp (b : Byte) (e : Encoder) : (e.consume b).inp = e.inp ++ [b] := rfl
@[simp] theorem Encoder.consume_rd (b : Byte) (e : Encoder) : (e.consume b).rd = e.rd := rfl
@[simp] theorem Encoder.consume_rdEnd (b : Byte) (e : Encoder) : (e.consume b).rdEnd = e.rdEnd := rfl

@[simp] theorem Encoder.setRunLen_phase (n : BitVec 8) (e : Encoder) : (e.setRunLen n).phase = e.phase := rfl
@[simp] theorem Encoder.setRunLen_runLen (n : BitVec 8) (e : Encoder) : (e.setRunLen n).runLen = n := rfl
@[simp] theorem Encoder.setRunLen_pos (n : BitVec 8) (e : Encoder) : (e.setRunLen n).pos = e.pos := rfl
@[simp] theorem Encoder.setRunLen_out (n : BitVec 8) (e : Encoder) : (e.setRunLen n).out = e.out := rfl
@[simp] theorem Encoder.setRunLen_inp (n : BitVec 8) (e : Encoder) : (e.setRunLen n).inp = e.inp := rfl
@[simp] theorem Encoder.setRunLen_rd (n : BitVec 8) (e : Encoder) : (e.setRunLen n).rd = e.rd := rfl
@[simp] theorem Encoder.setRunLen_rdEnd (n : BitVec 8) (e : Encoder) : (e.setRunLen n).rdEnd = e.rdEnd := rfl

@[simp] theorem Encoder.finish_phase (p : Phase) (e : Encoder) : (e.finish p).phase = p := rfl
@[simp] theorem Encoder.finish_runLen (p : Phase) (e : Encoder) : (e.finish p).runLen = e.runLen := rfl
@[simp] theorem Encoder.finish_pos (p : Phase) (e : Encoder) : (e.finish p).pos = e.pos := rfl
@[simp] theorem Encoder.finish_out (p : Phase) (e : Encoder) : (e.finish p).out = e.out := rfl
@[simp] theorem Encoder.finish_inp (p : Phase) (e : Encoder) : (e.finish p).inp = e.inp := rfl
@[simp] theorem Encoder.finish_rd (p : Phase) (e : Encoder) : (e.finish p).rd = 0 := rfl
@[simp] theorem Encoder.finish_rdEnd (p : Phase) (e : Encoder) : (e.finish p).rdEnd = false := rfl

@[simp] theorem Decoder.append_phase (a : Bytes) (d : Decoder) : (d.append a).phase = d.phase := rfl
@[simp] theorem Decoder.append_pend (a : Bytes) (d : Decoder) : (d.append a).pend = d.pend := rfl
@[simp] theorem Decoder.append_pos (a : Bytes) (d : Decoder) : (d.append a).pos = d.pos := rfl
@[simp] theorem Decoder.append_out (a : Bytes) (d : Decoder) : (d.append a).out = d.out ++ a := rfl
@[simp] theorem Decoder.append_err (a : Bytes) (d : Decoder) : (d.append a).err = d.err := rfl
@[simp] theorem Decoder.append_inp (a : Bytes) (d : Decoder) : (d.append a).inp = d.inp := rfl
@[simp] theorem Decoder.append_rd (a : Bytes) (d : Decoder) : (d.append a).rd = d.rd := rfl
@[simp] theorem Decoder.append_rdEnd (a : Bytes) (d : Decoder) : (d.append a).rdEnd = d.rdEnd := rfl

@[simp] theorem Decoder.consume_phase (b : Byte) (d : Decoder) : (d.consume b).phase = d.phase := rfl
@[simp] theorem Decoder.consume_pend (b : Byte) (d : Decoder) : (d.consume b).pend = d.pend := rfl
@[simp] theorem Decoder.consume_pos (b : Byte) (d : Decoder) : (d.consume b).pos = d.pos + 1 := rfl
@[simp] theorem Decoder.consume_out (b : Byte) (d : Decoder) : (d.consume b).out = d.out := rfl
@[simp] theorem Decoder.consume_err (b : Byte) (d : Decoder) : (d.consume b).err = d.err := rfl
@[simp] theorem Decoder.consume_inp (b : Byte) (d : Decoder) : (d.consume b).inp = d.inp ++ [b] := rfl
@[simp] theorem Decoder.consume_rd (b : Byte) (d : Decoder) : (d.consume b).rd = d.rd := rfl
@[simp] theorem Decoder.consume_rdEnd (b : Byte) (d : Decoder) : (d.consume b).rdEnd = d.rdEnd := rfl

@[simp] theorem Decoder.setPend_phase (v : Bool) (d : Decoder) : (d.setPend v).phase = d.phase := rfl
@[simp] theorem Decoder.setPend_pend (v : Bool) (d : Decoder) : (d.setPend v).pend = v := rfl
@[simp] theorem Decoder.setPend_pos (v : Bool) (d : Decoder) : (d.setPend v).pos = d.pos := rfl
@[simp] theorem Decoder.setPend_out (v : Bool) (d : Decoder) : (d.setPend v).out = d.out := rfl
@[simp] theorem Decoder.setPend_err (v : Bool) (d : Decoder) : (d.setPend v).err = d.err := rfl
@[simp] theorem Decoder.setPend_inp (v : Bool) (d : Decoder) : (d.setPend v).inp = d.inp := rfl
@[simp] theorem Decoder.setPend_rd (v : Bool) (d : Decoder) : (d.setPend v).rd = d.rd := rfl
@[simp] theorem Decoder.setPend_rdEnd (v : Bool) (d : Decoder) : (d.setPend v).rdEnd = d.rdEnd := rfl

@[simp] theorem Decoder.finish_phase (p : Phase) (k : ErrCode) (d : Decoder) : (d.finish p k).phase = p := rfl
@[simp] theorem Decoder.finish_pend (p : Phase) (k : ErrCode) (d : Decoder) : (d.finish p k).pend = d.pend := rfl
@[simp] theorem Decoder.finish_pos (p : Phase) (k : ErrCode) (d : Decoder) : (d.finish p k).pos = d.pos := rfl
@[simp] theorem Decoder.finish_out (p : Phase) (k : ErrCode) (d : Decoder) : (d.finish p k).out = d.out := rfl
@[simp] theorem Decoder.finish_err (p : Phase) (k : ErrCode) (d : Decoder) : (d.finish p k).err = k := rfl
@[simp] theorem Decoder.finish_inp (p : Phase) (k : ErrCode) (d : Decoder) : (d.finish p k).inp = d.inp := rfl
@[simp] theorem Decoder.finish_rd (p : Phase) (k : ErrCode) (d : Decoder) : (d.finish p k).rd = 0 := rfl
@[simp] theorem Decoder.finish_rdEnd (p : Phase) (k : ErrCode) (d : Decoder) : (d.finish p k).rdEnd = false := rfl

@[simp] theorem Decoder.raiseTruncatedMarker_phase (d : Decoder) : (d.raiseTruncatedMarker).phase = .fail := rfl
@[simp] theorem Decoder.raiseTruncatedMarker_pend (d : Decoder) : (d.raiseTruncatedMarker).pend = false := rfl
@[simp] theorem Decoder.raiseTruncatedMarker_pos (d : Decoder) : (d.raiseTruncatedMarker).pos = d.pos := rfl
@[simp] theorem Decoder.raiseTruncatedMarker_out (d : Decoder) : (d.raiseTruncatedMarker).out = [] := rfl
@[simp] theorem Decoder.raiseTruncatedMarker_err (d : Decoder) : (d.raiseTruncatedMarker).err = .truncatedMarker := rfl
@[simp] theorem Decoder.raiseTruncatedMarker_inp (d : Decoder) : (d.raiseTruncatedMarker).inp = d.inp := rfl
@[simp] theorem Decoder.raiseTruncatedMarker_rd (d : Decoder) : (d.raiseTruncatedMarker).rd = 0 := rfl
@[simp] theorem Decoder.raiseTruncatedMarker_rdEnd (d : Decoder) : (d.raiseTruncatedMarker).rdEnd = false := rfl

@[simp] theorem Encoder.reset_phase : Encoder.reset.phase = .idle := rfl
@[simp] theorem Encoder.reset_runLen : Encoder.reset.runLen = 0x00#8 := rfl
@[simp] theorem Encoder.reset_pos : Encoder.reset.pos = 0 := rfl
@[simp] theorem Encoder.reset_out : Encoder.reset.out = [] := rfl
@[simp] theorem Encoder.reset_inp : Encoder.reset.inp = [] := rfl
@[simp] theorem Encoder.reset_rd : Encoder.reset.rd = 0 := rfl
@[simp] theorem Encoder.reset_rdEnd : Encoder.reset.rdEnd = false := rfl

@[simp] theorem Encoder.started_phase : Encoder.started.phase = .run := rfl
@[simp] theorem Encoder.started_runLen : Encoder.started.runLen = 0x00#8 := rfl
@[simp] theorem Encoder.started_pos : Encoder.started.pos = 0 := rfl
@[simp] theorem Encoder.started_out : Encoder.started.out = [] := rfl
@[simp] theorem Encoder.started_inp : Encoder.started.inp = [] := rfl
@[simp] theorem Encoder.started_rd : Encoder.started.rd = 0 := rfl
@[simp] theorem Encoder.started_rdEnd : Encoder.started.rdEnd = false := rfl

@[simp] theorem Decoder.reset_phase : Decoder.reset.phase = .idle := rfl
@[simp] theorem Decoder.reset_pend : Decoder.reset.pend = false := rfl
@[simp] theorem Decoder.reset_pos : Decoder.reset.pos = 0 := rfl
@[simp] theorem Decoder.reset_out : Decoder.reset.out = [] := rfl
@[simp] theorem Decoder.reset_err : Decoder.reset.err = .noError := rfl
@[simp] theorem Decoder.reset_inp : Decoder.reset.inp = [] := rfl
@[simp] theorem Decoder.reset_rd : Decoder.reset.rd = 0 := rfl
@[simp] theorem Decoder.reset_rdEnd : Decoder.reset.rdEnd = false := rfl

@[simp] theorem Decoder.started_phase : Decoder.started.phase = .run := rfl
@[simp] theorem Decoder.started_pend : Decoder.started.pend = false := rfl
@[simp] theorem Decoder.started_pos : Decoder.started.pos = 0 := rfl
@[simp] theorem Decoder.started_out : Decoder.started.out = [] := rfl
@[simp] theorem Decoder.started_err : Decoder.started.err = .noError := rfl
@[simp] theorem Decoder.started_inp : Decoder.started.inp = [] := rfl
@[simp] theorem Decoder.started_rd : Decoder.started.rd = 0 := rfl
@[simp] theorem Decoder.started_rdEnd : Decoder.started.rdEnd = false := rfl

@[simp] theorem State.setEnc_cfg (k : Nat) (e : Encoder) (s : State) : (s.setEnc k e).cfg = s.cfg := rfl
@[simp] theorem State.setEnc_encs (k : Nat) (e : Encoder) (s : State) : (s.setEnc k e).encs = s.encs.set k e := rfl
@[simp] theorem State.setEnc_decs (k : Nat) (e : Encoder) (s : State) : (s.setEnc k e).decs = s.decs := rfl
@[simp] theorem State.setEnc_inputs (k : Nat) (e : Encoder) (s : State) : (s.setEnc k e).inputs = s.inputs := rfl

@[simp] theorem State.setDec_cfg (k : Nat) (d : Decoder) (s : State) : (s.setDec k d).cfg = s.cfg := rfl
@[simp] theorem State.setDec_encs (k : Nat) (d : Decoder) (s : State) : (s.setDec k d).encs = s.encs := rfl
@[simp] theorem State.setDec_decs (k : Nat) (d : Decoder) (s : State) : (s.setDec k d).decs = s.decs.set k d := rfl
@[simp] theorem State.setDec_inputs (k : Nat) (d : Decoder) (s : State) : (s.setDec k d).inputs = s.inputs := rfl

@[simp] theorem State.setInputs_cfg (l : List Input) (s : State) : (s.setInputs l).cfg = s.cfg := rfl
@[simp] theorem State.setInputs_encs (l : List Input) (s : State) : (s.setInputs l).encs = s.encs := rfl
@[simp] theorem State.setInputs_decs (l : List Input) (s : State) : (s.setInputs l).decs = s.decs := rfl
@[simp] theorem State.setInputs_inputs (l : List Input) (s : State) : (s.setInputs l).inputs = l := rfl

@[simp] theorem State.setEnc_encWaiting (k : Nat) (e : Encoder) (s : State) : (s.setEnc k e).encWaiting = s.encWaiting := rfl
@[simp] theorem State.setEnc_decWaiting (k : Nat) (e : Encoder) (s : State) : (s.setEnc k e).decWaiting = s.decWaiting := rfl
@[simp] theorem State.setEnc_waiting (k : Nat) (e : Encoder) (s : State) : (s.setEnc k e).waiting = s.waiting := rfl
@[simp] theorem State.setDec_encWaiting (k : Nat) (d : Decoder) (s : State) : (s.setDec k d).encWaiting = s.encWaiting := rfl
@[simp] theorem State.setDec_decWaiting (k : Nat) (d : Decoder) (s : State) : (s.setDec k d).decWaiting = s.decWaiting := rfl
@[simp] theorem State.setDec_waiting (k : Nat) (d : Decoder) (s : State) : (s.setDec k d).waiting = s.waiting := rfl
@[simp] theorem State.setInputs_encWaiting (l : List Input) (s : State) : (s.setInputs l).encWaiting = s.encWaiting := rfl
@[simp] theorem State.setInputs_decWaiting (l : List Input) (s : State) : (s.setInputs l).decWaiting = s.decWaiting := rfl
@[simp] theorem State.setInputs_waiting (l : List Input) (s : State) : (s.setInputs l).waiting = s.waiting := rfl

@[simp] theorem State.advance_cfg (u : UnitId) (o : Option Token) (l : List Input) (s : State) :
    (s.advance u o l).cfg = s.cfg := by cases u <;> rfl
@[simp] theorem State.advance_encs (u : UnitId) (o : Option Token) (l : List Input) (s : State) :
    (s.advance u o l).encs = s.encs := by cases u <;> rfl
@[simp] theorem State.advance_decs (u : UnitId) (o : Option Token) (l : List Input) (s : State) :
    (s.advance u o l).decs = s.decs := by cases u <;> rfl
@[simp] theorem State.advance_inputs (u : UnitId) (o : Option Token) (l : List Input) (s : State) :
    (s.advance u o l).inputs = l := by cases u <;> rfl
@[simp] theorem State.advance_encWaiting_length (u : UnitId) (o : Option Token) (l : List Input) (s : State) :
    (s.advance u o l).encWaiting.length = s.encWaiting.length := by
  cases u <;> simp [State.advance, State.setWaiting]
@[simp] theorem State.advance_decWaiting_length (u : UnitId) (o : Option Token) (l : List Input) (s : State) :
    (s.advance u o l).decWaiting.length = s.decWaiting.length := by
  cases u <;> simp [State.advance, State.setWaiting]

@[simp] theorem State.advance_ctx (u : UnitId) (o : Option Token) (l : List Input) (s : State) :
    (s.advance u o l).ctx = s.ctx := by
  funext v; cases u <;> cases v <;> rfl

/-- After an input that leaves no token waiting none waits. -/
theorem State.advance_waiting_none (u : UnitId) (l : List Input) (s : State) : (s.advance u none l).waiting u = none := by
  cases u <;> simp only [State.advance, State.setWaiting, State.setInputs, State.waiting, List.getElem?_set, if_true] <;>
    split <;> rfl

/-- Another unit's waiting token is not touched. -/
theorem State.advance_waiting_ne {u v : UnitId} (h : u ≠ v) (o : Option Token) (l : List Input) (s : State) :
    (s.advance u o l).waiting v = s.waiting v := by
  cases u <;> cases v <;> simp_all [State.advance, State.setWaiting, State.setInputs, State.waiting, List.getElem?_set_ne]

/-- The waiting token of the unit whose input is over, if the state has a place for it. -/
theorem State.advance_waiting {u : UnitId} {c : Ctx} {s : State} (he : s.encWaiting.length = s.encs.length)
    (hd : s.decWaiting.length = s.decs.length) (h : s.ctx u = some c) (o : Option Token) (l : List Input) :
    (s.advance u o l).waiting u = o := by
  cases u with
  | enc k =>
    obtain ⟨e, hk, _⟩ := Option.map_eq_some_iff.1 h
    obtain ⟨hk, _⟩ := List.getElem?_eq_some_iff.1 hk
    simp [State.advance, State.setWaiting, State.waiting, he, hk]
  | dec k =>
    obtain ⟨d, hk, _⟩ := Option.map_eq_some_iff.1 h
    obtain ⟨hk, _⟩ := List.getElem?_eq_some_iff.1 hk
    simp [State.advance, State.setWaiting, State.waiting, hd, hk]

/-! ### The registers after a flush (R111) -/

@[simp] theorem Encoder.flush_phase (e : Encoder) : e.flush.phase = e.phase := by unfold Encoder.flush; split <;> rfl
@[simp] theorem Encoder.flush_pos (e : Encoder) : e.flush.pos = e.pos := by unfold Encoder.flush; split <;> rfl
@[simp] theorem Encoder.flush_inp (e : Encoder) : e.flush.inp = e.inp := by unfold Encoder.flush; split <;> rfl
@[simp] theorem Encoder.flush_rd (e : Encoder) : e.flush.rd = e.rd := by unfold Encoder.flush; split <;> rfl
@[simp] theorem Encoder.flush_rdEnd (e : Encoder) : e.flush.rdEnd = e.rdEnd := by unfold Encoder.flush; split <;> rfl
@[simp] theorem Encoder.flush_runLen (e : Encoder) : e.flush.runLen = 0x00#8 := rfl

theorem Encoder.flush_out (e : Encoder) :
    e.flush.out = if 0x00#8 < e.runLen then e.out ++ markerBytes e.runLen else e.out := by
  unfold Encoder.flush; split <;> rfl

/-! ### The registers after E.ZERO (R112) -/

@[simp] theorem Encoder.zero_phase (e : Encoder) : e.zero.phase = e.phase := by unfold Encoder.zero; dsimp only; split <;> rfl
@[simp] theorem Encoder.zero_rd (e : Encoder) : e.zero.rd = e.rd := by unfold Encoder.zero; dsimp only; split <;> rfl
@[simp] theorem Encoder.zero_rdEnd (e : Encoder) : e.zero.rdEnd = e.rdEnd := by unfold Encoder.zero; dsimp only; split <;> rfl
@[simp] theorem Encoder.zero_pos (e : Encoder) : e.zero.pos = e.pos + 1 := by unfold Encoder.zero; dsimp only; split <;> rfl
@[simp] theorem Encoder.zero_inp (e : Encoder) : e.zero.inp = e.inp ++ [0x00#8] := by
  unfold Encoder.zero; dsimp only; split <;> rfl

theorem Encoder.zero_runLen (e : Encoder) : e.zero.runLen = if e.runLen = maxRun then 0x01#8 else e.runLen + 1 := by
  unfold Encoder.zero; dsimp only; split <;> simp

theorem Encoder.zero_out (e : Encoder) :
    e.zero.out = if e.runLen = maxRun then e.out ++ markerBytes maxRun else e.out := by
  unfold Encoder.zero; dsimp only; split <;> rfl

/-! ### Reading and writing a unit -/

/-- Writing back what is there changes nothing. -/
theorem State.setEnc_self {s : State} {k : Nat} {e : Encoder} (h : s.encs[k]? = some e) : s.setEnc k e = s := by
  obtain ⟨hk, rfl⟩ := List.getElem?_eq_some_iff.1 h
  simp [State.setEnc]

/-- Writing back what is there changes nothing. -/
theorem State.setDec_self {s : State} {k : Nat} {d : Decoder} (h : s.decs[k]? = some d) : s.setDec k d = s := by
  obtain ⟨hk, rfl⟩ := List.getElem?_eq_some_iff.1 h
  simp [State.setDec]

/-- Reading the unit that was written. -/
theorem State.setEnc_get {s : State} {k : Nat} {e e' : Encoder} (h : s.encs[k]? = some e) :
    (s.setEnc k e').encs[k]? = some e' := by
  obtain ⟨hk, rfl⟩ := List.getElem?_eq_some_iff.1 h
  simp [hk]

/-- Reading the unit that was written. -/
theorem State.setDec_get {s : State} {k : Nat} {d d' : Decoder} (h : s.decs[k]? = some d) :
    (s.setDec k d').decs[k]? = some d' := by
  obtain ⟨hk, rfl⟩ := List.getElem?_eq_some_iff.1 h
  simp [hk]

/-- Reading another unit. -/
theorem State.setEnc_get_ne {s : State} {j k : Nat} {e : Encoder} (h : k ≠ j) :
    (s.setEnc k e).encs[j]? = s.encs[j]? := by
  simp [List.getElem?_set_ne h]

/-- Reading another unit. -/
theorem State.setDec_get_ne {s : State} {j k : Nat} {d : Decoder} (h : k ≠ j) :
    (s.setDec k d).decs[j]? = s.decs[j]? := by
  simp [List.getElem?_set_ne h]

end Sys2Proof.Machine
end

