-- ==== Sys2Proof/Laws/Ops.lean ====
section
/-! SUPPORT. What each shared operation can do, said once: every operation of `Instr` is a function of its own unit's
registers and the parameters (`encLocal`, `decLocal`), lifted to the state. Later proofs cite `exec_enc`, `exec_dec`,
`exec_next_enc` and `exec_next_dec` and unfold no meaning. -/

namespace Sys2Proof.Machine

/-! ### Capacities (R9, R58) -/

theorem withinCap_iff {cap : Option Nat} {n : Nat} : withinCap cap n = true ↔ ∀ c, cap = some c → n ≤ c := by
  cases cap <;> simp [withinCap]

theorem excess_none_iff {p : Params} {pos len : Nat} :
    Params.excess p pos len = none ↔
      pos < 2 ^ p.lenBits ∧ withinCap p.inCap pos = true ∧ withinCap p.outCap len = true := by
  unfold Params.excess
  split <;> rename_i h1
  · simp [h1]
  · split <;> rename_i h2
    · simp_all
    · split <;> simp_all

theorem withinCap_mono {cap : Option Nat} {m n : Nat} (hmn : m ≤ n) (h : withinCap cap n = true) :
    withinCap cap m = true := by
  rw [withinCap_iff] at *
  exact fun c hc => hmn.trans (h c hc)

/-- A smaller transaction is within the capacities if a larger one is. -/
theorem excess_mono {p : Params} {pos pos' len len' : Nat} (hp : pos ≤ pos') (hl : len ≤ len')
    (h : Params.excess p pos' len' = none) : Params.excess p pos len = none := by
  rw [excess_none_iff] at *
  exact ⟨hp.trans_lt h.1, withinCap_mono hp h.2.1, withinCap_mono hl h.2.2⟩

@[simp] theorem excess_zero (p : Params) : Params.excess p 0 0 = none := by
  rw [excess_none_iff]
  exact ⟨Nat.two_pow_pos _, by simp [withinCap_iff], by simp [withinCap_iff]⟩

/-- A capacity refusal is one of the three of R9. -/
theorem excess_some {p : Params} {pos len : Nat} {r : Refusal} (h : Params.excess p pos len = some r) :
    r = .lenBitsExceeded ∨ (r = .inCapExceeded ∧ p.inCap ≠ none) ∨ (r = .outCapExceeded ∧ p.outCap ≠ none) := by
  unfold Params.excess at h
  split at h
  · exact .inl (by simpa using h.symm)
  · split at h
    · rename_i h2
      refine .inr (.inl ⟨by simpa using h.symm, ?_⟩)
      intro hc; simp [hc, withinCap] at h2
    · split at h
      · rename_i h3
        refine .inr (.inr ⟨by simpa using h.symm, ?_⟩)
        intro hc; simp [hc, withinCap] at h3
      · exact absurd h (by simp)

/-! ### The local effect of an operation -/

/-- The effect of a token operation of an encoder on its own registers. -/
def encTokenLocal (p : Params) (sel : Encoder → Bool) (f : Encoder → Encoder) (e : Encoder) : Except Refusal Encoder :=
  if e.phase ≠ .run then .ok e
  else if sel e then
    match Params.excess p (f e).pos (f e).out.length with
    | some r => .error r
    | none => .ok (f e)
  else .error .notSelected

/-- The effect of a token operation of a decoder on its own registers. -/
def decTokenLocal (p : Params) (sel : Decoder → Bool) (f : Decoder → Decoder) (d : Decoder) : Except Refusal Decoder :=
  if d.phase ≠ .run then .ok d
  else if sel d then
    match Params.excess p (f d).pos (f d).out.length with
    | some r => .error r
    | none => .ok (f d)
  else .error .notSelected

/-- The effect of an encoder's operation on its own registers; operations of decoders have none. -/
def encLocal (p : Params) (i : Instr) (e : Encoder) : Except Refusal Encoder :=
  match i with
  | .eZero _ => encTokenLocal p (fun _ => true) Encoder.zero e
  | .eNz _ b => encTokenLocal p (fun _ => b != 0x00#8) (Encoder.nonZero b) e
  | .eEnd _ => encTokenLocal p (fun _ => true) Encoder.endInput e
  | .eStart _ => .ok (if e.phase = .run then e else Encoder.started)
  | .reset (.enc _) => .ok Encoder.reset
  | _ => .ok e

/-- Two local effects one after the other. -/
def thenLocal (o : Except Refusal Decoder) (f : Decoder → Except Refusal Decoder) : Except Refusal Decoder :=
  match o with
  | .ok d => f d
  | .error r => .error r

/-- The effect of a decoder's operation on its own registers; operations of encoders have none. -/
def decLocal (p : Params) (i : Instr) (d : Decoder) : Except Refusal Decoder :=
  let mark := decTokenLocal p (fun d => !d.pend) Decoder.mark
  let len := fun l => decTokenLocal p (fun d => d.pend) (Decoder.length l)
  let trunc := decTokenLocal p (fun d => d.pend) Decoder.raiseTruncatedMarker
  match i with
  | .lit _ b => decTokenLocal p (fun d => !d.pend && b != 0x00#8) (Decoder.literal b) d
  | .dLit _ b => decTokenLocal p (fun d => !d.pend && b != 0x00#8) (Decoder.literal b) d
  | .dMark _ => mark d
  | .dLen _ l => len l d
  | .dEndOk _ => decTokenLocal p (fun d => !d.pend) Decoder.endOk d
  | .dEndTrunc _ => trunc d
  | .run _ l => thenLocal (mark d) (len l)
  | .runZ _ => thenLocal (mark d) (len 0x00#8)
  | .trunc _ => thenLocal (mark d) trunc
  | .dStart _ => .ok (if d.phase = .run then d else Decoder.started)
  | .reset (.dec _) => .ok Decoder.reset
  | _ => .ok d

/-- A local effect on encoder `k` as an outcome. -/
def liftEnc (k : Nat) (s : State) : Except Refusal Encoder → Outcome
  | .ok e => .next (s.setEnc k e)
  | .error r => .refused r

/-- A local effect on decoder `k` as an outcome. -/
def liftDec (k : Nat) (s : State) : Except Refusal Decoder → Outcome
  | .ok d => .next (s.setDec k d)
  | .error r => .refused r

theorem encToken_eq {k : Nat} {s : State} {e : Encoder} (sel : Encoder → Bool) (f : Encoder → Encoder)
    (h : s.encs[k]? = some e) : encToken k sel f s = liftEnc k s (encTokenLocal s.cfg sel f e) := by
  simp only [encToken, onEnc, h, encTokenLocal, commitEnc]
  split
  · simp [liftEnc, State.setEnc_self h]
  · split
    · cases Params.excess s.cfg (f e).pos (f e).out.length <;> rfl
    · rfl

theorem decToken_eq {k : Nat} {s : State} {d : Decoder} (sel : Decoder → Bool) (f : Decoder → Decoder)
    (h : s.decs[k]? = some d) : decToken k sel f s = liftDec k s (decTokenLocal s.cfg sel f d) := by
  simp only [decToken, onDec, h, decTokenLocal, commitDec]
  split
  · simp [liftDec, State.setDec_self h]
  · split
    · cases Params.excess s.cfg (f d).pos (f d).out.length <;> rfl
    · rfl

theorem andThen_decToken_eq {k : Nat} {s : State} (o : Except Refusal Decoder) (sel : Decoder → Bool)
    (f : Decoder → Decoder) {d : Decoder} (h : s.decs[k]? = some d) :
    andThen (liftDec k s o) (decToken k sel f) = liftDec k s (thenLocal o (decTokenLocal s.cfg sel f)) := by
  cases o with
  | error r => rfl
  | ok d' =>
    simp only [liftDec, andThen, thenLocal]
    rw [decToken_eq sel f (State.setDec_get h)]
    simp only [State.setDec_cfg]
    cases decTokenLocal s.cfg sel f d' <;> simp [liftDec, State.setDec]

/-- An operation of an encoder is its local effect. -/
theorem exec_enc {i : Instr} {k : Nat} {s : State} {e : Encoder} (hu : i.unit = .enc k) (h : s.encs[k]? = some e) :
    exec i s = liftEnc k s (encLocal s.cfg i e) := by
  cases i <;> simp only [Instr.unit, UnitId.enc.injEq, reduceCtorEq] at hu
  case eZero j => subst hu; exact encToken_eq _ _ h
  case eNz j b => subst hu; exact encToken_eq _ _ h
  case eEnd j => subst hu; exact encToken_eq _ _ h
  case eStart j =>
    subst hu
    simp only [exec, execEStart, onEnc, h, encLocal]
    split <;> simp [liftEnc, State.setEnc_self h]
  case reset u => subst hu; simp [exec, execReset, onEnc, h, encLocal, liftEnc]

/-- An operation of a decoder is its local effect. -/
theorem exec_dec {i : Instr} {k : Nat} {s : State} {d : Decoder} (hu : i.unit = .dec k) (h : s.decs[k]? = some d) :
    exec i s = liftDec k s (decLocal s.cfg i d) := by
  cases i <;> simp only [Instr.unit, UnitId.dec.injEq, reduceCtorEq] at hu
  case lit j b => subst hu; exact decToken_eq _ _ h
  case dLit j b => subst hu; exact decToken_eq _ _ h
  case dMark j => subst hu; exact decToken_eq _ _ h
  case dLen j l => subst hu; exact decToken_eq _ _ h
  case dEndOk j => subst hu; exact decToken_eq _ _ h
  case dEndTrunc j => subst hu; exact decToken_eq _ _ h
  case run j l =>
    subst hu
    change andThen (decToken _ _ _ s) (decToken _ _ _) = _
    rw [decToken_eq _ _ h, andThen_decToken_eq _ _ _ h]; rfl
  case runZ j =>
    subst hu
    change andThen (decToken _ _ _ s) (decToken _ _ _) = _
    rw [decToken_eq _ _ h, andThen_decToken_eq _ _ _ h]; rfl
  case trunc j =>
    subst hu
    change andThen (decToken _ _ _ s) (decToken _ _ _) = _
    rw [decToken_eq _ _ h, andThen_decToken_eq _ _ _ h]; rfl
  case dStart j =>
    subst hu
    simp only [exec, execDStart, onDec, h, decLocal]
    split <;> simp [liftDec, State.setDec_self h]
  case reset u => subst hu; simp [exec, execReset, onDec, h, decLocal, liftDec]

/-- An operation addressed to an encoder that does not exist faults (log 16). -/
theorem exec_no_enc {i : Instr} {k : Nat} {s : State} (hu : i.unit = .enc k) (h : s.encs[k]? = none) :
    exec i s = .fault .noSuchUnit := by
  cases i <;> simp only [Instr.unit, UnitId.enc.injEq, reduceCtorEq] at hu <;> subst hu <;>
    simp [exec, execEZero, execENz, execEEnd, execEStart, execReset, encToken, onEnc, h]

/-- An operation addressed to a decoder that does not exist faults (log 16). -/
theorem exec_no_dec {i : Instr} {k : Nat} {s : State} (hu : i.unit = .dec k) (h : s.decs[k]? = none) :
    exec i s = .fault .noSuchUnit := by
  cases i <;> simp only [Instr.unit, UnitId.dec.injEq, reduceCtorEq] at hu <;> subst hu <;>
    simp [exec, execLit, execRun, execRunZ, execTrunc, execDLit, execDMark, execDLen, execDEndOk, execDEndTrunc, execDStart,
      execReset, decToken, onDec, andThen, h]

/-- What an encoder's operation did, if it answered a next state. -/
theorem exec_next_enc {i : Instr} {k : Nat} {s t : State} (hu : i.unit = .enc k) (h : exec i s = .next t) :
    ∃ e e', s.encs[k]? = some e ∧ encLocal s.cfg i e = .ok e' ∧ t = s.setEnc k e' := by
  cases he : s.encs[k]? with
  | none => rw [exec_no_enc hu he] at h; simp at h
  | some e =>
    rw [exec_enc hu he] at h
    cases hl : encLocal s.cfg i e with
    | error r => rw [hl] at h; simp [liftEnc] at h
    | ok e' => rw [hl] at h; exact ⟨e, e', rfl, hl, by simpa [liftEnc] using h.symm⟩

/-- What a decoder's operation did, if it answered a next state. -/
theorem exec_next_dec {i : Instr} {k : Nat} {s t : State} (hu : i.unit = .dec k) (h : exec i s = .next t) :
    ∃ d d', s.decs[k]? = some d ∧ decLocal s.cfg i d = .ok d' ∧ t = s.setDec k d' := by
  cases hd : s.decs[k]? with
  | none => rw [exec_no_dec hu hd] at h; simp at h
  | some d =>
    rw [exec_dec hu hd] at h
    cases hl : decLocal s.cfg i d with
    | error r => rw [hl] at h; simp [liftDec] at h
    | ok d' => rw [hl] at h; exact ⟨d, d', rfl, hl, by simpa [liftDec] using h.symm⟩

/-- What an operation did to encoder `k`: nothing, or its local effect if it is an operation of that encoder. -/
theorem exec_next_at_enc {i : Instr} {k : Nat} {s t : State} {e e' : Encoder} (h : exec i s = .next t)
    (he : s.encs[k]? = some e) (he' : t.encs[k]? = some e') :
    (i.unit ≠ .enc k ∧ e' = e) ∨ (i.unit = .enc k ∧ encLocal s.cfg i e = .ok e') := by
  by_cases hu : i.unit = .enc k
  · obtain ⟨f, f', hf, hl, rfl⟩ := exec_next_enc hu h
    obtain rfl : f = e := by simpa [hf] using he
    rw [State.setEnc_get hf] at he'
    exact .inr ⟨hu, by simpa using hl.trans (by simpa using he')⟩
  · refine .inl ⟨hu, ?_⟩
    cases hv : i.unit with
    | enc j =>
      obtain ⟨f, f', hf, hl, rfl⟩ := exec_next_enc hv h
      rw [State.setEnc_get_ne (by rintro rfl; exact hu hv), he] at he'
      exact (by simpa using he'.symm)
    | dec j =>
      obtain ⟨f, f', hf, hl, rfl⟩ := exec_next_dec hv h
      simpa [he] using he'.symm

/-- What an operation did to decoder `k`: nothing, or its local effect if it is an operation of that decoder. -/
theorem exec_next_at_dec {i : Instr} {k : Nat} {s t : State} {d d' : Decoder} (h : exec i s = .next t)
    (hd : s.decs[k]? = some d) (hd' : t.decs[k]? = some d') :
    (i.unit ≠ .dec k ∧ d' = d) ∨ (i.unit = .dec k ∧ decLocal s.cfg i d = .ok d') := by
  by_cases hu : i.unit = .dec k
  · obtain ⟨f, f', hf, hl, rfl⟩ := exec_next_dec hu h
    obtain rfl : f = d := by simpa [hf] using hd
    rw [State.setDec_get hf] at hd'
    exact .inr ⟨hu, by simpa using hl.trans (by simpa using hd')⟩
  · refine .inl ⟨hu, ?_⟩
    cases hv : i.unit with
    | dec j =>
      obtain ⟨f, f', hf, hl, rfl⟩ := exec_next_dec hv h
      rw [State.setDec_get_ne (by rintro rfl; exact hu hv), hd] at hd'
      exact (by simpa using hd'.symm)
    | enc j =>
      obtain ⟨f, f', hf, hl, rfl⟩ := exec_next_enc hv h
      simpa [hd] using hd'.symm

/-- A token operation of an encoder that answered: the token waited, or the operation was performed in RUN. -/
theorem encTokenLocal_ok {p : Params} {sel : Encoder → Bool} {f : Encoder → Encoder} {e e' : Encoder}
    (h : encTokenLocal p sel f e = .ok e') :
    (e.phase ≠ .run ∧ e' = e) ∨
      (e.phase = .run ∧ sel e = true ∧ e' = f e ∧ Params.excess p (f e).pos (f e).out.length = none) := by
  unfold encTokenLocal at h
  split at h
  · exact .inl ⟨‹_›, by simpa using h.symm⟩
  · split at h
    · split at h
      · simp at h
      · exact .inr ⟨by simpa using ‹¬ e.phase ≠ .run›, ‹_›, by simpa using h.symm, ‹_›⟩
    · simp at h

/-- A token operation of a decoder that answered: the token waited, or the operation was performed in RUN. -/
theorem decTokenLocal_ok {p : Params} {sel : Decoder → Bool} {f : Decoder → Decoder} {d d' : Decoder}
    (h : decTokenLocal p sel f d = .ok d') :
    (d.phase ≠ .run ∧ d' = d) ∨
      (d.phase = .run ∧ sel d = true ∧ d' = f d ∧ Params.excess p (f d).pos (f d).out.length = none) := by
  unfold decTokenLocal at h
  split at h
  · exact .inl ⟨‹_›, by simpa using h.symm⟩
  · split at h
    · split at h
      · simp at h
      · exact .inr ⟨by simpa using ‹¬ d.phase ≠ .run›, ‹_›, by simpa using h.symm, ‹_›⟩
    · simp at h

/-- A token operation of an encoder performed in RUN within the capacities. -/
theorem encTokenLocal_run {p : Params} {sel : Encoder → Bool} {f : Encoder → Encoder} {e : Encoder}
    (hr : e.phase = .run) (hs : sel e = true) (hx : Params.excess p (f e).pos (f e).out.length = none) :
    encTokenLocal p sel f e = .ok (f e) := by
  simp [encTokenLocal, hr, hs, hx]

/-- A token operation of a decoder performed in RUN within the capacities. -/
theorem decTokenLocal_run {p : Params} {sel : Decoder → Bool} {f : Decoder → Decoder} {d : Decoder}
    (hr : d.phase = .run) (hs : sel d = true) (hx : Params.excess p (f d).pos (f d).out.length = none) :
    decTokenLocal p sel f d = .ok (f d) := by
  simp [decTokenLocal, hr, hs, hx]

/-- What an encoder's operation did to its registers, if it answered. -/
theorem encLocal_cases {p : Params} {i : Instr} {k : Nat} {e e' : Encoder} (hu : i.unit = .enc k)
    (h : encLocal p i e = .ok e') :
    (e' = e ∧ (e.phase ≠ .run ∨ i = .eStart k)) ∨ (i = .eStart k ∧ e.phase ≠ .run ∧ e' = Encoder.started) ∨
    (i = .reset (.enc k) ∧ e' = Encoder.reset) ∨
    (e.phase = .run ∧ Params.excess p e'.pos e'.out.length = none ∧
      ((i = .eZero k ∧ e' = e.zero) ∨ (∃ b, b ≠ 0x00#8 ∧ i = .eNz k b ∧ e' = e.nonZero b) ∨
        (i = .eEnd k ∧ e' = e.endInput))) := by
  cases i <;> simp only [Instr.unit, UnitId.enc.injEq, reduceCtorEq] at hu <;> subst hu
  case eZero =>
    simp only [encLocal] at h
    rcases encTokenLocal_ok h with ⟨hr, rfl⟩ | ⟨hr, _, rfl, hx⟩
    · exact .inl ⟨rfl, .inl hr⟩
    · exact .inr (.inr (.inr ⟨hr, hx, .inl ⟨rfl, rfl⟩⟩))
  case eNz b =>
    simp only [encLocal] at h
    rcases encTokenLocal_ok h with ⟨hr, rfl⟩ | ⟨hr, hb, rfl, hx⟩
    · exact .inl ⟨rfl, .inl hr⟩
    · exact .inr (.inr (.inr ⟨hr, hx, .inr (.inl ⟨b, by simpa using hb, rfl, rfl⟩)⟩))
  case eEnd =>
    simp only [encLocal] at h
    rcases encTokenLocal_ok h with ⟨hr, rfl⟩ | ⟨hr, _, rfl, hx⟩
    · exact .inl ⟨rfl, .inl hr⟩
    · exact .inr (.inr (.inr ⟨hr, hx, .inr (.inr ⟨rfl, rfl⟩)⟩))
  case eStart =>
    simp only [encLocal, Except.ok.injEq] at h
    split at h
    · exact .inl ⟨h.symm, .inr rfl⟩
    · exact .inr (.inl ⟨rfl, ‹_›, h.symm⟩)
  case reset =>
    simp only [encLocal, Except.ok.injEq] at h
    exact .inr (.inr (.inl ⟨rfl, h.symm⟩))

/-- What a decoder's operation did to its registers, if it answered. -/
theorem decLocal_cases {p : Params} {i : Instr} {k : Nat} {d d' : Decoder} (hu : i.unit = .dec k)
    (h : decLocal p i d = .ok d') :
    (d' = d ∧ (d.phase ≠ .run ∨ i = .dStart k)) ∨ (i = .dStart k ∧ d.phase ≠ .run ∧ d' = Decoder.started) ∨
    (i = .reset (.dec k) ∧ d' = Decoder.reset) ∨
    (d.phase = .run ∧ Params.excess p d'.pos d'.out.length = none ∧
      ((∃ b, b ≠ 0x00#8 ∧ (i = .lit k b ∨ i = .dLit k b) ∧ d.pend = false ∧ d' = d.literal b) ∨
        (i = .dMark k ∧ d.pend = false ∧ d' = d.mark) ∨
        (∃ l, i = .dLen k l ∧ d.pend = true ∧ d' = d.length l) ∨
        (i = .dEndOk k ∧ d.pend = false ∧ d' = d.endOk) ∨
        (i = .dEndTrunc k ∧ d.pend = true ∧ d' = d.raiseTruncatedMarker) ∨
        (∃ l, (i = .run k l ∨ (i = .runZ k ∧ l = 0x00#8)) ∧ d.pend = false ∧ d' = d.mark.length l) ∨
        (i = .trunc k ∧ d.pend = false ∧ d' = d.mark.raiseTruncatedMarker))) := by
  have composite : ∀ (f : Decoder → Decoder),
      thenLocal (decTokenLocal p (fun d => !d.pend) Decoder.mark d) (decTokenLocal p (fun d => d.pend) f) = .ok d' →
      (d.phase ≠ .run ∧ d' = d) ∨
        (d.phase = .run ∧ d.pend = false ∧ d' = f d.mark ∧ Params.excess p d'.pos d'.out.length = none) := by
    intro f hf
    cases hm : decTokenLocal p (fun d => !d.pend) Decoder.mark d with
    | error r => rw [hm] at hf; simp [thenLocal] at hf
    | ok m =>
      rw [hm] at hf
      simp only [thenLocal] at hf
      rcases decTokenLocal_ok hm with ⟨hr, rfl⟩ | ⟨hr, hp, rfl, _⟩
      · rcases decTokenLocal_ok hf with ⟨_, rfl⟩ | ⟨hr', _⟩
        · exact .inl ⟨hr, rfl⟩
        · exact absurd hr' hr
      · rcases decTokenLocal_ok hf with ⟨hr', _⟩ | ⟨_, _, rfl, hx⟩
        · exact absurd (by simpa [Decoder.mark] using hr) hr'
        · exact .inr ⟨hr, by simpa using hp, rfl, hx⟩
  cases i <;> simp only [Instr.unit, UnitId.dec.injEq, reduceCtorEq] at hu <;> subst hu
  case lit b =>
    simp only [decLocal] at h
    rcases decTokenLocal_ok h with ⟨hr, rfl⟩ | ⟨hr, hs, rfl, hx⟩
    · exact .inl ⟨rfl, .inl hr⟩
    · simp only [Bool.and_eq_true, Bool.not_eq_true', bne_iff_ne, ne_eq] at hs
      exact .inr (.inr (.inr ⟨hr, hx, .inl ⟨b, hs.2, .inl rfl, hs.1, rfl⟩⟩))
  case dLit b =>
    simp only [decLocal] at h
    rcases decTokenLocal_ok h with ⟨hr, rfl⟩ | ⟨hr, hs, rfl, hx⟩
    · exact .inl ⟨rfl, .inl hr⟩
    · simp only [Bool.and_eq_true, Bool.not_eq_true', bne_iff_ne, ne_eq] at hs
      exact .inr (.inr (.inr ⟨hr, hx, .inl ⟨b, hs.2, .inr rfl, hs.1, rfl⟩⟩))
  case dMark =>
    simp only [decLocal] at h
    rcases decTokenLocal_ok h with ⟨hr, rfl⟩ | ⟨hr, hs, rfl, hx⟩
    · exact .inl ⟨rfl, .inl hr⟩
    · exact .inr (.inr (.inr ⟨hr, hx, .inr (.inl ⟨rfl, by simpa using hs, rfl⟩)⟩))
  case dLen l =>
    simp only [decLocal] at h
    rcases decTokenLocal_ok h with ⟨hr, rfl⟩ | ⟨hr, hs, rfl, hx⟩
    · exact .inl ⟨rfl, .inl hr⟩
    · exact .inr (.inr (.inr ⟨hr, hx, .inr (.inr (.inl ⟨l, rfl, hs, rfl⟩))⟩))
  case dEndOk =>
    simp only [decLocal] at h
    rcases decTokenLocal_ok h with ⟨hr, rfl⟩ | ⟨hr, hs, rfl, hx⟩
    · exact .inl ⟨rfl, .inl hr⟩
    · exact .inr (.inr (.inr ⟨hr, hx, .inr (.inr (.inr (.inl ⟨rfl, by simpa using hs, rfl⟩)))⟩))
  case dEndTrunc =>
    simp only [decLocal] at h
    rcases decTokenLocal_ok h with ⟨hr, rfl⟩ | ⟨hr, hs, rfl, hx⟩
    · exact .inl ⟨rfl, .inl hr⟩
    · exact .inr (.inr (.inr ⟨hr, hx, .inr (.inr (.inr (.inr (.inl ⟨rfl, hs, rfl⟩))))⟩))
  case run l =>
    simp only [decLocal] at h
    rcases composite _ h with ⟨hr, rfl⟩ | ⟨hr, hs, rfl, hx⟩
    · exact .inl ⟨rfl, .inl hr⟩
    · exact .inr (.inr (.inr ⟨hr, hx, .inr (.inr (.inr (.inr (.inr (.inl ⟨l, .inl rfl, hs, rfl⟩)))))⟩))
  case runZ =>
    simp only [decLocal] at h
    rcases composite _ h with ⟨hr, rfl⟩ | ⟨hr, hs, rfl, hx⟩
    · exact .inl ⟨rfl, .inl hr⟩
    · exact .inr (.inr (.inr ⟨hr, hx, .inr (.inr (.inr (.inr (.inr (.inl ⟨_, .inr ⟨rfl, rfl⟩, hs, rfl⟩)))))⟩))
  case trunc =>
    simp only [decLocal] at h
    rcases composite _ h with ⟨hr, rfl⟩ | ⟨hr, hs, rfl, hx⟩
    · exact .inl ⟨rfl, .inl hr⟩
    · exact .inr (.inr (.inr ⟨hr, hx, .inr (.inr (.inr (.inr (.inr (.inr ⟨rfl, hs, rfl⟩)))))⟩))
  case dStart =>
    simp only [decLocal, Except.ok.injEq] at h
    split at h
    · exact .inl ⟨h.symm, .inr rfl⟩
    · exact .inr (.inl ⟨rfl, ‹_›, h.symm⟩)
  case reset =>
    simp only [decLocal, Except.ok.injEq] at h
    exact .inr (.inr (.inl ⟨rfl, h.symm⟩))

/-! ### The host's offer (R178, R181) -/

/-- A host breaks its offer exactly if a token waits, reset is not asserted and that token is not offered again. -/
theorem keepsOffer_false_iff {o : Option Token} {inp : Input} :
    keepsOffer o inp = false ↔ ∃ t, o = some t ∧ inp.resets = false ∧ inp.offer ≠ some t := by
  cases o <;> simp [keepsOffer]

/-- Where no token waits every input keeps the offer. -/
@[simp] theorem keepsOffer_none (inp : Input) : keepsOffer none inp = true := by simp [keepsOffer]

/-- Reset ends the duty (log 19). -/
theorem keepsOffer_reset {o : Option Token} {u : UnitId} {w : Wires} (h : w.rst = true) :
    keepsOffer o (.edge u w) = true := by simp [keepsOffer, Input.resets, h]

/-- A token operation leaves no token waiting. -/
@[simp] theorem waitingAfter_selectToken (u : UnitId) (p : Bool) (t : Token) (inp : Input) :
    waitingAfter (selectToken u p t) inp = none := by
  cases u <;> cases t <;> simp only [selectToken] <;> (repeat' split) <;> rfl

/-- No operation answers that refusal; only the step does. -/
theorem exec_ne_offerNotKept (i : Instr) (s : State) : exec i s ≠ .refused .offerNotKept := by
  have hx : ∀ p a b, Params.excess p a b ≠ some .offerNotKept := by
    intro p a b; unfold Params.excess; (repeat' split) <;> simp
  have he : ∀ p sel f e, encTokenLocal p sel f e ≠ .error .offerNotKept := by
    intro p sel f e h; unfold encTokenLocal at h; (repeat' split at h) <;> simp at h
    subst h; exact absurd ‹_› (hx _ _ _)
  have hd : ∀ p sel f e, decTokenLocal p sel f e ≠ .error .offerNotKept := by
    intro p sel f e h; unfold decTokenLocal at h; (repeat' split at h) <;> simp at h
    subst h; exact absurd ‹_› (hx _ _ _)
  have ht : ∀ p sel f sel' f' e, thenLocal (decTokenLocal p sel f e) (decTokenLocal p sel' f') ≠ .error .offerNotKept := by
    intro p sel f sel' f' e h
    cases h1 : decTokenLocal p sel f e with
    | ok m => rw [h1] at h; exact hd _ _ _ _ h
    | error r => rw [h1] at h; simp [thenLocal] at h; subst h; exact hd _ _ _ _ h1
  cases hu : i.unit with
  | enc k =>
    cases h : s.encs[k]? with
    | none => rw [exec_no_enc hu h]; simp
    | some e =>
      rw [exec_enc hu h]
      intro hc
      have : encLocal s.cfg i e = .error .offerNotKept := by
        cases hl : encLocal s.cfg i e <;> rw [hl] at hc <;> simp_all [liftEnc]
      cases i <;> simp [Instr.unit] at hu <;> subst hu <;> simp [encLocal, he] at this
  | dec k =>
    cases h : s.decs[k]? with
    | none => rw [exec_no_dec hu h]; simp
    | some e =>
      rw [exec_dec hu h]
      intro hc
      have : decLocal s.cfg i e = .error .offerNotKept := by
        cases hl : decLocal s.cfg i e <;> rw [hl] at hc <;> simp_all [liftDec]
      cases i <;> simp [Instr.unit] at hu <;> subst hu <;> simp [decLocal, hd, ht] at this

/-- What a step did, if it answered a next state: nothing was fetched, an edge passed with no operation, or an operation
ran on the state with its input taken. -/
theorem step_cases {s t : State} (h : step s = .next t) :
    t = s ∨
    (∃ u w rest, s.inputs = .edge u w :: rest ∧ keepsOffer (s.waiting u) (.edge u w) = true ∧
      drainEdge u w (s.advance u (Input.edge u w).offer rest) = .next t) ∨
    (∃ inp rest left c i, s.inputs = inp :: rest ∧ keepsOffer (s.waiting inp.unit) inp = true ∧
      s.ctx inp.unit = some c ∧ decode c inp = .ok (i, left) ∧
      exec i (s.advance inp.unit (waitingAfter i inp) (left ++ rest)) = .next t) := by
  unfold step fetch at h
  split at h
  · exact .inl (by simpa [runFetched] using h.symm)
  · rename_i inp rest hin
    split at h
    · simp [runFetched] at h
    · rename_i c hc
      split at h
      · rename_i hk
        split at h
        · rename_i i left hd
          exact .inr (.inr ⟨inp, rest, left, c, i, hin, hk, hc, hd, by simpa [runFetched] using h⟩)
        · cases inp with
          | edge u w => exact .inr (.inl ⟨u, w, rest, hin, hk, by simpa [runFetched] using h⟩)
          | stream k c' => exact .inl (by simpa [runFetched] using h.symm)
      · simp [runFetched] at h

/-- A step over an input that selects an operation, from a host that keeps its offer. -/
theorem step_op {s : State} {inp : Input} {rest left : List Input} {c : Ctx} {i : Instr} (hin : s.inputs = inp :: rest)
    (hc : s.ctx inp.unit = some c) (hk : keepsOffer (s.waiting inp.unit) inp = true) (hd : decode c inp = .ok (i, left)) :
    step s = exec i (s.advance inp.unit (waitingAfter i inp) (left ++ rest)) := by
  simp [step, fetch, hin, hc, hk, hd, runFetched]

/-- A step over an edge that selects no operation, from a host that keeps its offer. -/
theorem step_edge {s : State} {u : UnitId} {w : Wires} {rest : List Input} {c : Ctx} {r : Reject}
    (hin : s.inputs = .edge u w :: rest) (hc : s.ctx u = some c) (hk : keepsOffer (s.waiting u) (.edge u w) = true)
    (hd : decode c (.edge u w) = .error r) :
    step s = drainEdge u w (s.advance u (Input.edge u w).offer rest) := by
  simp [step, fetch, hin, Input.unit, hc, hk, hd, runFetched]

/-- A step from a host that does not keep its offer is refused (R226). -/
theorem step_brokenOffer {s : State} {inp : Input} {rest : List Input} {c : Ctx} (hin : s.inputs = inp :: rest)
    (hc : s.ctx inp.unit = some c) (hk : keepsOffer (s.waiting inp.unit) inp = false) :
    step s = .refused .offerNotKept := by
  simp [step, fetch, hin, hc, hk, runFetched]

/-- What an edge with no operation did. -/
theorem drainEdge_next {u : UnitId} {w : Wires} {s t : State} (h : drainEdge u w s = .next t) :
    (∃ k e, u = .enc k ∧ s.encs[k]? = some e ∧ t = s.setEnc k (e.drain w)) ∨
    (∃ k d, u = .dec k ∧ s.decs[k]? = some d ∧ t = s.setDec k (d.drain w)) := by
  cases u with
  | enc k =>
    simp only [drainEdge, onEnc] at h
    split at h
    · simp at h
    · exact .inl ⟨k, _, rfl, ‹_›, by simpa using h.symm⟩
  | dec k =>
    simp only [drainEdge, onDec] at h
    split at h
    · simp at h
    · exact .inr ⟨k, _, rfl, ‹_›, by simpa using h.symm⟩

end Sys2Proof.Machine
end

