-- ==== Sys2Proof/Laws/PerInstr.lean ====
section
/-! SUPPORT. A statement made of every instruction, one lemma a constructor: the word of its encoding matches its row of
opcode_table.json (R94). -/

namespace Sys2Proof.Laws.MatchesRow

/-- The word `encode` gives a well-formed instruction fits its row's width and meets the row's mask and match. -/
def Statement (i : Instr) : Prop :=
  i.wellFormed = true →
    (encode i).tableWord < 2 ^ (tableRow i).width ∧
    (encode i).tableWord &&& (tableRow i).mask = (tableRow i).pattern

/-- Masking a byte with the bits above it leaves nothing. -/
theorem byte_and_high (b : Byte) : b.toNat &&& 0xff00 = 0 := by
  apply Nat.eq_of_testBit_eq
  intro n
  rw [Nat.testBit_and, Nat.zero_testBit]
  by_cases h : n < 8
  · have : Nat.testBit 0xff00 n = false := by interval_cases n <;> decide
    rw [this, Bool.and_false]
  · rw [Nat.testBit_lt_two_pow (Nat.lt_of_lt_of_le b.isLt (Nat.pow_le_pow_right (by decide) (by omega))), Bool.false_and]

/-- A data token's word is its byte, with `e = 0`. -/
theorem byteToken_word (u : UnitId) (b : Byte) :
    (Input.edge u (.ofToken (.byte b))).tableWord < 2 ^ 9 ∧
    (Input.edge u (.ofToken (.byte b))).tableWord &&& 0x100 = 0 := by
  revert b
  change ∀ b : Byte, (Wires.ofToken (.byte b)).tokenWord.toNat < 2 ^ 9 ∧
    (Wires.ofToken (.byte b)).tokenWord.toNat &&& 0x100 = 0
  decide

theorem lit (k : Nat) (b : Byte) : Statement (.lit k b) := fun _ =>
  ⟨by simpa [encode, symbolBytes, Input.tableWord, streamWord, tableRow] using b.isLt, by simp [tableRow]⟩

theorem run (k : Nat) (l : Byte) : Statement (.run k l) := fun _ => by
  have h : (encode (.run k l)).tableWord = l.toNat := by simp [encode, symbolBytes, Input.tableWord, streamWord]
  rw [h]
  exact ⟨Nat.lt_of_lt_of_le l.isLt (by simp [tableRow]), byte_and_high l⟩

theorem runZ (k : Nat) : Statement (.runZ k) := fun _ => by
  change (0 : Nat) < 2 ^ 16 ∧ 0 &&& 0xffff = 0
  decide

theorem trunc (k : Nat) : Statement (.trunc k) := fun _ => by
  change (0 : Nat) < 2 ^ 8 ∧ 0 &&& 0xff = 0
  decide

theorem eZero (k : Nat) : Statement (.eZero k) := fun _ => by
  change (Wires.ofToken (.byte 0x00#8)).tokenWord.toNat < 2 ^ 9 ∧
    (Wires.ofToken (.byte 0x00#8)).tokenWord.toNat &&& 0x1ff = 0
  decide

theorem eNz (k : Nat) (b : Byte) : Statement (.eNz k b) := fun _ => byteToken_word _ b

theorem eEnd (k : Nat) : Statement (.eEnd k) := fun _ => by
  change (Wires.ofToken .endOfInput).tokenWord.toNat < 2 ^ 9 ∧
    (Wires.ofToken .endOfInput).tokenWord.toNat &&& 0x100 = 0x100
  decide

theorem dLit (k : Nat) (b : Byte) : Statement (.dLit k b) := fun _ => byteToken_word _ b

theorem dMark (k : Nat) : Statement (.dMark k) := eZero k

theorem dLen (k : Nat) (l : Byte) : Statement (.dLen k l) := fun _ => byteToken_word _ l

theorem dEndOk (k : Nat) : Statement (.dEndOk k) := eEnd k

theorem dEndTrunc (k : Nat) : Statement (.dEndTrunc k) := eEnd k

theorem eStart (k : Nat) : Statement (.eStart k) := fun _ => by
  change (1 : Nat) < 2 ^ 2 ∧ 1 &&& 3 = 1
  decide

theorem dStart (k : Nat) : Statement (.dStart k) := eStart k

theorem reset (u : UnitId) : Statement (.reset u) := fun _ => by
  change (2 : Nat) < 2 ^ 2 ∧ 2 &&& 2 = 2
  decide

end Sys2Proof.Laws.MatchesRow
end

