-- ==== Sys2Proof/Laws/Step.lean ====
section
/-! SUPPORT. What a step can do to each unit, said once, and the induction that lifts a property of one unit's registers to
every step of the block. Later proofs cite `step_at_enc`, `step_at_dec` and `step_lift` and unfold no step. -/

namespace Sys2Proof.Machine

/-! ### The drain moves nothing but its own registers (R179) -/

@[simp] theorem Encoder.drain_phase (w : Wires) (e : Encoder) : (e.drain w).phase = e.phase := by
  unfold Encoder.drain; split <;> (try split) <;> rfl
@[simp] theorem Encoder.drain_runLen (w : Wires) (e : Encoder) : (e.drain w).runLen = e.runLen := by
  unfold Encoder.drain; split <;> (try split) <;> rfl
@[simp] theorem Encoder.drain_pos (w : Wires) (e : Encoder) : (e.drain w).pos = e.pos := by
  unfold Encoder.drain; split <;> (try split) <;> rfl
@[simp] theorem Encoder.drain_out (w : Wires) (e : Encoder) : (e.drain w).out = e.out := by
  unfold Encoder.drain; split <;> (try split) <;> rfl
@[simp] theorem Encoder.drain_inp (w : Wires) (e : Encoder) : (e.drain w).inp = e.inp := by
  unfold Encoder.drain; split <;> (try split) <;> rfl

@[simp] theorem Decoder.drain_phase (w : Wires) (d : Decoder) : (d.drain w).phase = d.phase := by
  unfold Decoder.drain; split <;> (try split) <;> rfl
@[simp] theorem Decoder.drain_pend (w : Wires) (d : Decoder) : (d.drain w).pend = d.pend := by
  unfold Decoder.drain; split <;> (try split) <;> rfl
@[simp] theorem Decoder.drain_pos (w : Wires) (d : Decoder) : (d.drain w).pos = d.pos := by
  unfold Decoder.drain; split <;> (try split) <;> rfl
@[simp] theorem Decoder.drain_out (w : Wires) (d : Decoder) : (d.drain w).out = d.out := by
  unfold Decoder.drain; split <;> (try split) <;> rfl
@[simp] theorem Decoder.drain_err (w : Wires) (d : Decoder) : (d.drain w).err = d.err := by
  unfold Decoder.drain; split <;> (try split) <;> rfl
@[simp] theorem Decoder.drain_inp (w : Wires) (d : Decoder) : (d.drain w).inp = d.inp := by
  unfold Decoder.drain; split <;> (try split) <;> rfl

/-- Outside DONE an edge without an operation changes no register (R179). -/
theorem Encoder.drain_idle {w : Wires} {e : Encoder} (h : e.phase ≠ .done) : e.drain w = e := by
  simp [Encoder.drain, offersResult, h]

/-- Outside DONE an edge without an operation changes no register (R179). -/
theorem Decoder.drain_idle {w : Wires} {d : Decoder} (h : d.phase ≠ .done) : d.drain w = d := by
  simp [Decoder.drain, offersResult, h]

/-- The drain keeps its own invariant: the read index stays within the result, and `End` is taken at its end. -/
theorem Encoder.drain_inv {w : Wires} {e : Encoder} (h : drainInv e.phase e.out.length e.rd e.rdEnd) :
    drainInv (e.drain w).phase (e.drain w).out.length (e.drain w).rd (e.drain w).rdEnd := by
  obtain ⟨h1, h2, h3⟩ := h
  by_cases hp : e.phase = .done
  · refine ⟨?_, fun hc => absurd (by simpa using hp) hc, ?_⟩ <;>
      (unfold Encoder.drain; split <;> (try split) <;> simp_all [offersResult] <;> omega)
  · rw [Encoder.drain_idle hp]; exact ⟨h1, h2, h3⟩

/-- The drain keeps its own invariant: the read index stays within the result, and `End` is taken at its end. -/
theorem Decoder.drain_inv {w : Wires} {d : Decoder} (h : drainInv d.phase d.out.length d.rd d.rdEnd) :
    drainInv (d.drain w).phase (d.drain w).out.length (d.drain w).rd (d.drain w).rdEnd := by
  obtain ⟨h1, h2, h3⟩ := h
  by_cases hp : d.phase = .done
  · refine ⟨?_, fun hc => absurd (by simpa using hp) hc, ?_⟩ <;>
      (unfold Decoder.drain; split <;> (try split) <;> simp_all [offersResult] <;> omega)
  · rw [Decoder.drain_idle hp]; exact ⟨h1, h2, h3⟩

/-- An edge without an operation changes no register of a unit that is not in DONE or makes no transfer (R179). -/
theorem drainEdge_still {u : UnitId} {w : Wires} {s : State} {c : Ctx} (hc : s.ctx u = some c)
    (h : c.phase ≠ .done ∨ w.outReady = false) : drainEdge u w s = .next s := by
  cases u with
  | enc k =>
    obtain ⟨e, he, rfl⟩ := Option.map_eq_some_iff.1 hc
    have hd : e.drain w = e := by rcases h with h | h <;> simp_all [Encoder.drain, offersResult]
    simp [drainEdge, onEnc, he, hd, State.setEnc_self he]
  | dec k =>
    obtain ⟨d, he, rfl⟩ := Option.map_eq_some_iff.1 hc
    have hd : d.drain w = d := by rcases h with h | h <;> simp_all [Decoder.drain, offersResult]
    simp [drainEdge, onDec, he, hd, State.setDec_self he]

/-- A step over an edge that selects no operation and makes no transfer leaves every register as it is. -/
theorem step_still {s : State} {u : UnitId} {w : Wires} {rest : List Input} {c : Ctx} {r : Reject}
    (hin : s.inputs = .edge u w :: rest) (hc : s.ctx u = some c) (hk : keepsOffer (s.waiting u) (.edge u w) = true)
    (hd : decode c (.edge u w) = .error r) (h : c.phase ≠ .done ∨ w.outReady = false) :
    step s = .next (s.advance u (Input.edge u w).offer rest) := by
  rw [step_edge hin hc hk hd, drainEdge_still (by simpa using hc) h]

/-! ### What a step over one input of a unit does, wherever the unit stands -/

/-- Recording again the token that waits changes nothing. -/
theorem State.setWaiting_self (u : UnitId) (s : State) : s.setWaiting u (s.waiting u) = s := by
  have set_join : ∀ (l : List (Option Token)) (k : Nat), l.set k (l[k]?).join = l := by
    intro l k
    apply List.ext_getElem?
    intro j
    rw [List.getElem?_set]
    split
    · subst j; split
      · rename_i h; simp [List.getElem?_eq_getElem h]
      · rename_i h; simp [List.getElem?_eq_none (by omega : l.length ≤ k)]
    · rfl
  cases u <;> simp [State.setWaiting, State.waiting, set_join]

/-- Taking another input list first makes no difference to what is left. -/
@[simp] theorem State.setInputs_advance (u : UnitId) (o : Option Token) (l m : List Input) (s : State) :
    (s.setInputs m).advance u o l = s.advance u o l := by cases u <;> rfl

/-- A step over an input of encoder `k` is a function of that encoder, its waiting token and the parameters alone: it answers
in every state that agrees there, and does the same. -/
theorem step_over_enc {s t : State} {x : Input} {r : List Input} {k : Nat} (hu : x.unit = .enc k)
    (h : step (s.setInputs (x :: r)) = .next t) :
    ∃ e o left, ∀ (s' : State) (r' : List Input), s'.cfg = s.cfg → s'.encs[k]? = s.encs[k]? →
      s'.waiting (.enc k) = s.waiting (.enc k) →
      step (s'.setInputs (x :: r')) = .next ((s'.advance (.enc k) o (left ++ r')).setEnc k e) := by
  cases x with
  | stream j c => simp [Input.unit] at hu
  | edge u w =>
    obtain rfl : u = .enc k := hu
    cases he : s.encs[k]? with
    | none => simp [step, fetch, runFetched, State.ctx, Input.unit, he] at h
    | some e =>
      have ctx : ∀ s' : State, s'.encs[k]? = some e → ∀ l, (s'.setInputs l).ctx (.enc k) = some ⟨e.phase, false⟩ := by
        intro s' h l; simp [State.ctx, h]
      by_cases hk : keepsOffer (s.waiting (.enc k)) (.edge (.enc k) w) = true
      · cases hd : decode ⟨e.phase, false⟩ (.edge (.enc k) w) with
        | error q =>
          refine ⟨e.drain w, (Input.edge (.enc k) w).offer, [], fun s' r' _ he' hw' => ?_⟩
          rw [step_edge (State.setInputs_inputs _ _) (ctx s' he' _) (by simpa [hw'] using hk) hd]
          simp [drainEdge, onEnc, he']
        | ok p =>
          obtain ⟨i, left⟩ := p
          have hi : i.unit = .enc k := decode_unit hd
          rw [step_op (inp := .edge (.enc k) w) (State.setInputs_inputs _ _) (ctx s he _) hk hd,
            exec_enc hi (by simpa using he)] at h
          cases hl : encLocal s.cfg i e with
          | error q => simp [hl, liftEnc] at h
          | ok e' =>
            refine ⟨e', waitingAfter i (.edge (.enc k) w), left, fun s' r' hc' he' hw' => ?_⟩
            rw [step_op (inp := .edge (.enc k) w) (State.setInputs_inputs _ _) (ctx s' he' _)
                (by simpa [Input.unit, hw'] using hk) hd,
              exec_enc hi (by simpa using he')]
            simp [hc', hl, liftEnc, Input.unit]
      · rw [step_brokenOffer (inp := .edge (.enc k) w) (State.setInputs_inputs _ _) (ctx s he _)
          (by simpa [Input.unit] using hk)] at h
        simp at h

/-- A step over an input of decoder `k` is a function of that decoder, its waiting token and the parameters alone: it answers
in every state that agrees there, and does the same. -/
theorem step_over_dec {s t : State} {x : Input} {r : List Input} {k : Nat} (hu : x.unit = .dec k)
    (h : step (s.setInputs (x :: r)) = .next t) :
    ∃ d o left, ∀ (s' : State) (r' : List Input), s'.cfg = s.cfg → s'.decs[k]? = s.decs[k]? →
      s'.waiting (.dec k) = s.waiting (.dec k) →
      step (s'.setInputs (x :: r')) = .next ((s'.advance (.dec k) o (left ++ r')).setDec k d) := by
  cases he : s.decs[k]? with
  | none => simp [step, fetch, runFetched, State.ctx, hu, he] at h
  | some d =>
    have ctx : ∀ s' : State, s'.decs[k]? = some d → ∀ l, (s'.setInputs l).ctx (.dec k) = some ⟨d.phase, d.pend⟩ := by
      intro s' h l; simp [State.ctx, h]
    by_cases hk : keepsOffer (s.waiting (.dec k)) x = true
    · cases hd : decode ⟨d.phase, d.pend⟩ x with
      | error q =>
        cases x with
        | edge u w =>
          obtain rfl : u = .dec k := hu
          refine ⟨d.drain w, (Input.edge (.dec k) w).offer, [], fun s' r' _ he' hw' => ?_⟩
          rw [step_edge (State.setInputs_inputs _ _) (ctx s' he' _) (by simpa [hw'] using hk) hd]
          simp [drainEdge, onDec, he']
        | stream j c =>
          refine ⟨d, s.waiting (.dec k), [.stream j c], fun s' r' _ he' hw' => ?_⟩
          have hs : step (s'.setInputs (.stream j c :: r')) = .next (s'.setInputs (.stream j c :: r')) := by
            simp [step, fetch, ctx s' he', hu, hw', hk, hd, runFetched]
          rw [hs, ← hw', State.advance, State.setWaiting_self, State.setDec_self (by simpa using he')]
          rfl
      | ok p =>
        obtain ⟨i, left⟩ := p
        have hi : i.unit = .dec k := (decode_unit hd).trans hu
        rw [step_op (State.setInputs_inputs _ _) (by rw [hu]; exact ctx s he _) (by simpa [hu] using hk) hd,
          exec_dec hi (by simpa using he)] at h
        cases hl : decLocal s.cfg i d with
        | error q => simp [hl, liftDec] at h
        | ok d' =>
          refine ⟨d', waitingAfter i x, left, fun s' r' hc' he' hw' => ?_⟩
          rw [step_op (State.setInputs_inputs _ _) (by rw [hu]; exact ctx s' he' _) (by simpa [hu, hw'] using hk) hd,
            exec_dec hi (by simpa using he')]
          simp [hc', hl, liftDec, hu]
    · rw [step_brokenOffer (State.setInputs_inputs _ _) (by rw [hu]; exact ctx s he _) (by simpa [hu] using hk)] at h
      simp at h

/-! ### A step, unit by unit -/

/-- What a step did to encoder `k`: nothing, an edge of its own drain, or the operation that the next input selects in it. -/
theorem step_at_enc {s t : State} (h : step s = .next t) {k : Nat} {e e' : Encoder} (he : s.encs[k]? = some e)
    (he' : t.encs[k]? = some e') :
    e' = e ∨ (∃ w rest, s.inputs = .edge (.enc k) w :: rest ∧ e' = e.drain w) ∨
      ∃ inp rest i left, s.inputs = inp :: rest ∧ decode ⟨e.phase, false⟩ inp = .ok (i, left) ∧ i.unit = .enc k ∧
        encLocal s.cfg i e = .ok e' := by
  rcases step_cases h with rfl | ⟨u, w, rest, hin, _, hd⟩ | ⟨inp, rest, left, c, i, hin, _, hc, hdec, hx⟩
  · exact .inl (by simpa [he] using he'.symm)
  · rcases drainEdge_next hd with ⟨j, f, rfl, hf, rfl⟩ | ⟨j, f, rfl, hf, rfl⟩
    · by_cases hj : j = k
      · subst hj
        rw [State.setEnc_get hf] at he'
        obtain rfl : f = e := by simpa [he] using hf.symm
        exact .inr (.inl ⟨w, rest, hin, by simpa using he'.symm⟩)
      · rw [State.setEnc_get_ne hj, State.advance_encs, he] at he'
        exact .inl (by simpa using he'.symm)
    · exact .inl (by simpa [he] using he'.symm)
  · rcases exec_next_at_enc hx (by simpa using he) he' with ⟨_, h⟩ | ⟨hu, hl⟩
    · exact .inl h
    · rw [← decode_unit hdec, hu] at hc
      obtain rfl : ⟨e.phase, false⟩ = c := by simpa [State.ctx, he] using hc
      exact .inr (.inr ⟨inp, rest, i, left, hin, hdec, hu, by simpa using hl⟩)

/-- What a step did to decoder `k`: nothing, an edge of its own drain, or the operation that the next input selects in it. -/
theorem step_at_dec {s t : State} (h : step s = .next t) {k : Nat} {d d' : Decoder} (hd : s.decs[k]? = some d)
    (hd' : t.decs[k]? = some d') :
    d' = d ∨ (∃ w rest, s.inputs = .edge (.dec k) w :: rest ∧ d' = d.drain w) ∨
      ∃ inp rest i left, s.inputs = inp :: rest ∧ decode ⟨d.phase, d.pend⟩ inp = .ok (i, left) ∧ i.unit = .dec k ∧
        decLocal s.cfg i d = .ok d' := by
  rcases step_cases h with rfl | ⟨u, w, rest, hin, _, he⟩ | ⟨inp, rest, left, c, i, hin, _, hc, hdec, hx⟩
  · exact .inl (by simpa [hd] using hd'.symm)
  · rcases drainEdge_next he with ⟨j, f, rfl, hf, rfl⟩ | ⟨j, f, rfl, hf, rfl⟩
    · exact .inl (by simpa [hd] using hd'.symm)
    · by_cases hj : j = k
      · subst hj
        rw [State.setDec_get hf] at hd'
        obtain rfl : f = d := by simpa [hd] using hf.symm
        exact .inr (.inl ⟨w, rest, hin, by simpa using hd'.symm⟩)
      · rw [State.setDec_get_ne hj, State.advance_decs, hd] at hd'
        exact .inl (by simpa using hd'.symm)
  · rcases exec_next_at_dec hx (by simpa using hd) hd' with ⟨_, h⟩ | ⟨hu, hl⟩
    · exact .inl h
    · rw [← decode_unit hdec, hu] at hc
      obtain rfl : ⟨d.phase, d.pend⟩ = c := by simpa [State.ctx, hd] using hc
      exact .inr (.inr ⟨inp, rest, i, left, hin, hdec, hu, by simpa using hl⟩)

/-- No step changes the parameters or the number of units. -/
theorem step_shape {s t : State} (h : step s = .next t) :
    t.cfg = s.cfg ∧ t.encs.length = s.encs.length ∧ t.decs.length = s.decs.length ∧
      t.encWaiting.length = s.encWaiting.length ∧ t.decWaiting.length = s.decWaiting.length := by
  rcases step_cases h with rfl | ⟨u, w, rest, _, _, hd⟩ | ⟨inp, rest, left, c, i, _, _, _, _, hx⟩
  · simp
  · rcases drainEdge_next hd with ⟨j, f, rfl, hf, rfl⟩ | ⟨j, f, rfl, hf, rfl⟩ <;> simp
  · cases hu : i.unit with
    | enc k => obtain ⟨_, _, _, _, rfl⟩ := exec_next_enc hu hx; simp
    | dec k => obtain ⟨_, _, _, _, rfl⟩ := exec_next_dec hu hx; simp

/-- A property of one unit's registers that the drain and every operation of the unit keep is kept in every unit by every
step. -/
theorem step_lift {s t : State} (h : step s = .next t) {P : Encoder → Prop} {Q : Decoder → Prop}
    (hP : ∀ e ∈ s.encs, P e) (hQ : ∀ d ∈ s.decs, Q d)
    (encDrain : ∀ e w, P e → P (e.drain w))
    (encOp : ∀ i k e e', i.unit = .enc k → encLocal s.cfg i e = .ok e' → P e → P e')
    (decDrain : ∀ d w, Q d → Q (d.drain w))
    (decOp : ∀ i k d d', i.unit = .dec k → decLocal s.cfg i d = .ok d' → Q d → Q d') :
    (∀ e ∈ t.encs, P e) ∧ (∀ d ∈ t.decs, Q d) := by
  obtain ⟨_, l1, l2, _⟩ := step_shape h
  constructor
  · intro e' he'
    obtain ⟨k, hk, rfl⟩ := List.mem_iff_getElem.1 he'
    have hp := hP _ (List.getElem_mem (by omega : k < s.encs.length))
    rcases step_at_enc h (List.getElem?_eq_getElem (by omega)) (List.getElem?_eq_getElem hk) with
      h | ⟨w, _, _, h⟩ | ⟨_, _, i, _, _, _, hu, hl⟩
    · rw [h]; exact hp
    · rw [h]; exact encDrain _ _ hp
    · exact encOp i k _ _ hu hl hp
  · intro d' hd'
    obtain ⟨k, hk, rfl⟩ := List.mem_iff_getElem.1 hd'
    have hq := hQ _ (List.getElem_mem (by omega : k < s.decs.length))
    rcases step_at_dec h (List.getElem?_eq_getElem (by omega)) (List.getElem?_eq_getElem hk) with
      h | ⟨w, _, _, h⟩ | ⟨_, _, i, _, _, _, hu, hl⟩
    · rw [h]; exact hq
    · rw [h]; exact decDrain _ _ hq
    · exact decOp i k _ _ hu hl hq

end Sys2Proof.Machine
end

