-- ==== Sys2Proof/Tests/Slice0.lean ====
section
/-! SUPPORT. The model's own tests: the checks of WellFormed, decoding of words written out from 30_encoding.md, single steps
whose results are the lines of 95_test_vectors.md, and for every statement with hypotheses a concrete state and operands that
meet them all. -/

namespace Sys2Proof.Tests

open Sys2Proof.Machine Sys2Proof.HexBoundary

/-! ### Helpers -/

/-- The next state of an outcome. -/
def stateOf : Outcome → Option State
  | .next s => some s
  | .fault _ => none
  | .refused _ => none

/-- The refusal of an outcome. -/
def refusalOf : Outcome → Option Refusal
  | .next _ => none
  | .fault _ => none
  | .refused r => some r

/-- The block after reset with `e` as its encoder. -/
def encAt (e : Encoder) : State := { State.reset with encs := [e] }

/-- The block after reset with `d` as its decoder. -/
def decAt (d : Decoder) : State := { State.reset with decs := [d] }

/-- An encoder: phase, `run_len`, `pos`, `out`, consumed input. -/
def enc (p : Phase) (r : Byte) (pos : Nat) (o i : Bytes) : Encoder := ⟨p, r, pos, o, i, 0, false⟩

/-- A decoder: phase, `pend`, `pos`, `out`, `err`, consumed input. -/
def dec (p : Phase) (pend : Bool) (pos : Nat) (o : Bytes) (k : ErrCode) (i : Bytes) : Decoder :=
  ⟨p, pend, pos, o, k, i, 0, false⟩

/-- `run_len`, `out` and phase of encoder 0 after an instruction (the columns of table 2.2). -/
def encAfter (i : Instr) (e : Encoder) : Option (Option (Byte × Bytes × Phase)) :=
  (stateOf (exec i (encAt e))).map fun t => (t.encs[0]?).map fun e => (e.runLen, e.out, e.phase)

/-- `pend`, `out`, `err` and phase of decoder 0 after an instruction (the columns of table 2.4). -/
def decAfter (i : Instr) (d : Decoder) : Option (Option (Bool × Bytes × ErrCode × Phase)) :=
  (stateOf (exec i (decAt d))).map fun t => (t.decs[0]?).map fun d => (d.pend, d.out, d.err, d.phase)

/-- The cursor of decoder 0 after an instruction. -/
def decPosAfter (i : Instr) (d : Decoder) : Option (Option Nat) :=
  (stateOf (exec i (decAt d))).map fun t => (t.decs[0]?).map Decoder.pos

/-! ### WellFormed refuses ill-formed terms (R94: "the constraint `b != 0x00`") -/

theorem test_wellFormed_lit : (Instr.lit 0 0x00#8).wellFormed = false ∧ (Instr.lit 0 0x01#8).wellFormed = true := by decide
theorem test_wellFormed_run : (Instr.run 0 0x00#8).wellFormed = false ∧ (Instr.run 0 0x01#8).wellFormed = true := by decide
theorem test_wellFormed_eNz : (Instr.eNz 0 0x00#8).wellFormed = false ∧ (Instr.eNz 0 0xff#8).wellFormed = true := by decide
theorem test_wellFormed_dLit : (Instr.dLit 0 0x00#8).wellFormed = false ∧ (Instr.dLit 0 0xff#8).wellFormed = true := by decide

/-! ### Decoding of written-out words (R81, R82, R87, R88, R94, R177) -/

theorem test_decode_lit : decode ⟨.run, false⟩ (.stream 0 [0b10000001#8]) = .ok (.lit 0 0x81#8, [.stream 0 []]) := by rfl
theorem test_decode_run :
    decode ⟨.run, false⟩ (.stream 0 [0b00000000#8, 0b11111110#8, 0x00#8]) = .ok (.run 0 0xfe#8, [.stream 0 [0x00#8]]) := by rfl
/-- R85's own example: `00 00 05` is `RUN 0` and then `LIT 0x05`. -/
theorem test_decode_runZ :
    decode ⟨.run, false⟩ (.stream 0 [0x00#8, 0x00#8, 0x05#8]) = .ok (.runZ 0, [.stream 0 [0x05#8]]) := by rfl
theorem test_decode_trunc : decode ⟨.run, false⟩ (.stream 0 [0x00#8]) = .ok (.trunc 0, []) := by rfl
theorem test_decode_eZero : Token.ofWord 0b000000000#9 = .byte 0x00#8 ∧
    selectToken (.enc 0) false (Token.ofWord 0b000000000#9) = .eZero 0 := by decide
theorem test_decode_eNz : selectToken (.enc 0) false (Token.ofWord 0b010000001#9) = .eNz 0 0x81#8 := by decide
theorem test_decode_eEnd : selectToken (.enc 0) false (Token.ofWord 0b101010101#9) = .eEnd 0 := by decide
theorem test_decode_dLit : selectToken (.dec 0) false (Token.ofWord 0b011111111#9) = .dLit 0 0xff#8 := by decide
theorem test_decode_dMark : selectToken (.dec 0) false (Token.ofWord 0b000000000#9) = .dMark 0 := by decide
theorem test_decode_dLen : selectToken (.dec 0) true (Token.ofWord 0b000000000#9) = .dLen 0 0x00#8 ∧
    selectToken (.dec 0) true (Token.ofWord 0b011111111#9) = .dLen 0 0xff#8 := by decide
theorem test_decode_dEndOk : selectToken (.dec 0) false (Token.ofWord 0b100000000#9) = .dEndOk 0 := by decide
theorem test_decode_dEndTrunc : selectToken (.dec 0) true (Token.ofWord 0b111111111#9) = .dEndTrunc 0 := by decide
theorem test_decode_eStart : decodeControl (.enc 0) 0b01#2 = .ok (.eStart 0) := by rfl
theorem test_decode_dStart : decodeControl (.dec 0) 0b01#2 = .ok (.dStart 0) := by rfl
theorem test_decode_reset :
    decodeControl (.dec 0) 0b10#2 = .ok (.reset (.dec 0)) ∧ decodeControl (.enc 0) 0b11#2 = .ok (.reset (.enc 0)) :=
  ⟨rfl, rfl⟩

/-! ### Table words and the state that runs them (log 13) -/

theorem test_tableWord_symbols : decodeTableWord 8 0xff = some (.lit 0 0xff#8) ∧ decodeTableWord 8 0x00 = some (.trunc 0) ∧
    decodeTableWord 16 0x0004 = some (.run 0 0x04#8) ∧ decodeTableWord 16 0x0000 = some (.runZ 0) := by decide
theorem test_tableWord_tokens : decodeTableWord 9 0x000 = some (.eZero 0) ∧ decodeTableWord 9 0x081 = some (.eNz 0 0x81#8) ∧
    decodeTableWord 9 0x100 = some (.eEnd 0) ∧ decodeTableWord 2 0b01 = some (.eStart 0) ∧
    decodeTableWord 2 0b10 = some (.reset (.enc 0)) := by decide
theorem test_withFetchWord_run :
    (stateOf (step (State.reset.withFetchWord 16 0x0004))).map (fun t => t.decs.map Decoder.out) =
      some [[0x00#8, 0x00#8, 0x00#8, 0x00#8]] := by decide
theorem test_withFetchWord_start :
    (stateOf (step (State.reset.withFetchWord 2 0b01))).map (fun t => t.encs.map Encoder.phase) = some [.run] := by decide

/-! ### Single steps (95_test_vectors.md) -/

/-- ES3: the 255th zero writes no marker. -/
theorem test_eZero_ES3 : encAfter (.eZero 0) (enc .run 0xfe#8 0 [] []) = some (some (0xff#8, [], .run)) := by decide
/-- ES5: rollover. -/
theorem test_eZero_ES5 : encAfter (.eZero 0) (enc .run 0xff#8 0 [0xaa#8, 0x00#8, 0xff#8] []) =
    some (some (0x01#8, [0xaa#8, 0x00#8, 0xff#8, 0x00#8, 0xff#8], .run)) := by decide
/-- ES7: the marker, marker byte first, then the literal. -/
theorem test_eNz_ES7 : encAfter (.eNz 0 0xbb#8) (enc .run 0x03#8 0 [0xaa#8] []) =
    some (some (0x00#8, [0xaa#8, 0x00#8, 0x03#8, 0xbb#8], .run)) := by decide
/-- ES6: no marker when nothing is pending. -/
theorem test_eNz_ES6 : encAfter (.eNz 0 0x01#8) (enc .run 0x00#8 0 [] []) = some (some (0x00#8, [0x01#8], .run)) := by decide
/-- ES10: the trailing run is flushed. -/
theorem test_eEnd_ES10 : encAfter (.eEnd 0) (enc .run 0x04#8 0 [0xff#8] []) =
    some (some (0x00#8, [0xff#8, 0x00#8, 0x04#8], .done)) := by decide
/-- ES9: nothing is pending. -/
theorem test_eEnd_ES9 : encAfter (.eEnd 0) (enc .run 0x00#8 0 [0xaa#8] []) = some (some (0x00#8, [0xaa#8], .done)) := by
  decide
/-- DS1. -/
theorem test_dLit_DS1 : decAfter (.dLit 0 0x7f#8) (dec .run false 0 [] .noError []) =
    some (some (false, [0x7f#8], .noError, .run)) := by decide
/-- DS2: nothing is appended. -/
theorem test_dMark_DS2 : decAfter (.dMark 0) (dec .run false 0 [0xaa#8] .noError []) =
    some (some (true, [0xaa#8], .noError, .run)) := by decide
/-- DS3. -/
theorem test_dLen_DS3 : decAfter (.dLen 0 0x03#8) (dec .run true 0 [0xaa#8] .noError []) =
    some (some (false, [0xaa#8, 0x00#8, 0x00#8, 0x00#8], .noError, .run)) := by decide
/-- DS4: a length byte 0x00 is a length and no second marker. -/
theorem test_dLen_DS4 : decAfter (.dLen 0 0x00#8) (dec .run true 0 [0xaa#8] .noError []) =
    some (some (false, [0xaa#8], .noError, .run)) := by decide
/-- DS7. -/
theorem test_dEndOk_DS7 : decAfter (.dEndOk 0) (dec .run false 0 [0xaa#8, 0xbb#8] .noError []) =
    some (some (false, [0xaa#8, 0xbb#8], .noError, .done)) := by decide
/-- DS9: the bytes already in the buffer are discarded. -/
theorem test_dEndTrunc_DS9 : decAfter (.dEndTrunc 0) (dec .run true 0 [0xaa#8, 0xbb#8] .noError []) =
    some (some (false, [], .truncatedMarker, .fail)) := by decide
/-- P1 step 1. -/
theorem test_lit_P1 : decAfter (.lit 0 0xff#8) (dec .run false 0 [] .noError []) =
    some (some (false, [0xff#8], .noError, .run)) := by decide
/-- P1 steps 2 and 3 as one: "a single step `RUN 4` taking `pos` from 1 to 3". -/
theorem test_run_P1 : decPosAfter (.run 0 0x04#8) (dec .run false 1 [0xff#8] .noError [0xff#8]) = some (some 3) ∧
    decAfter (.run 0 0x04#8) (dec .run false 1 [0xff#8] .noError [0xff#8]) =
      some (some (false, [0xff#8, 0x00#8, 0x00#8, 0x00#8, 0x00#8], .noError, .run)) := by decide
/-- P6 steps 1 and 2 as one. -/
theorem test_runZ_P6 : decPosAfter (.runZ 0) (dec .run false 0 [] .noError []) = some (some 2) ∧
    decAfter (.runZ 0) (dec .run false 0 [] .noError []) = some (some (false, [], .noError, .run)) := by decide
/-- P3 steps 4 and 5 as one. -/
theorem test_trunc_P3 : decPosAfter (.trunc 0) (dec .run false 3 [0x01#8, 0x00#8, 0x00#8] .noError []) = some (some 4) ∧
    decAfter (.trunc 0) (dec .run false 3 [0x01#8, 0x00#8, 0x00#8] .noError []) =
      some (some (false, [], .truncatedMarker, .fail)) := by decide
/-- T4: the earlier result is gone. -/
theorem test_eStart_T4 : encAfter (.eStart 0) (enc .done 0x00#8 5 [0x00#8, 0x04#8, 0xff#8] []) =
    some (some (0x00#8, [], .run)) := by decide
/-- T5: START in RUN is ignored. -/
theorem test_eStart_T5 : encAfter (.eStart 0) (enc .run 0x07#8 0 [0xaa#8] []) = some (some (0x07#8, [0xaa#8], .run)) := by
  decide
/-- T3: `err` is cleared. -/
theorem test_dStart_T3 : decAfter (.dStart 0) (dec .fail false 1 [] .truncatedMarker []) =
    some (some (false, [], .noError, .run)) := by decide
/-- T7: reset in the middle of a transaction. -/
theorem test_reset_T7 : encAfter (.reset (.enc 0)) (enc .run 0xc8#8 300 [0x01#8, 0x02#8] []) =
    some (some (0x00#8, [], .idle)) := by decide
/-- T8: no FAIL. -/
theorem test_reset_T8 : decAfter (.reset (.dec 0)) (dec .run true 1 [] .noError []) =
    some (some (false, [], .noError, .idle)) := by decide
/-- T9: the status and the result of a failed decoder, and nothing on its result channel. -/
theorem test_status_T9 : (dec .fail false 1 [] .truncatedMarker []).status = 0x07#8 ∧
    (dec .fail false 1 [] .truncatedMarker []).result = some (.err .truncatedMarker) ∧
    ((dec .fail false 1 [] .truncatedMarker []).outputs true).outValid = false := by decide
/-- T6: a token offered in DONE is not consumed; it waits (R172). -/
theorem test_token_waits_T6 :
    (stateOf (step ((decAt (dec .done false 1 [0x01#8] .noError [0x01#8])).setInputs [tokenEdge (.dec 0) (.byte 0x01#8)]))) =
      some ((decAt (dec .done false 1 [0x01#8] .noError [0x01#8])).setWaiting (.dec 0) (some (.byte 0x01#8))) := by decide
/-- R178, R181, R226: Byte(1) is offered and not taken; Byte(2) in its place is refused, Byte(1) again is taken. -/
theorem test_offer_must_be_kept :
    refusalOf (step (((decAt (dec .run false 0 [] .noError [])).setWaiting (.dec 0) (some (.byte 0x01#8))).setInputs
      [tokenEdge (.dec 0) (.byte 0x02#8)])) = some .offerNotKept ∧
    (stateOf (step (((decAt (dec .run false 0 [] .noError [])).setWaiting (.dec 0) (some (.byte 0x01#8))).setInputs
      [tokenEdge (.dec 0) (.byte 0x01#8)]))) = some (decAt (dec .run false 1 [0x01#8] .noError [0x01#8])) := by decide
/-- R178: a token offered in RUN at an edge with `in_ready = 0` waits, and the registers stay. -/
theorem test_token_not_ready_waits :
    (stateOf (step ((decAt (dec .run false 0 [] .noError [])).setInputs
      [.edge (.dec 0) { inValid := true, inData := 0x01#8, ready := false }]))) =
      some ((decAt (dec .run false 0 [] .noError [])).setWaiting (.dec 0) (some (.byte 0x01#8))) := by decide
/-- T10: the bytes of the result in index order, then `End`. -/
theorem test_drain_T10 :
    ((enc .done 0x00#8 5 [0xff#8, 0x00#8, 0x04#8] []).outputs true).outData = some 0xff#8 ∧
    (({ enc .done 0x00#8 5 [0xff#8, 0x00#8, 0x04#8] [] with rd := 2 } : Encoder).outputs true).outData = some 0x04#8 ∧
    (({ enc .done 0x00#8 5 [0xff#8, 0x00#8, 0x04#8] [] with rd := 3 } : Encoder).outputs true).outEnd = true := by decide
/-- R179, D10: a byte not taken is offered again; it is transferred at an edge with `out_ready`, also where `in_ready` would be 0
in RUN. -/
theorem test_drain_holds_the_byte :
    (stateOf (step ((encAt (enc .done 0x00#8 1 [0x05#8] [])).setInputs [.edge (.enc 0) { outReady := false }]))) =
      some (encAt (enc .done 0x00#8 1 [0x05#8] [])) ∧
    (stateOf (step ((encAt (enc .done 0x00#8 1 [0x05#8] [])).setInputs
      [.edge (.enc 0) { ready := false, outReady := true }]))) =
      some (encAt { enc .done 0x00#8 1 [0x05#8] [] with rd := 1 }) := by decide
/-- R240, R178: reset beats START and a token, START beats a token. -/
theorem test_edge_priority :
    decodeEdge ⟨.idle, false⟩ (.enc 0) { rst := true, start := true, inValid := true } = .ok (.reset (.enc 0)) ∧
    decodeEdge ⟨.idle, false⟩ (.enc 0) { start := true, inValid := true, inData := 0x05#8 } = .ok (.eStart 0) :=
  ⟨rfl, rfl⟩
/-- R58: an output buffer of `OUT_CAP = 2` bytes does not take a third. -/
theorem test_outCap_refused :
    refusalOf (exec (.dLit 0 0x01#8)
      { decAt (dec .run false 2 [0x01#8, 0x02#8] .noError []) with cfg := { Params.default with outCap := some 2 } }) =
      some .outCapExceeded := by decide

/-! ### The functions and the hex boundary (95_test_vectors.md) -/

/-- E14. -/
theorem test_encode_E14 : Codec.encode [0x01#8, 0x00#8, 0x00#8, 0x02#8, 0x00#8, 0x00#8, 0x00#8, 0x03#8] =
    [0x01#8, 0x00#8, 0x02#8, 0x02#8, 0x00#8, 0x03#8, 0x03#8] := by decide
/-- D16, D19, DZ3. -/
theorem test_decode_D16_D19_DZ3 :
    Codec.decode [0x00#8, 0x03#8, 0x00#8, 0x00#8, 0x07#8] = .ok [0x00#8, 0x00#8, 0x00#8, 0x07#8] ∧
    Codec.decode [0x00#8, 0x01#8, 0x00#8] = .err .truncatedMarker ∧
    Codec.decode [0x00#8, 0x00#8, 0x00#8] = .err .truncatedMarker := by decide
/-- K4, K5, K7, K9. -/
theorem test_classes_K4_K5_K7_K9 : Codec.canonical [0x00#8, 0xff#8, 0x00#8, 0x05#8] = true ∧
    Codec.canonical [0x00#8, 0x05#8, 0x00#8, 0xff#8] = false ∧
    Codec.canonical [0x00#8, 0x02#8, 0x01#8, 0x00#8, 0x03#8] = true ∧
    Codec.wellFormed [0x00#8, 0xff#8, 0x00#8, 0x00#8] = false := by decide
/-- Z2, Z4, Z6. -/
theorem test_zeros_Z2_Z4_Z6 : Codec.markers 1 = [0x00#8, 0x01#8] ∧ Codec.markers 256 = [0x00#8, 0xff#8, 0x00#8, 0x01#8] ∧
    Codec.markers 515 = [0x00#8, 0xff#8, 0x00#8, 0xff#8, 0x00#8, 0x05#8] := by decide
/-- X2, X4. -/
theorem test_hex_X2_X4 : encodeHex Params.default "ff00000000".toList = .ok "ff0004".toList ∧
    decodeHex Params.default "00".toList = .err .truncatedMarker := by decide
/-- X5, X7, X9 with `HEX_ACCEPT_UPPER` false. -/
theorem test_hex_X5_X7_X9 : decodeHex Params.default "0".toList = .err .malformedHex ∧
    encodeHex Params.default "0x00".toList = .err .malformedHex ∧
    encodeHex { Params.default with hexAcceptUpper := false } "FF00".toList = .err .malformedHex := by decide

/-! ### Witnesses: states and operands that meet the hypotheses of each statement, clause by clause, at boundary values -/

/-- An encoder in RUN. -/
def eRun (r : Byte) (o : Bytes) : Encoder := enc .run r 0 o []

/-- A decoder in RUN. -/
def dRun (pend : Bool) (o : Bytes) : Decoder := dec .run pend 0 o .noError []

/-- A state whose next input is `inp`. -/
def facing (s : State) (inp : Input) : State := s.setInputs [inp]

/-- `exec` answers exactly this next state. -/
abbrev Next (i : Instr) (s t : State) : Prop := stateOf (exec i s) = some t

/-- `step` answers exactly this next state. -/
abbrev Steps (s t : State) : Prop := stateOf (step s) = some t

/-- `Next` is the hypothesis the statements write. -/
theorem next_of_stateOf {o : Outcome} {t : State} (h : stateOf o = some t) : o = .next t := by
  cases o <;> simp_all [stateOf]

theorem witness_StepRunsDecodedInstruction :
    keepsOffer ((facing (decAt (dRun false [])) (.stream 0 [0x00#8, 0x04#8])).waiting (.dec 0))
      (.stream 0 [0x00#8, 0x04#8]) = true ∧
    (facing (decAt (dRun false [])) (.stream 0 [0x00#8, 0x04#8])).inputs = [.stream 0 [0x00#8, 0x04#8]] ∧
    (decAt (dRun false [])).ctx (.dec 0) = some ⟨.run, false⟩ ∧
    decode ⟨.run, false⟩ (.stream 0 [0x00#8, 0x04#8]) = .ok (.run 0 0x04#8, [.stream 0 []]) := ⟨rfl, rfl, rfl, rfl⟩

theorem witness_PatternUnitAndStateSelectTheOperation :
    (∀ b ∈ [0x00#8, 0x01#8, 0xff#8], ∀ e : Bool, ({ inValid := true, inEnd := e, inData := b } : Wires).rst = false ∧
      ({ inValid := true, inEnd := e, inData := b } : Wires).start = false ∧
      ({ inValid := true, inEnd := e, inData := b } : Wires).ready = true) ∧
    (∀ p ∈ [Phase.idle, .done, .fail], p ≠ .run ∧ ({ start := true } : Wires).rst = false) ∧
    ({ rst := true, start := true, inValid := true } : Wires).rst = true := by decide

theorem witness_DecodeOfEncodeIsTheInstruction :
    (∀ i ∈ [Instr.lit 0 0x01#8, .lit 1 0xff#8, .run 0 0x01#8, .run 0 0xff#8, .runZ 0, .trunc 0, .eZero 0, .eNz 0 0xff#8,
      .eEnd 0, .dLit 0 0x01#8, .dMark 0, .dLen 0 0x00#8, .dLen 0 0xff#8, .dEndOk 0, .dEndTrunc 0, .eStart 0, .dStart 0,
      .reset (.enc 0)], i.wellFormed = true) ∧ (0x01#8 ≠ 0x00#8 ∧ 0xff#8 ≠ 0x00#8) := by decide

theorem witness_EveryWellFormedInstructionIsFetched :
    ∀ i ∈ [Instr.lit 0 0x01#8, .run 0 0xff#8, .trunc 0, .eNz 0 0xff#8, .dEndTrunc 0, .eStart 0, .reset (.dec 0)],
      i.wellFormed = true ∧ (State.reset.ctx i.unit).isSome = true := by decide

theorem witness_ParsingIsUniqueAndGreedy :
    ∀ b, Codec.Sym.lit b ∈ [Codec.Sym.run 0x00#8, .lit 0x01#8, .lit 0xff#8, .run 0xff#8] → b ≠ 0x00#8 := by
  intro b h
  simp only [List.mem_cons, reduceCtorEq, Codec.Sym.lit.injEq, List.not_mem_nil, or_false, false_or] at h
  rcases h with rfl | rfl <;> decide

theorem witness_ResetAndStartValues :
    State.reset.encs ≠ [] ∧ State.reset.decs ≠ [] ∧
    (∀ p ∈ [Phase.idle, .done], (encAt (enc p 0x00#8 3 [0x05#8] [])).encs[0]? = some (enc p 0x00#8 3 [0x05#8] []) ∧
      (enc p 0x00#8 3 [0x05#8] []).phase ≠ .run) ∧
    (∀ p ∈ [Phase.idle, .done, .fail], (decAt (dec p false 3 [] .truncatedMarker [])).decs[0]? =
      some (dec p false 3 [] .truncatedMarker []) ∧ (dec p false 3 [] .truncatedMarker []).phase ≠ .run) := by decide

theorem witness_ResetWinsFromEveryPhase :
    (encAt (eRun 0x07#8 [])).encs[0]? = some (eRun 0x07#8 []) ∧ (decAt (dRun true [])).decs[0]? = some (dRun true []) ∧
    (facing (encAt (eRun 0x07#8 [])) (.edge (.enc 0) { rst := true, start := true, inValid := true })).inputs =
      [.edge (.enc 0) { rst := true, start := true, inValid := true }] ∧
    Encoder.reset.phase = .idle ∧ Decoder.reset.phase = .idle ∧
    (∀ u ∈ [UnitId.enc 0, .dec 0], keepsOffer (State.reset.waiting u) (.edge u { inValid := true }) = true) ∧
    ({ inValid := true } : Wires).rst = false ∧ ({ inValid := true } : Wires).start = false := by decide

theorem witness_StartIsIgnoredInRun :
    ((encAt (eRun 0x07#8 [0xaa#8])).encs[0]? = some (eRun 0x07#8 [0xaa#8]) ∧ (eRun 0x07#8 [0xaa#8]).phase = .run) ∧
    ((decAt (dRun true [])).decs[0]? = some (dRun true []) ∧ (dRun true []).phase = .run) ∧
    ((encAt (eRun 0x07#8 [])).ctx (.enc 0) = some ⟨.run, false⟩ ∧ ({ start := true } : Wires).rst = false ∧
      ({ start := true } : Wires).inValid = false ∧ (encAt (eRun 0x07#8 [])).waiting (.enc 0) = none) ∧
    Next (.eEnd 0) (encAt (eRun 0x00#8 [])) (encAt (enc .done 0x00#8 0 [] [])) ∧
    Next (.dEndOk 0) (decAt (dRun false [])) (decAt (dec .done false 0 [] .noError [])) ∧
    Next (.dEndTrunc 0) (decAt (dRun true [])) (decAt (dec .fail false 0 [] .truncatedMarker [])) := by decide

theorem witness_EZeroCountsAndRollsOverAt255 :
    ∀ r ∈ [0x00#8, 0xfe#8, 0xff#8], (encAt (eRun r [])).encs[0]? = some (eRun r []) ∧ (eRun r []).phase = .run ∧
      Params.excess (encAt (eRun r [])).cfg ((eRun r []).pos + 1)
        ((eRun r []).out.length + (if (eRun r []).runLen = 0xff#8 then 2 else 0)) = none := by decide

theorem witness_ENzFlushesThenAppendsTheByte :
    ∀ r ∈ [0x00#8, 0x01#8, 0xff#8], (encAt (eRun r [])).encs[0]? = some (eRun r []) ∧ (eRun r []).phase = .run ∧
      0xff#8 ≠ 0x00#8 ∧ Params.excess (encAt (eRun r [])).cfg ((eRun r []).pos + 1)
        ((eRun r []).out.length + (if (eRun r []).runLen = 0x00#8 then 1 else 3)) = none := by decide

theorem witness_EEndFlushesTheTrailingRun :
    ∀ r ∈ [0x00#8, 0x01#8, 0xff#8], (encAt (eRun r [])).encs[0]? = some (eRun r []) ∧ (eRun r []).phase = .run ∧
      Params.excess (encAt (eRun r [])).cfg (eRun r []).pos
        ((eRun r []).out.length + (if (eRun r []).runLen = 0x00#8 then 0 else 2)) = none := by decide

/-- A decoder in RUN with no marker pending and room for one more byte. -/
theorem witness_DLitAppendsTheByte :
    (decAt (dRun false [0xaa#8])).decs[0]? = some (dRun false [0xaa#8]) ∧ (dRun false [0xaa#8]).phase = .run ∧
    (dRun false [0xaa#8]).pend = false ∧ 0x01#8 ≠ 0x00#8 ∧
    Params.excess (decAt (dRun false [0xaa#8])).cfg ((dRun false [0xaa#8]).pos + 1) ((dRun false [0xaa#8]).out.length + 1) =
      none := by decide

theorem witness_LitSymbolAppendsTheByte :
    (decAt (dRun false [])).decs[0]? = some (dRun false []) ∧ (dRun false []).phase = .run ∧ (dRun false []).pend = false ∧
    0xff#8 ≠ 0x00#8 ∧
    Params.excess (decAt (dRun false [])).cfg ((dRun false []).pos + 1) ((dRun false []).out.length + 1) = none := by decide

theorem witness_DMarkRemembersTheMarker :
    (decAt (dRun false [])).decs[0]? = some (dRun false []) ∧ (dRun false []).phase = .run ∧ (dRun false []).pend = false ∧
    Params.excess (decAt (dRun false [])).cfg ((dRun false []).pos + 1) (dRun false []).out.length = none := by decide

theorem witness_DLenAppendsThatManyZeros :
    ∀ l ∈ [0x00#8, 0x01#8, 0xff#8], (decAt (dRun true [])).decs[0]? = some (dRun true []) ∧ (dRun true []).phase = .run ∧
      (dRun true []).pend = true ∧ Params.excess (decAt (dRun true [])).cfg ((dRun true []).pos + 1)
        ((dRun true []).out.length + BitVec.toNat l) = none := by decide

theorem witness_DEndWithNoMarkerPendingSucceeds :
    (decAt (dRun false [0xaa#8])).decs[0]? = some (dRun false [0xaa#8]) ∧ (dRun false [0xaa#8]).phase = .run ∧
    (dRun false [0xaa#8]).pend = false ∧
    Params.excess (decAt (dRun false [0xaa#8])).cfg (dRun false [0xaa#8]).pos (dRun false [0xaa#8]).out.length = none := by
  decide

theorem witness_DEndWithAMarkerPendingFails :
    (decAt (dRun true [0xaa#8])).decs[0]? = some (dRun true [0xaa#8]) ∧ (dRun true [0xaa#8]).phase = .run ∧
    (dRun true [0xaa#8]).pend = true ∧ Params.excess (decAt (dRun true [0xaa#8])).cfg (dRun true [0xaa#8]).pos 0 = none := by
  decide

theorem witness_RunSymbolIsMarkThenLength :
    ∀ l ∈ [0x00#8, 0x01#8, 0xff#8], (decAt (dRun false [])).decs[0]? = some (dRun false []) ∧ (dRun false []).phase = .run ∧
      (dRun false []).pend = false ∧ Params.excess (decAt (dRun false [])).cfg ((dRun false []).pos + 2)
        ((dRun false []).out.length + BitVec.toNat l) = none := by decide

theorem witness_TruncSymbolEndsInFail :
    (decAt (dRun false [0x01#8])).decs[0]? = some (dRun false [0x01#8]) ∧ (dRun false [0x01#8]).phase = .run ∧
    (dRun false [0x01#8]).pend = false ∧
    Params.excess (decAt (dRun false [0x01#8])).cfg ((dRun false [0x01#8]).pos + 1) (dRun false [0x01#8]).out.length =
      none := by decide

theorem witness_TokensWaitOutsideRun :
    (∀ p ∈ [Phase.idle, .done], (encAt (enc p 0x00#8 0 [] [])).encs[0]? = some (enc p 0x00#8 0 [] []) ∧
      (enc p 0x00#8 0 [] []).phase ≠ .run) ∧
    (∀ p ∈ [Phase.idle, .done, .fail], (decAt (dec p false 0 [] .noError [])).decs[0]? = some (dec p false 0 [] .noError []) ∧
      (decAt (dec p false 0 [] .noError [])).ctx (.dec 0) = some ⟨p, false⟩ ∧ p ≠ .run) ∧
    (({ inValid := true } : Wires).rst = false ∧ ({ inValid := true } : Wires).start = false ∧
      ({ inValid := true } : Wires).outReady = false ∧
      keepsOffer (some (.byte 0x00#8)) (.edge (.dec 0) { inValid := true }) = true ∧
      keepsOffer (State.reset.waiting (.dec 0)) (.stream 0 [0x05#8]) = true) ∧
    (facing State.reset (.stream 0 [0x05#8])).inputs = [.stream 0 [0x05#8]] := by decide

theorem witness_UnboundedBlockGoesOn :
    State.reset.cfg.inCap = none ∧ State.reset.cfg.outCap = none ∧
    (facing State.reset (startEdge (.enc 0))).inputs = [startEdge (.enc 0)] ∧
    (State.reset.ctx (.enc 0)).isSome = true ∧
    keepsOffer (State.reset.waiting (.enc 0)) (startEdge (.enc 0)) = true := by decide

theorem witness_OverCapacityIsRefused :
    (∀ r ∈ [0x00#8, 0xfe#8, 0xff#8], Params.excess { Params.default with inCap := some 0 } ((eRun r []).pos + 1)
      ((eRun r []).out.length + (if (eRun r []).runLen = 0xff#8 then 2 else 0)) = some .inCapExceeded) ∧
    Params.excess { Params.default with outCap := some 1 } ((eRun 0xff#8 []).pos + 1) 2 = some .outCapExceeded ∧
    Params.excess { Params.default with outCap := some 2 } ((eRun 0x01#8 []).pos + 1) 3 = some .outCapExceeded ∧
    Params.excess { Params.default with outCap := some 1 } (eRun 0x01#8 []).pos 2 = some .outCapExceeded ∧
    Params.excess { Params.default with lenBits := 0 } ((dRun false []).pos + 1) 1 = some .lenBitsExceeded ∧
    Params.excess { Params.default with outCap := some 254 } ((dRun true []).pos + 1) (0xff#8).toNat = some .outCapExceeded ∧
    ({ encAt (eRun 0xff#8 []) with cfg := { Params.default with inCap := some 0 } } : State).encs[0]? =
      some (eRun 0xff#8 []) ∧
    (dRun false []).phase = .run ∧ (dRun false []).pend = false ∧ (dRun true []).pend = true ∧
    Params.excess { Params.default with inCap := some 1 } ((dRun false []).pos + 1) 0 = none ∧
    Params.excess { Params.default with inCap := some 1 } ((dRun false []).pos + 2) 0 = some .inCapExceeded ∧
    Params.excess { Params.default with outCap := some 254 } ((dRun false []).pos + 1) 0 = none ∧
    Params.excess { Params.default with outCap := some 254 } ((dRun false []).pos + 2) 255 = some .outCapExceeded ∧
    Params.excess { Params.default with lenBits := 0 } ((dRun false []).pos + 1) 0 = some .lenBitsExceeded ∧
    Params.excess { Params.default with outCap := some 0 } (dRun false [0xaa#8]).pos (dRun false [0xaa#8]).out.length =
      some .outCapExceeded ∧
    Params.excess { Params.default with inCap := some 0 } (dec .run true 1 [] .noError [0x00#8]).pos 0 =
      some .inCapExceeded := by decide

/-- A decoder in RUN at which Byte(1) waits: Byte(2) and no token are no offer of it, Byte(1) is; and an edge in RUN with
`in_ready = 0`, one in IDLE, one that takes a token and one with reset. -/
theorem witness_OfferedTokenMustBeKept :
    ((facing ((decAt (dRun false [])).setWaiting (.dec 0) (some (.byte 0x01#8))) (tokenEdge (.dec 0) (.byte 0x02#8))).waiting
        (.dec 0) = some (.byte 0x01#8) ∧
      (tokenEdge (.dec 0) (.byte 0x02#8)).resets = false ∧ (tokenEdge (.dec 0) (.byte 0x02#8)).offer ≠ some (.byte 0x01#8) ∧
      (Input.edge (.dec 0) { }).offer ≠ some (.byte 0x01#8) ∧ (Input.stream 0 []).offer ≠ some (.byte 0x01#8) ∧
      (decAt (dRun false [])).ctx (.dec 0) = some ⟨.run, false⟩) ∧
    refusalOf (step (facing ((decAt (dRun false [])).setWaiting (.dec 0) (some (.byte 0x01#8)))
      (tokenEdge (.dec 0) (.byte 0x02#8)))) = some .offerNotKept ∧
    ((decAt (dRun false [])).encWaiting.length = (decAt (dRun false [])).encs.length ∧
      (decAt (dRun false [])).decWaiting.length = (decAt (dRun false [])).decs.length) ∧
    Steps (facing (decAt (dRun false [])) (.edge (.dec 0) { inValid := true, inEnd := true, ready := false }))
      ((decAt (dRun false [])).setWaiting (.dec 0) (some .endOfInput)) ∧
    Steps (facing State.reset (.edge (.enc 0) { start := true, inValid := true, inData := 0x07#8 }))
      ((encAt Encoder.started).setWaiting (.enc 0) (some (.byte 0x07#8))) ∧
    Steps (facing ((decAt (dRun false [])).setWaiting (.dec 0) (some .endOfInput)) (tokenEdge (.dec 0) .endOfInput))
      (decAt (dec .done false 0 [] .noError [])) ∧
    Steps (facing ((decAt (dRun false [])).setWaiting (.dec 0) (some .endOfInput)) (.edge (.dec 0) { rst := true }))
      State.reset := by decide

theorem witness_OnlyTheOperationsUnitChanges :
    Next (.dMark 0) (decAt (dRun false [])) (decAt (dec .run true 1 [] .noError [0x00#8])) ∧
    Next (.eZero 0) (encAt (eRun 0x00#8 [])) (encAt (enc .run 0x01#8 1 [] [0x00#8])) := by decide

theorem witness_EncoderRegisterFrame :
    Next (.eZero 0) (encAt (eRun 0xff#8 [])) (encAt (enc .run 0x01#8 1 [0x00#8, 0xff#8] [0x00#8])) ∧
    Next (.eNz 0 0x01#8) (encAt (eRun 0x00#8 [])) (encAt (enc .run 0x00#8 1 [0x01#8] [0x01#8])) ∧
    Next (.eEnd 0) (encAt (eRun 0x01#8 [])) (encAt (enc .done 0x00#8 0 [0x00#8, 0x01#8] [])) := by decide

theorem witness_DecoderRegisterFrame :
    Next (.dLit 0 0x01#8) (decAt (dRun false [])) (decAt (dec .run false 1 [0x01#8] .noError [0x01#8])) ∧
    Next (.lit 0 0xff#8) (decAt (dRun false [])) (decAt (dec .run false 1 [0xff#8] .noError [0xff#8])) ∧
    Next (.dMark 0) (decAt (dRun false [])) (decAt (dec .run true 1 [] .noError [0x00#8])) ∧
    Next (.dLen 0 0x00#8) (decAt (dRun true [])) (decAt (dec .run false 1 [] .noError [0x00#8])) ∧
    Next (.run 0 0x01#8) (decAt (dRun false [])) (decAt (dec .run false 2 [0x00#8] .noError [0x00#8, 0x01#8])) ∧
    Next (.runZ 0) (decAt (dRun false [])) (decAt (dec .run false 2 [] .noError [0x00#8, 0x00#8])) ∧
    Next (.dEndOk 0) (decAt (dRun false [])) (decAt (dec .done false 0 [] .noError [])) ∧
    Next (.dEndTrunc 0) (decAt (dRun true [])) (decAt (dec .fail false 0 [] .truncatedMarker [])) ∧
    Next (.trunc 0) (decAt (dRun false [])) (decAt (dec .fail false 1 [] .truncatedMarker [0x00#8])) := by decide

theorem witness_OutputBytesAreOnlyAppended :
    Next (.eNz 0 0x01#8) (encAt (eRun 0x02#8 [0xaa#8]))
      (encAt (enc .run 0x00#8 1 [0xaa#8, 0x00#8, 0x02#8, 0x01#8] [0x01#8])) ∧
    Next (.eStart 0) (encAt (enc .done 0x00#8 0 [0xaa#8] [])) (encAt Encoder.started) ∧
    Next (.reset (.enc 0)) (encAt (eRun 0x02#8 [0xaa#8])) (encAt Encoder.reset) ∧
    Next (.dLen 0 0x01#8) (decAt (dRun true [0xaa#8])) (decAt (dec .run false 1 [0xaa#8, 0x00#8] .noError [0x01#8])) ∧
    Next (.dEndTrunc 0) (decAt (dRun true [0xaa#8])) (decAt (dec .fail false 0 [] .truncatedMarker [])) ∧
    Next (.trunc 0) (decAt (dRun false [0xaa#8])) (decAt (dec .fail false 1 [] .truncatedMarker [0x00#8])) ∧
    Next (.dStart 0) (decAt (dec .done false 0 [0xaa#8] .noError [])) (decAt Decoder.started) ∧
    Next (.reset (.dec 0)) (decAt (dRun true [0xaa#8])) (decAt Decoder.reset) := by decide

theorem witness_CursorAdvancesByOnePerByte :
    (Next (.eZero 0) (encAt (eRun 0x00#8 [])) (encAt (enc .run 0x01#8 1 [] [0x00#8])) ∧
      Next (.eNz 0 0xff#8) (encAt (eRun 0x00#8 [])) (encAt (enc .run 0x00#8 1 [0xff#8] [0xff#8])) ∧
      Next (.eEnd 0) (encAt (eRun 0x00#8 [])) (encAt (enc .done 0x00#8 0 [] []))) ∧
    (Next (.dLit 0 0x01#8) (decAt (dRun false [])) (decAt (dec .run false 1 [0x01#8] .noError [0x01#8])) ∧
      Next (.run 0 0x01#8) (decAt (dRun false [])) (decAt (dec .run false 2 [0x00#8] .noError [0x00#8, 0x01#8])) ∧
      Next (.dEndTrunc 0) (decAt (dRun true [])) (decAt (dec .fail false 0 [] .truncatedMarker []))) := by decide

theorem witness_FailIsEnteredOnlyByAPendingMarkerAtEnd :
    (Next (.dEndTrunc 0) (decAt (dRun true [])) (decAt (dec .fail false 0 [] .truncatedMarker [])) ∧
      (dRun true []).phase ≠ .fail) ∧
    (Next (.trunc 0) (decAt (dRun false [])) (decAt (dec .fail false 1 [] .truncatedMarker [0x00#8])) ∧
      (dRun false []).phase ≠ .fail) ∧
    (Next (.eZero 0) (encAt (enc .fail 0x00#8 0 [] [])) (encAt (enc .fail 0x00#8 0 [] [])) ∧
      (enc .fail 0x00#8 0 [] []).phase = .fail) := by decide

theorem witness_PhasesMoveOnlyAsTheTransitionTable :
    Next (.eEnd 0) (encAt (eRun 0x00#8 [])) (encAt (enc .done 0x00#8 0 [] [])) ∧
    Next (.dEndTrunc 0) (decAt (dRun true [])) (decAt (dec .fail false 0 [] .truncatedMarker [])) ∧
    Steps (facing State.reset (startEdge (.dec 0))) (decAt Decoder.started) ∧
    Steps (facing State.reset (startEdge (.enc 0))) (encAt Encoder.started) := by decide

/-- A state in the middle of a transaction that meets R35, and its step over the next zero. -/
theorem witness_StepKeepsTheInvariant :
    State.Inv (facing (encAt (enc .run 0x01#8 2 [0x05#8] [0x05#8, 0x00#8])) (tokenEdge (.enc 0) (.byte 0x00#8))) ∧
    Steps (facing (encAt (enc .run 0x01#8 2 [0x05#8] [0x05#8, 0x00#8])) (tokenEdge (.enc 0) (.byte 0x00#8)))
      (encAt (enc .run 0x02#8 3 [0x05#8] [0x05#8, 0x00#8, 0x00#8])) := by decide

/-- A state in the middle of two transactions that agrees with `encode` and `decode`, and its step over the next token. -/
theorem witness_StepKeepsAgreementWithTheFunctions :
    State.Agrees (facing { encAt (enc .run 0x01#8 1 [] [0x00#8]) with decs := [dec .run true 1 [] .noError [0x00#8]] }
      (tokenEdge (.dec 0) (.byte 0x03#8))) ∧
    Steps (facing { encAt (enc .run 0x01#8 1 [] [0x00#8]) with decs := [dec .run true 1 [] .noError [0x00#8]] }
      (tokenEdge (.dec 0) (.byte 0x03#8)))
      { encAt (enc .run 0x01#8 1 [] [0x00#8]) with
        decs := [dec .run false 2 [0x00#8, 0x00#8, 0x00#8] .noError [0x00#8, 0x03#8]] } := by
  refine ⟨⟨fun e he => ?_, fun d hd => ?_⟩, by decide⟩
  · obtain rfl : e = enc .run 0x01#8 1 [] [0x00#8] := List.mem_singleton.1 he
    exact ⟨fun _ => ⟨fun _ => rfl, by decide, [], rfl, rfl⟩, by decide⟩
  · obtain rfl : d = dec .run true 1 [] .noError [0x00#8] := List.mem_singleton.1 hd
    exact ⟨fun _ _ => rfl, by decide, by decide⟩

theorem witness_StepsOfDifferentUnitsCommute :
    (Instr.eZero 0).unit ≠ (Instr.dMark 0).unit ∧
    (∃ t, Next (.eZero 0) { encAt (eRun 0x00#8 []) with decs := [dRun false []] } t) ∧
    (∃ t, Next (.dMark 0) { encAt (eRun 0x00#8 []) with decs := [dRun false []] } t) := by
  refine ⟨by decide, ⟨_, rfl⟩, ⟨_, rfl⟩⟩

/-- The step clauses: a drain transfer of an encoder beside a token left waiting at a decoder, as single inputs and as the two
orders of the list; and a symbol of a sequence beside an edge. -/
theorem witness_StepsOfDifferentUnitsCommute_steps :
    (Input.edge (.enc 0) { outReady := true }).unit ≠ (Input.edge (.dec 0) { inValid := true, ready := false }).unit ∧
    Steps (facing (encAt (enc .done 0x00#8 1 [0x05#8] [0x05#8])) (.edge (.enc 0) { outReady := true }))
      (encAt { enc .done 0x00#8 1 [0x05#8] [0x05#8] with rd := 1 }) ∧
    Steps (facing (encAt (enc .done 0x00#8 1 [0x05#8] [0x05#8])) (.edge (.dec 0) { inValid := true, ready := false }))
      ((encAt (enc .done 0x00#8 1 [0x05#8] [0x05#8])).setWaiting (.dec 0) (some (.byte 0x00#8))) ∧
    (stateOf (step ((encAt (enc .done 0x00#8 1 [0x05#8] [0x05#8])).setInputs
      [.edge (.enc 0) { outReady := true }, .edge (.dec 0) { inValid := true, ready := false }]))).isSome = true ∧
    (stateOf (step ((encAt (enc .done 0x00#8 1 [0x05#8] [0x05#8])).setInputs
      [.edge (.dec 0) { inValid := true, ready := false }, .edge (.enc 0) { outReady := true }]))).isSome = true ∧
    (Input.stream 0 [0x05#8]).unit ≠ (tokenEdge (.enc 0) .endOfInput).unit ∧
    (stateOf (step (facing (decAt (dRun false [])) (.stream 0 [0x05#8])))).isSome = true ∧
    (stateOf (step (facing (decAt (dRun false [])) (tokenEdge (.enc 0) .endOfInput)))).isSome = true := by decide

theorem witness_OperationsFeelOnlyTheirOwnUnit :
    (encAt (eRun 0x00#8 [])).cfg = ({ encAt (eRun 0x00#8 []) with decs := [dRun true []] } : State).cfg ∧
    Next (.eZero 0) (encAt (eRun 0x00#8 [])) (encAt (enc .run 0x01#8 1 [] [0x00#8])) ∧
    (Instr.eZero 0).unit = .enc 0 ∧
    (encAt (eRun 0x00#8 [])).encs[0]? = ({ encAt (eRun 0x00#8 []) with decs := [dRun true []] } : State).encs[0]? ∧
    (decAt (dRun false [])).cfg = ({ decAt (dRun false []) with encs := [eRun 0x03#8 []] } : State).cfg ∧
    Next (.dMark 0) (decAt (dRun false [])) (decAt (dec .run true 1 [] .noError [0x00#8])) ∧
    (Instr.dMark 0).unit = .dec 0 ∧
    (decAt (dRun false [])).decs[0]? = ({ decAt (dRun false []) with encs := [eRun 0x03#8 []] } : State).decs[0]? := by decide

theorem witness_StatusShowsPhaseAndError :
    (enc .done 0x00#8 0 [] []).Inv ∧ (dec .fail false 1 [] .truncatedMarker [0x00#8]).Inv := by decide

theorem witness_ResultIsReleasedWholeAndStays :
    (Phase.over .idle = false ∧ Phase.over .run = false ∧ Phase.over .done = true ∧ Phase.over .fail = true) ∧
    Steps (facing (encAt (enc .done 0x00#8 1 [0x05#8] [0x05#8])) (tokenEdge (.enc 0) (.byte 0x01#8)))
      ((encAt (enc .done 0x00#8 1 [0x05#8] [0x05#8])).setWaiting (.enc 0) (some (.byte 0x01#8))) ∧
    Next (.dLit 0 0x01#8) (decAt (dec .fail false 1 [] .truncatedMarker [0x00#8]))
      (decAt (dec .fail false 1 [] .truncatedMarker [0x00#8])) ∧
    (∀ p ∈ [Phase.idle, .run, .fail], p ≠ .done) := by decide

theorem witness_DrainOffersTheResultInOrder :
    (enc .done 0x00#8 1 [0x05#8] [0x05#8]).phase = .done ∧ (enc .done 0x00#8 1 [0x05#8] [0x05#8]).rdEnd = false ∧
    (dec .done false 1 [0x05#8] .noError [0x05#8]).phase = .done ∧
    (dec .done false 1 [0x05#8] .noError [0x05#8]).rdEnd = false ∧
    ({ outReady := true } : Wires).rst = false ∧ ({ outReady := true } : Wires).start = false ∧
    (eRun 0x00#8 []).phase ≠ .done ∧ (dRun false []).phase ≠ .done ∧
    (∀ u ∈ [UnitId.enc 0, .dec 0], keepsOffer (State.reset.waiting u) (.edge u { outReady := true }) = true) ∧
    ({ enc .done 0x00#8 1 [0x05#8] [0x05#8] with rd := 1, rdEnd := true } : Encoder).rdEnd = true ∧
    ({ dec .done false 1 [0x05#8] .noError [0x05#8] with rd := 1, rdEnd := true } : Decoder).rdEnd = true ∧
    ({ } : Wires).outReady = false ∧
    Steps (facing (encAt { enc .done 0x00#8 1 [0x05#8] [0x05#8] with rd := 1, rdEnd := true })
      (.edge (.enc 0) { outReady := true })) (encAt { enc .done 0x00#8 1 [0x05#8] [0x05#8] with rd := 1, rdEnd := true }) := by
  decide

theorem witness_OfferedResultTokenIsHeld :
    ((enc .done 0x00#8 1 [0x05#8] [0x05#8]).outputs false).outValid = true ∧
    ((dec .done false 1 [0x05#8] .noError [0x05#8]).outputs true).outValid = true ∧
    Steps (facing (encAt (enc .done 0x00#8 1 [0x05#8] [0x05#8])) (.edge (.enc 0) { ready := false }))
      (encAt (enc .done 0x00#8 1 [0x05#8] [0x05#8])) ∧
    Steps (facing (decAt (dec .done false 1 [0x05#8] .noError [0x05#8])) (.edge (.dec 0) { inValid := true }))
      ((decAt (dec .done false 1 [0x05#8] .noError [0x05#8])).setWaiting (.dec 0) (some (.byte 0x00#8))) ∧
    (({ ready := false } : Wires).rst = false ∧ ({ ready := false } : Wires).start = false ∧
      ({ ready := false } : Wires).outReady = false) := by decide

theorem witness_TokensAreTakenOnlyWhenReady :
    ((eRun 0x00#8 []).outputs true).inReady = true ∧ ((dRun true []).outputs true).inReady = true ∧
    (decAt (dRun true [])).ctx (.dec 0) = some ⟨.run, true⟩ ∧
    (({ inValid := true } : Wires).rst = false ∧ ({ inValid := true } : Wires).ready = true ∧
      ({ inValid := true, ready := false } : Wires).ready = false ∧ ({ } : Wires).inValid = false) ∧
    (∀ u ∈ [UnitId.enc 0, .dec 0], ∀ w ∈ [({ inValid := true } : Wires), { inValid := true, ready := false }, { },
      { start := true, inValid := true }], keepsOffer (State.reset.waiting u) (.edge u w) = true) ∧
    ((encAt Encoder.reset).encs[0]? = some Encoder.reset ∧ Encoder.reset.phase ≠ .run ∧
      ({ start := true, inValid := true } : Wires).start = true) ∧
    ((decAt Decoder.reset).decs[0]? = some Decoder.reset ∧ Decoder.reset.phase ≠ .run) := by decide

theorem witness_CanonicalExactlyTheEncoderOutputs :
    [0x00#8, 0xff#8, 0x00#8, 0x01#8, 0x05#8] =
      Codec.encode (zeros 255 ++ [0x00#8, 0x05#8]) ∧ Codec.decode [0x00#8, 0x02#8, 0x00#8, 0x03#8] = .ok (zeros 5) := by
  constructor
  · rw [Codec.encode_eq, Codec.encSyms_zeros _ _ _ (by decide)]; rfl
  · rfl

theorem witness_DecodeLengthFormulaAndBound :
    Codec.decode [0x05#8, 0x00#8, 0x02#8] = .ok [0x05#8, 0x00#8, 0x00#8] ∧ 0x01#8 ≠ 0x00#8 := by decide

theorem witness_ZeroFreeSequencesAreUnchanged : ∀ x ∈ [0x01#8, 0xff#8, 0x80#8], x ≠ 0x00#8 := by decide

theorem witness_DecodeAcceptsExactlyTheAccepted :
    Codec.accepted [0x00#8, 0x00#8, 0x05#8] = true ∧ Codec.accepted [0x01#8, 0x00#8] = false ∧
    Codec.canonical [0x00#8, 0xff#8, 0x00#8, 0x05#8] = true ∧
    Codec.wellFormed [0x00#8, 0x02#8, 0x00#8, 0x03#8] = true := by decide

theorem witness_FunctionsOnConcatenations :
    Codec.decode [0x00#8, 0x02#8] = .ok [0x00#8, 0x00#8] ∧ Codec.decode [0x00#8, 0x03#8] = .ok [0x00#8, 0x00#8, 0x00#8] ∧
    Codec.decode [0x01#8, 0x00#8] = .err .truncatedMarker ∧
    [0x00#8, 0x01#8].getLast? ≠ some 0x00#8 ∧ [0x01#8, 0x00#8].head? ≠ some 0x00#8 := by decide

theorem witness_CanonicalProgramsAssembleToCanonical :
    Codec.canonicalProgram [.zeros 256, .lit 0x01#8, .lit 0xff#8, .zeros 1] = true := by decide

theorem witness_EncoderTransactionComputesEncode :
    (encAt (enc .done 0x00#8 0 [0xaa#8] [])).encs[0]? = some (enc .done 0x00#8 0 [0xaa#8] []) ∧
    (enc .done 0x00#8 0 [0xaa#8] []).phase ≠ .run ∧
    ((encAt (enc .done 0x00#8 0 [0xaa#8] [])).setInputs (transaction (.enc 0) [0x00#8, 0x05#8])).waiting (.enc 0) = none ∧
    ((encAt (enc .done 0x00#8 0 [0xaa#8] [])).setInputs (transaction (.enc 0) [0x00#8, 0x05#8])).inputs =
      transaction (.enc 0) [0x00#8, 0x05#8] ++ [] ∧
    Params.excess Params.default 2 (Codec.encode [0x00#8, 0x05#8]).length = none := by decide

theorem witness_DecoderTransactionComputesDecode :
    State.reset.decs[0]? = some Decoder.reset ∧ Decoder.reset.phase ≠ .run ∧ State.reset.waiting (.dec 0) = none ∧
    (State.reset.setInputs (transaction (.dec 0) [0x00#8, 0x02#8, 0x00#8])).inputs =
      transaction (.dec 0) [0x00#8, 0x02#8, 0x00#8] ++ [] ∧
    Params.excess Params.default 3 ((Codec.parse [0x00#8, 0x02#8, 0x00#8]).1.flatMap Codec.Sym.plain).length = none ∧
    Codec.decode [0x00#8, 0x02#8, 0x00#8] = .err .truncatedMarker ∧ Codec.decode [0x00#8, 0x02#8] = .ok (zeros 2) := by decide

theorem witness_SymbolStepsComputeDecode :
    State.reset.decs[0]? = some Decoder.reset ∧ Decoder.reset.phase ≠ .run ∧ State.reset.waiting (.dec 0) = none ∧
    (State.reset.setInputs (symbolTransaction 0 [0xff#8, 0x00#8, 0x04#8])).inputs =
      symbolTransaction 0 [0xff#8, 0x00#8, 0x04#8] ++ [] ∧
    Params.excess Params.default 3 ((Codec.parse [0xff#8, 0x00#8, 0x04#8]).1.flatMap Codec.Sym.plain).length = none := by decide

theorem witness_HexDecodeFailsInExactlyTwoCases :
    hexdec true "00F".toList = none ∧ hexdec true "0g".toList = none ∧ hexdec true "00fF".toList = some [0x00#8, 0xff#8] := by
  decide

theorem witness_WrappedCodecRoundTrips : hexdec Params.default.hexAcceptUpper "0x00".toList = none := by decide

end Sys2Proof.Tests
end

