-- ==== Sys2Proof/Proofs/ResetStartStatus.lean ====
section
/-! SUPPORT. The STATUS view read field by field (R30), the units right after reset and after START (R34), and the two
statements about them. -/

namespace Sys2Proof.Machine

/-! ### The fields of STATUS (R30) -/

@[simp] theorem statusView_phase (p : Phase) (k : ErrCode) : (statusView p k).extractLsb' 0 2 = p.code :=
  BitVec.extractLsb'_append_eq_right

/-- Everything above `phase` is the error code, zero-extended. -/
theorem statusView_above_phase (p : Phase) (k : ErrCode) : (statusView p k).extractLsb' 2 6 = 0#4 ++ k.code :=
  BitVec.extractLsb'_append_eq_left

@[simp] theorem statusView_err (p : Phase) (k : ErrCode) : (statusView p k).extractLsb' 2 2 = k.code := by
  rw [statusView, BitVec.extractLsb'_append_eq_of_le (Nat.le_refl 2)]
  exact BitVec.extractLsb'_append_eq_right

@[simp] theorem statusView_high (p : Phase) (k : ErrCode) : (statusView p k).extractLsb' 4 4 = 0#4 := by
  rw [statusView, BitVec.extractLsb'_append_eq_of_le (by decide)]
  exact BitVec.extractLsb'_append_eq_left

theorem Encoder.status_phase (e : Encoder) : e.status.extractLsb' 0 2 = e.phase.code := statusView_phase _ _

/-- An encoder has no error register: its code reads 0 (R26). -/
theorem Encoder.status_above_phase (e : Encoder) : e.status.extractLsb' 2 6 = 0#6 := statusView_above_phase _ _

theorem Decoder.status_phase (d : Decoder) : d.status.extractLsb' 0 2 = d.phase.code := statusView_phase _ _

theorem Decoder.status_err (d : Decoder) : d.status.extractLsb' 2 2 = d.err.code := statusView_err _ _

theorem Decoder.status_high (d : Decoder) : d.status.extractLsb' 4 4 = 0#4 := statusView_high _ _

/-! ### The codes an invariant allows -/

/-- Only FAIL has the code 3. -/
theorem Phase.code_le_two {p : Phase} (h : p ≠ .fail) : p.code.toNat ≤ 2 := by
  cases p with
  | idle => decide
  | run => decide
  | done => decide
  | fail => exact absurd rfl h

theorem ErrCode.code_le_one {k : ErrCode} (h : k = .noError ∨ k = .truncatedMarker) : k.code.toNat ≤ 1 := by
  rcases h with rfl | rfl
  · decide
  · decide

/-- An encoder never stands in FAIL (R24). -/
theorem Encoder.status_phase_le_two {e : Encoder} (h : e.Inv) : (e.status.extractLsb' 0 2).toNat ≤ 2 := by
  obtain ⟨-, -, hfail, -⟩ := h
  rw [e.status_phase]
  exact Phase.code_le_two hfail

/-- A decoder writes only the error codes 0 and 1 (R26). -/
theorem Decoder.status_err_le_one {d : Decoder} (h : d.Inv) : (d.status.extractLsb' 2 2).toNat ≤ 1 := by
  obtain ⟨-, -, -, -, herr, -⟩ := h
  rw [d.status_err]
  exact ErrCode.code_le_one herr

/-! ### STATUS and the units after reset and START (R34) -/

@[simp] theorem Encoder.reset_status : Encoder.reset.status = 0x00#8 := by decide
@[simp] theorem Decoder.reset_status : Decoder.reset.status = 0x00#8 := by decide
@[simp] theorem Encoder.started_status : Encoder.started.status = 0x01#8 := by decide
@[simp] theorem Decoder.started_status : Decoder.started.status = 0x01#8 := by decide

theorem State.eq_reset_of_mem_encs {p : Params} {e : Encoder} (h : e ∈ (State.resetWith p).encs) : e = Encoder.reset :=
  List.eq_of_mem_replicate h

theorem State.eq_reset_of_mem_decs {p : Params} {d : Decoder} (h : d ∈ (State.resetWith p).decs) : d = Decoder.reset :=
  List.eq_of_mem_replicate h

/-- START outside RUN is accepted and gives every register its START value (R171). -/
theorem exec_eStart_of_ne_run {s : State} {k : Nat} {e : Encoder} (he : s.encs[k]? = some e) (hp : e.phase ≠ .run) :
    exec (.eStart k) s = .next (s.setEnc k Encoder.started) := by
  rw [exec_enc rfl he, encLocal, if_neg hp, liftEnc]

/-- START outside RUN is accepted and gives every register its START value (R171). -/
theorem exec_dStart_of_ne_run {s : State} {k : Nat} {d : Decoder} (hd : s.decs[k]? = some d) (hp : d.phase ≠ .run) :
    exec (.dStart k) s = .next (s.setDec k Decoder.started) := by
  rw [exec_dec rfl hd, decLocal, if_neg hp, liftDec]

/-! ### The statements -/

/-- Settles O7: every unit of the reset state is `reset`, and START outside RUN writes `started`. -/
theorem resetAndStartValues : Obligations.ResetAndStartValues := by
  refine ⟨fun p => ⟨fun e he => ?_, fun d hd => ?_⟩, fun s k e he hp => ?_, fun s k d hd hp => ?_⟩
  · obtain rfl := State.eq_reset_of_mem_encs he
    simp
  · obtain rfl := State.eq_reset_of_mem_decs hd
    simp
  · exact ⟨_, Encoder.started, exec_eStart_of_ne_run he hp, State.setEnc_get he, by simp⟩
  · exact ⟨_, Decoder.started, exec_dStart_of_ne_run hd hp, State.setDec_get hd, by simp⟩

/-- Settles O38, field by field; the wires show the view by the definition of `outWires`. -/
theorem statusShowsPhaseAndError : Obligations.StatusShowsPhaseAndError :=
  ⟨fun e => ⟨e.status_phase, e.status_above_phase⟩,
    fun d => ⟨d.status_phase, d.status_err, d.status_high⟩,
    ⟨rfl, rfl, rfl, rfl⟩, ⟨rfl, rfl, rfl⟩,
    fun _ => Encoder.status_phase_le_two, fun _ => Decoder.status_err_le_one,
    ⟨Encoder.reset_status, Decoder.reset_status⟩,
    fun _ _ => rfl, fun _ _ => rfl⟩

end Sys2Proof.Machine
end

