-- ==== Sys2Proof/Proofs/ParseAndClasses.lean ====
section
/-! SUPPORT. The parse of R85 in both directions, what `decode` answers on each class of R89, the canonical sequences as the
outputs of `encode` (R90), and the three statements about them. -/

namespace Sys2Proof.Codec

open Sys2Proof.Machine

/-! ### The parse (R85) -/

/-- Symbols laid end to end are read back, and nothing is left over. -/
theorem parse_symbols {l : List Sym} (h : ∀ b, Sym.lit b ∈ l → b ≠ 0x00#8) : parse (symbols l) = (l, false) := by
  simpa [parse] using parse_symbols_append h []

/-- A bare marker after the symbols is reported as one. -/
theorem parse_symbols_bare {l : List Sym} (h : ∀ b, Sym.lit b ∈ l → b ≠ 0x00#8) :
    parse (symbols l ++ [markerByte]) = (l, true) := by
  simpa [parse] using parse_symbols_append h [markerByte]

/-! ### The classes (R89) -/

theorem accepted_iff {c : Bytes} : accepted c = true ↔ (parse c).2 = false := by simp [accepted]

theorem wellFormed_of_canonical {c : Bytes} (h : canonical c = true) : wellFormed c = true := by
  rw [canonical, Bool.and_eq_true] at h
  exact h.1

theorem accepted_of_wellFormed {c : Bytes} (h : wellFormed c = true) : accepted c = true := by
  rw [wellFormed, Bool.and_eq_true] at h
  exact h.1

/-! ### `decode` on the classes -/

theorem decode_of_accepted {c : Bytes} (h : accepted c = true) :
    decode c = .ok ((parse c).1.flatMap Sym.plain) := by
  simp [decode_eq, accepted_iff.1 h]

theorem decode_of_not_accepted {c : Bytes} (h : accepted c = false) : decode c = .err .truncatedMarker := by
  have hbare : (parse c).2 = true := by simpa [accepted] using h
  simp [decode_eq, hbare]

/-- The round trip of R121: the symbols written for `b` are parsed again, and they stand for `b`. -/
theorem decode_encode (b : Bytes) : decode (encode b) = .ok b := by
  simp [decode_eq, parse_encode, encSyms_plain]

/-! ### The canonical sequences are the outputs of `encode` (R90) -/

theorem canonical_encode (b : Bytes) : canonical (encode b) = true := by
  rw [encode_eq, canonical_symbols (List.all_eq_true.2 fun _ => encSyms_wellFormed)]
  exact encSyms_full b 0x00#8

/-- A canonical sequence is what the encoder writes for the bytes its symbols stand for. -/
theorem exists_encode_of_canonical {c : Bytes} (h : canonical c = true) : ∃ b, c = encode b := by
  obtain ⟨l, rfl, hw, hf⟩ := canonical_elim h
  exact ⟨l.flatMap Sym.plain, by rw [encode_eq, encSyms_of_canonical hw hf]⟩

theorem canonical_iff_exists_encode {c : Bytes} : canonical c = true ↔ ∃ b, c = encode b := by
  refine ⟨exists_encode_of_canonical, ?_⟩
  rintro ⟨b, rfl⟩
  exact canonical_encode b

/-- Of the sequences that decode to the same bytes, exactly the canonical one comes back (R152). -/
theorem encode_eq_iff_canonical {c b : Bytes} (h : decode c = .ok b) : encode b = c ↔ canonical c = true := by
  constructor
  · rintro rfl
    exact canonical_encode b
  · intro hc
    obtain ⟨b', rfl⟩ := exists_encode_of_canonical hc
    have hb : b' = b := by simpa [decode_encode] using h
    rw [hb]

/-! ### The statements -/

/-- Settles O44: the encoder writes canonical symbols, and canonical symbols are what it writes for the bytes they stand
for. -/
theorem canonicalExactlyTheEncoderOutputs : Obligations.CanonicalExactlyTheEncoderOutputs := by
  refine ⟨fun _ => canonical_iff_exists_encode, ?_, fun _ _ => encode_eq_iff_canonical⟩
  rintro _ b rfl
  exact decode_encode b

/-- Settles O6: `symbols` and `parse` undo each other, with or without a bare marker at the end. -/
theorem parsingIsUniqueAndGreedy : Obligations.ParsingIsUniqueAndGreedy :=
  ⟨fun c => ⟨symbols_parse c, fun _ => parse_lit_ne⟩,
    fun _ hl => ⟨parse_symbols hl, parse_symbols_bare hl⟩,
    by decide⟩

/-- Settles O49: `decode` reads the parse, and the examples of R89 show that no class is the next one. -/
theorem decodeAcceptsExactlyTheAccepted : Obligations.DecodeAcceptsExactlyTheAccepted :=
  ⟨fun _ => decode_of_accepted, fun _ => decode_of_not_accepted,
    fun _ => ⟨wellFormed_of_canonical, accepted_of_wellFormed⟩,
    by decide⟩

end Sys2Proof.Codec
end

