-- ==== Sys2Proof/Proofs/EncoderTokens.lean ====
section
/-! SUPPORT. The registers after E.NZ and E.END, what each token operation of an encoder answers in RUN within the
capacities, and the statements about E.ZERO, E.NZ and E.END (R112 to R114). -/

namespace Sys2Proof.Codec

open Sys2Proof.Machine

/-! ### The flush of level T (R111, R115) -/

@[simp] theorem flush_zero (o : Bytes) : flush 0x00#8 o = o := rfl

theorem flush_of_ne {r : Byte} (h : r ≠ 0x00#8) (o : Bytes) : flush r o = o ++ markerBytes r :=
  if_pos (byte_pos_iff.2 h)

theorem length_flush (r : Byte) (o : Bytes) : (flush r o).length = o.length + if r = 0x00#8 then 0 else 2 := by
  by_cases h : r = 0x00#8
  · simp [h]
  · simp [flush_of_ne h, h, markerBytes]

end Sys2Proof.Codec

namespace Sys2Proof.Machine

/-! ### The registers after E.NZ and E.END (R113, R114) -/

@[simp] theorem Encoder.nonZero_phase (b : Byte) (e : Encoder) : (e.nonZero b).phase = e.phase := by
  simp [Encoder.nonZero]
@[simp] theorem Encoder.nonZero_pos (b : Byte) (e : Encoder) : (e.nonZero b).pos = e.pos + 1 := by
  simp [Encoder.nonZero]
@[simp] theorem Encoder.nonZero_runLen (b : Byte) (e : Encoder) : (e.nonZero b).runLen = 0x00#8 := rfl

/-- The register FLUSH is the `flush` of level T. -/
theorem Encoder.flush_out_eq (e : Encoder) : e.flush.out = Codec.flush e.runLen e.out := e.flush_out

theorem Encoder.nonZero_out (b : Byte) (e : Encoder) : (e.nonZero b).out = Codec.flush e.runLen e.out ++ [b] := by
  simp [Encoder.nonZero, Encoder.flush_out_eq]

@[simp] theorem Encoder.endInput_phase (e : Encoder) : e.endInput.phase = .done := rfl
@[simp] theorem Encoder.endInput_pos (e : Encoder) : e.endInput.pos = e.pos := by simp [Encoder.endInput]
@[simp] theorem Encoder.endInput_runLen (e : Encoder) : e.endInput.runLen = 0x00#8 := rfl

theorem Encoder.endInput_out (e : Encoder) : e.endInput.out = Codec.flush e.runLen e.out := by
  simp [Encoder.endInput, Encoder.flush_out_eq]

/-! ### The token operations in RUN, within the capacities -/

section
variable {s : State} {k : Nat} {e : Encoder}

theorem exec_eZero_of_run (he : s.encs[k]? = some e) (hr : e.phase = .run)
    (hx : Params.excess s.cfg e.zero.pos e.zero.out.length = none) :
    exec (.eZero k) s = .next (s.setEnc k e.zero) := by
  rw [exec_enc rfl he, encLocal, encTokenLocal_run hr rfl hx, liftEnc]

theorem exec_eNz_of_run {b : Byte} (he : s.encs[k]? = some e) (hr : e.phase = .run) (hb : b ≠ 0x00#8)
    (hx : Params.excess s.cfg (e.nonZero b).pos (e.nonZero b).out.length = none) :
    exec (.eNz k b) s = .next (s.setEnc k (e.nonZero b)) := by
  have hsel : (b != 0x00#8) = true := bne_iff_ne.2 hb
  rw [exec_enc rfl he, encLocal, encTokenLocal_run (sel := fun _ => b != 0x00#8) hr hsel hx, liftEnc]

theorem exec_eEnd_of_run (he : s.encs[k]? = some e) (hr : e.phase = .run)
    (hx : Params.excess s.cfg e.endInput.pos e.endInput.out.length = none) :
    exec (.eEnd k) s = .next (s.setEnc k e.endInput) := by
  rw [exec_enc rfl he, encLocal, encTokenLocal_run hr rfl hx, liftEnc]

end

/-! ### The statements -/

/-- Settles O10: the test is made before the increment, which therefore never wraps. -/
theorem eZeroCountsAndRollsOverAt255 : Obligations.EZeroCountsAndRollsOverAt255 := by
  intro s k e he hr hx
  have hlen : e.zero.out.length = e.out.length + if e.runLen = 0xff#8 then 2 else 0 := by
    rw [Encoder.zero_out]; split <;> simp [markerBytes]
  refine ⟨_, e.zero, exec_eZero_of_run he hr (by simpa [hlen] using hx), State.setEnc_get he, by simpa using hr,
    e.zero_pos, fun hmax => ?_, fun hmax => ?_⟩
  · simp [Encoder.zero_runLen, Encoder.zero_out, hmax, markerBytes]
  · simp only [Encoder.zero_runLen, Encoder.zero_out, if_neg hmax]
    exact ⟨Codec.toNat_succ hmax, trivial⟩

/-- Settles O11: the buffer gets what `flush` writes, then the byte. -/
theorem eNzFlushesThenAppendsTheByte : Obligations.ENzFlushesThenAppendsTheByte := by
  intro s k b e he hr hb hx
  have hlen : (e.nonZero b).out.length = e.out.length + if e.runLen = 0x00#8 then 1 else 3 := by
    rw [Encoder.nonZero_out, List.length_append, Codec.length_flush]; split <;> rfl
  refine ⟨_, e.nonZero b, exec_eNz_of_run he hr hb (by simpa [hlen] using hx), State.setEnc_get he, by simpa using hr,
    e.nonZero_pos b, e.nonZero_runLen b, fun h0 => ?_, fun h0 => ?_⟩
  · rw [Encoder.nonZero_out, h0, Codec.flush_zero]
  · simp [Encoder.nonZero_out, Codec.flush_of_ne h0, markerBytes]

/-- Settles O12: the buffer gets what `flush` writes. -/
theorem eEndFlushesTheTrailingRun : Obligations.EEndFlushesTheTrailingRun := by
  intro s k e he hr hx
  have hlen : e.endInput.out.length = e.out.length + if e.runLen = 0x00#8 then 0 else 2 := by
    rw [Encoder.endInput_out, Codec.length_flush]
  refine ⟨_, e.endInput, exec_eEnd_of_run he hr (by simpa [hlen] using hx), State.setEnc_get he, e.endInput_phase,
    e.endInput_pos, e.endInput_runLen, fun h0 => ?_, fun h0 => ?_⟩
  · rw [Encoder.endInput_out, h0, Codec.flush_zero]
  · rw [Encoder.endInput_out, Codec.flush_of_ne h0, markerBytes]

end Sys2Proof.Machine
end

