-- ==== Sys2Proof/Proofs/EncoderTransaction.lean ====
section
/-! SUPPORT. An encoder's transaction (R115): a step over a token edge performs the token operation on the registers, every
byte leads `enc` from the registers before it to the registers after it, and so the run over all tokens ends in `encode`. -/

namespace Sys2Proof.Codec

/-- `enc` only appends to its output (R52). -/
theorem length_le_length_enc (b : Bytes) (r : Byte) (o : Bytes) : o.length ≤ (enc b r o).length := by
  rw [enc_eq, List.length_append]
  exact Nat.le_add_right ..

end Sys2Proof.Codec

namespace Sys2Proof.Machine

/-- One step of the machine as the host runs it, then the rest of the run. -/
theorem run_succ_of_step {n : Nat} {s t : State} (h : step s = .next t) :
    Host.Core.run core (n + 1) s = Host.Core.run core n t := by
  have hcore : core.step s = .next t := h
  simp only [Host.Core.run, hcore]

/-! ### The registers after a token (R112 to R114) -/

/-- The token operation of R94 on the registers: E.ZERO, E.NZ or E.END. -/
def Encoder.takeToken (e : Encoder) : Token → Encoder
  | .byte b => if b = 0x00#8 then e.zero else e.nonZero b
  | .endOfInput => e.endInput

theorem Encoder.takeToken_byte (e : Encoder) (b : Byte) :
    e.takeToken (.byte b) = if b = 0x00#8 then e.zero else e.nonZero b := rfl

theorem Encoder.takeToken_byte_phase (e : Encoder) (b : Byte) : (e.takeToken (.byte b)).phase = e.phase := by
  rw [Encoder.takeToken_byte]; split <;> simp

theorem Encoder.takeToken_byte_pos (e : Encoder) (b : Byte) : (e.takeToken (.byte b)).pos = e.pos + 1 := by
  rw [Encoder.takeToken_byte]; split <;> simp

/-- Taking a byte in registers is one round of `enc` (R115). -/
theorem enc_takeToken (x : Byte) (t : Bytes) (e : Encoder) :
    Codec.enc t (e.takeToken (.byte x)).runLen (e.takeToken (.byte x)).out = Codec.enc (x :: t) e.runLen e.out := by
  by_cases hx : x = 0x00#8
  · by_cases hr : e.runLen = maxRun
    · simp [Encoder.takeToken_byte, Codec.enc, hx, hr, Encoder.zero_runLen, Encoder.zero_out]
    · simp [Encoder.takeToken_byte, Codec.enc, hx, hr, Encoder.zero_runLen, Encoder.zero_out]
  · simp [Encoder.takeToken_byte, Codec.enc, hx, Encoder.nonZero_out]

/-- The operation a token selects is `takeToken`, within the capacities. -/
theorem exec_selectToken_enc {s : State} {k : Nat} {e : Encoder} (t : Token) (he : s.encs[k]? = some e)
    (hr : e.phase = .run) (hx : Params.excess s.cfg (e.takeToken t).pos (e.takeToken t).out.length = none) :
    exec (selectToken (.enc k) false t) s = .next (s.setEnc k (e.takeToken t)) := by
  cases t with
  | endOfInput => exact exec_eEnd_of_run he hr hx
  | byte b =>
    by_cases hb : b = 0x00#8
    · simp only [Encoder.takeToken_byte, selectToken, if_pos hb] at hx ⊢
      exact exec_eZero_of_run he hr hx
    · simp only [Encoder.takeToken_byte, selectToken, if_neg hb] at hx ⊢
      exact exec_eNz_of_run he hr hb hx

/-! ### The steps of a transaction (R171, R172, R178) -/

section
variable {s : State} {k : Nat} {e : Encoder} {rest : List Input}

/-- The step that accepts START gives the registers their START values. -/
theorem step_startEdge_enc (he : s.encs[k]? = some e) (hp : e.phase ≠ .run) (hw : s.waiting (.enc k) = none)
    (hin : s.inputs = startEdge (.enc k) :: rest) :
    ∃ t, step s = .next t ∧ t.encs[k]? = some Encoder.started ∧ t.waiting (.enc k) = none ∧ t.inputs = rest ∧
      t.cfg = s.cfg := by
  have hctx : s.ctx (.enc k) = some ⟨e.phase, false⟩ := by simp [State.ctx, he]
  have hkeep : keepsOffer (s.waiting (.enc k)) (startEdge (.enc k)) = true := by rw [hw, keepsOffer_none]
  have hdec : decode ⟨e.phase, false⟩ (startEdge (.enc k)) = .ok (.eStart k, []) := decode_start rfl rfl hp
  have hexec := exec_eStart_of_ne_run (s := s.advance (.enc k) none rest) (by simpa using he) hp
  exact ⟨_, (step_op hin hctx hkeep hdec).trans hexec, State.setEnc_get (by simpa using he),
    by rw [State.setEnc_waiting, State.advance_waiting_none], rfl, rfl⟩

/-- The step that takes a token in RUN performs its operation on the registers. -/
theorem step_tokenEdge_enc {x : Token} (he : s.encs[k]? = some e) (hr : e.phase = .run)
    (hw : s.waiting (.enc k) = none) (hin : s.inputs = tokenEdge (.enc k) x :: rest)
    (hx : Params.excess s.cfg (e.takeToken x).pos (e.takeToken x).out.length = none) :
    ∃ t, step s = .next t ∧ t.encs[k]? = some (e.takeToken x) ∧ t.waiting (.enc k) = none ∧ t.inputs = rest ∧
      t.cfg = s.cfg := by
  have hctx : s.ctx (.enc k) = some ⟨.run, false⟩ := by simp [State.ctx, he, hr]
  have hkeep : keepsOffer (s.waiting (.enc k)) (tokenEdge (.enc k) x) = true := by rw [hw, keepsOffer_none]
  have hstep := step_op hin hctx hkeep (decode_token (.enc k) false x)
  rw [waitingAfter_selectToken] at hstep
  have hexec := exec_selectToken_enc (s := s.advance (.enc k) none rest) x (by simpa using he) hr hx
  exact ⟨_, hstep.trans hexec, State.setEnc_get (by simpa using he),
    by rw [State.setEnc_waiting, State.advance_waiting_none], rfl, rfl⟩

end

/-- An encoder in RUN takes the tokens of `b` and ends in DONE with what `enc` gives from its registers. -/
theorem run_tokens_enc {k : Nat} {rest : List Input} (b : Bytes) {s : State} {e : Encoder} (he : s.encs[k]? = some e)
    (hr : e.phase = .run) (hw : s.waiting (.enc k) = none)
    (hin : s.inputs = (tokens b).map (tokenEdge (.enc k)) ++ rest)
    (hx : Params.excess s.cfg (e.pos + b.length) (Codec.enc b e.runLen e.out).length = none) :
    ∃ t e', Host.Core.run core (b.length + 1) s = .next t ∧ t.inputs = rest ∧ t.encs[k]? = some e' ∧
      e'.phase = .done ∧ e'.out = Codec.enc b e.runLen e.out ∧ e'.pos = e.pos + b.length ∧ e'.runLen = 0x00#8 := by
  induction b generalizing s e with
  | nil =>
    have hout : e.endInput.out = Codec.enc [] e.runLen e.out := e.endInput_out
    obtain ⟨t, hstep, hget, -, hrest, -⟩ :=
      step_tokenEdge_enc (x := .endOfInput) he hr hw hin (by simpa [Encoder.takeToken, hout] using hx)
    exact ⟨t, e.endInput, run_succ_of_step hstep, hrest, hget, e.endInput_phase, hout, e.endInput_pos,
      e.endInput_runLen⟩
  | cons x b ih =>
    have hpos : (e.takeToken (.byte x)).pos + b.length = e.pos + (x :: b).length := by
      rw [Encoder.takeToken_byte_pos, List.length_cons]; omega
    have henc := enc_takeToken x b e
    have hnext : Params.excess s.cfg (e.takeToken (.byte x)).pos (e.takeToken (.byte x)).out.length = none :=
      excess_mono (by omega) (henc ▸ Codec.length_le_length_enc ..) hx
    obtain ⟨s', hstep, hget, hwait, hin', hcfg⟩ := step_tokenEdge_enc (x := .byte x) he hr hw hin hnext
    obtain ⟨t, e', hrun, hend⟩ :=
      ih hget ((e.takeToken_byte_phase x).trans hr) hwait hin' (by rw [hcfg, hpos, henc]; exact hx)
    rw [henc, hpos] at hend
    exact ⟨t, e', (run_succ_of_step hstep).trans hrun, hend⟩

/-- Settles O53: START gives the registers from which `enc` computes `encode`, whatever the encoder held before. -/
theorem encoderTransactionComputesEncode : Obligations.EncoderTransactionComputesEncode := by
  intro s k e b rest he hp hw hin hx
  obtain ⟨s', hstep, hget, hwait, hin', hcfg⟩ := step_startEdge_enc he hp hw hin
  obtain ⟨t, e', hrun, hrest, hget', hphase, hout, hpos, hlen⟩ :=
    run_tokens_enc b hget Encoder.started_phase hwait hin' (by simpa [hcfg, Codec.encode] using hx)
  have hout : e'.out = Codec.encode b := hout
  exact ⟨t, e', (run_succ_of_step hstep).trans hrun, hrest, hget', hphase, hout, by simpa using hpos, hlen,
    by simp [Encoder.result, resultView, hphase, hout]⟩

end Sys2Proof.Machine
end

