-- ==== Sys2Proof/Proofs/ClosedForm.lean ====
section
/-! SUPPORT. `encode` as the closed form over maximal zero runs (R116), its length (R119), the zero-free sequences (R118,
R150) and the round trip (R121). -/

namespace Sys2Proof.Codec

open Sys2Proof.Machine

/-! ### The markers of a run (R116) -/

@[simp] theorem markers_zero : markers 0 = [] := rfl

/-- 255 zeros more are one full marker more, at the front. -/
theorem markers_add_255 (n : Nat) : markers (n + 255) = markerBytes maxRun ++ markers n := by
  simp [markers, Nat.add_div_right, List.replicate_succ]

/-- A run that fits the counter is written as the flush of the counter (R111). -/
theorem markers_toNat (r : Byte) : markers r.toNat = symbols (flushSyms r) := by
  by_cases h0 : r = 0x00#8
  · subst h0; rfl
  by_cases hmax : r = maxRun
  · subst hmax; rfl
  have hne0 : r.toNat ≠ 0 := fun h => h0 (BitVec.eq_of_toNat_eq h)
  have hne255 : r.toNat ≠ 255 := fun h => hmax (BitVec.eq_of_toNat_eq h)
  have hlt : r.toNat < 255 := by have := r.isLt; omega
  simp [markers, flushSyms, byte_pos_iff.2 h0, Nat.div_eq_of_lt hlt, Nat.mod_eq_of_lt hlt, hne0, Sym.bytes]

theorem length_markers (n : Nat) : (markers n).length = 2 * ceil255 n := by
  have hlen : (markers n).length = 2 * (n / 255) + if n % 255 = 0 then 0 else 2 := by
    by_cases h : n % 255 = 0
    · simp [markers, markerBytes, h, Nat.mul_comm]
    · simp [markers, markerBytes, h, Nat.mul_comm]
  rw [hlen, ceil255]
  split <;> omega

/-! ### The closed form (R116) -/

theorem closedFrom_zero (n : Nat) (t : Bytes) : closedFrom n (0x00#8 :: t) = closedFrom (n + 1) t := if_pos rfl

theorem closedFrom_nonZero {x : Byte} (hx : x ≠ 0x00#8) (n : Nat) (t : Bytes) :
    closedFrom n (x :: t) = markers n ++ x :: closedFrom 0 t := if_neg hx

/-- 255 counted zeros more are one full marker more, whatever follows. -/
theorem closedFrom_add_255 (n : Nat) (b : Bytes) : closedFrom (n + 255) b = markerBytes maxRun ++ closedFrom n b := by
  induction b generalizing n with
  | nil => exact markers_add_255 n
  | cons x t ih =>
    by_cases hx : x = 0x00#8
    · subst hx; rw [closedFrom_zero, closedFrom_zero, ← ih, Nat.add_right_comm]
    · rw [closedFrom_nonZero hx, closedFrom_nonZero hx, markers_add_255, List.append_assoc]

/-- The symbols the encoder writes are the closed form with the counter's zeros already counted. -/
theorem symbols_encSyms (b : Bytes) (r : Byte) : symbols (encSyms b r) = closedFrom r.toNat b := by
  induction b generalizing r with
  | nil => exact (markers_toNat r).symm
  | cons x t ih =>
    by_cases hx : x = 0x00#8
    · subst hx
      rw [encSyms, if_pos rfl, closedFrom_zero]
      by_cases hr : r = maxRun
      · subst hr
        rw [if_pos rfl, symbols_cons, ih]
        exact (closedFrom_add_255 1 t).symm
      · rw [if_neg hr, ih, toNat_succ hr]
    · rw [encSyms, if_neg hx, closedFrom_nonZero hx, symbols_append, symbols_cons, ih, markers_toNat]
      rfl

theorem encode_eq_closedForm (b : Bytes) : encode b = closedForm b := by
  rw [encode_eq, symbols_encSyms]; rfl

theorem closedFrom_zeros (m n : Nat) : closedFrom m (zeros n) = markers (m + n) := by
  induction n generalizing m with
  | zero => rfl
  | succ n ih => rw [zeros_succ, closedFrom_zero, ih, Nat.add_right_comm, Nat.add_assoc]

/-- A sequence of `n` zeros is one run. -/
theorem encode_zeros (n : Nat) : encode (zeros n) = markers n := by
  rw [encode_eq_closedForm, closedForm, closedFrom_zeros, Nat.zero_add]

/-- Without zeros there is no run to write (R118). -/
theorem encode_of_zeroFree {b : Bytes} (h : ∀ x ∈ b, x ≠ 0x00#8) : encode b = b := by
  rw [encode_eq_closedForm, closedForm]
  induction b with
  | nil => rfl
  | cons x t ih =>
    obtain ⟨hx, ht⟩ := List.forall_mem_cons.1 h
    rw [closedFrom_nonZero hx, ih ht, markers_zero, List.nil_append]

/-! ### The length (R119) -/

theorem ceil255_le (n : Nat) : ceil255 n ≤ n := by unfold ceil255; omega

/-- Only the runs of length 0 and 1 have as many markers as zeros. -/
theorem ceil255_eq_self_iff {n : Nat} : ceil255 n = n ↔ n ≤ 1 := by unfold ceil255; omega

/-- The run that ends here, or none, contributes its markers. -/
theorem sum_ceil255_pending (n : Nat) : ((if n = 0 then [] else [n]).map ceil255).sum = ceil255 n := by
  by_cases h : n = 0
  · subst h; rfl
  · simp [h]

theorem length_closedFrom (n : Nat) (b : Bytes) :
    (closedFrom n b).length = nonZeros b + 2 * ((runsFrom n b).map ceil255).sum := by
  induction b generalizing n with
  | nil => rw [closedFrom, length_markers, runsFrom, sum_ceil255_pending]; simp [nonZeros]
  | cons x t ih =>
    by_cases hx : x = 0x00#8
    · subst hx
      have hz : nonZeros (0x00#8 :: t) = nonZeros t := by simp [nonZeros]
      rw [closedFrom_zero, ih, runsFrom, if_pos rfl, hz]
    · have hz : nonZeros (x :: t) = nonZeros t + 1 := by simp [nonZeros, hx]
      rw [closedFrom_nonZero hx, List.length_append, List.length_cons, length_markers, ih, runsFrom, if_neg hx,
        List.map_append, List.sum_append, sum_ceil255_pending, hz]
      omega

theorem length_closedFrom_le (n : Nat) (b : Bytes) : (closedFrom n b).length ≤ 2 * (n + b.length) := by
  induction b generalizing n with
  | nil =>
    have hceil := ceil255_le n
    rw [closedFrom, length_markers, List.length_nil]; omega
  | cons x t ih =>
    by_cases hx : x = 0x00#8
    · subst hx
      have hrest := ih (n + 1)
      rw [closedFrom_zero, List.length_cons]; omega
    · have hrest := ih 0
      have hceil := ceil255_le n
      rw [closedFrom_nonZero hx, List.length_append, List.length_cons, length_markers, List.length_cons]; omega

/-- The bound is reached only by no byte at all or one single zero: a literal stays below it, and so do two zeros. -/
theorem length_closedFrom_eq_iff (n : Nat) (b : Bytes) :
    (closedFrom n b).length = 2 * (n + b.length) ↔ n + b.length ≤ 1 ∧ ∀ x ∈ b, x = 0x00#8 := by
  induction b generalizing n with
  | nil =>
    have hceil := ceil255_eq_self_iff (n := n)
    rw [closedFrom, length_markers, List.length_nil, Nat.add_zero, Nat.mul_right_inj (by decide), hceil]
    simp
  | cons x t ih =>
    by_cases hx : x = 0x00#8
    · subst hx
      have hlen : n + (0x00#8 :: t).length = n + 1 + t.length := by rw [List.length_cons]; omega
      rw [closedFrom_zero, hlen, ih]
      simp
    · have hlt : (closedFrom n (x :: t)).length < 2 * (n + (x :: t).length) := by
        have hrest := length_closedFrom_le 0 t
        have hceil := ceil255_le n
        rw [closedFrom_nonZero hx, List.length_append, List.length_cons, length_markers, List.length_cons]; omega
      exact iff_of_false hlt.ne fun h => hx (h.2 x (List.mem_cons_self ..))

/-- `[]` and `[0x00]` are the sequences of at most one byte, all of them zero. -/
theorem length_le_one_zeros_iff (b : Bytes) :
    (b.length ≤ 1 ∧ ∀ x ∈ b, x = 0x00#8) ↔ b = [] ∨ b = [0x00#8] := by
  match b with
  | [] => simp
  | [x] => simp
  | x :: y :: t => simp

/-! ### The statements -/

/-- Settles O42: the symbols written for `b` are parsed again and stand for `b` (`decode_encode`). -/
theorem decodeOfEncodeIsTheInput : Obligations.DecodeOfEncodeIsTheInput := decode_encode

/-- Settles O45: the counter's rollover at 255 takes a full marker off the front of the closed form. -/
theorem encodeHasTheClosedForm : Obligations.EncodeHasTheClosedForm :=
  ⟨encode_eq_closedForm, fun n => ⟨encode_zeros n, length_markers n⟩⟩

/-- Settles O46, read off the closed form. -/
theorem encodeLengthFormula : Obligations.EncodeLengthFormula := by
  intro b
  rw [encode_eq_closedForm, closedForm]
  have hle := length_closedFrom_le 0 b
  have heq := length_closedFrom_eq_iff 0 b
  rw [Nat.zero_add] at hle heq
  exact ⟨length_closedFrom 0 b, hle, heq.trans (length_le_one_zeros_iff b)⟩

/-- Settles O48: `encode` leaves such a sequence as it is, so `decode` gives it back by the round trip. -/
theorem zeroFreeSequencesAreUnchanged : Obligations.ZeroFreeSequencesAreUnchanged := by
  intro b h
  have henc : encode b = b := encode_of_zeroFree h
  exact ⟨henc, by simpa [henc] using decode_encode b⟩

end Sys2Proof.Codec
end

