-- ==== Sys2Proof/Proofs/DecoderTokens.lean ====
section
/-! SUPPORT. The registers after each token operation of a decoder, what the operation answers in RUN within the capacities,
and the statements about D.LIT, D.MARK, D.LEN and D.END (R141 to R143, R145, R146). -/

namespace Sys2Proof.Machine

/-! ### The registers after D.LIT, D.MARK, D.LEN and D.END (ok) -/

@[simp] theorem Decoder.literal_phase (b : Byte) (d : Decoder) : (d.literal b).phase = d.phase := rfl
@[simp] theorem Decoder.literal_pend (b : Byte) (d : Decoder) : (d.literal b).pend = d.pend := rfl
@[simp] theorem Decoder.literal_pos (b : Byte) (d : Decoder) : (d.literal b).pos = d.pos + 1 := rfl
@[simp] theorem Decoder.literal_out (b : Byte) (d : Decoder) : (d.literal b).out = d.out ++ [b] := rfl
@[simp] theorem Decoder.literal_err (b : Byte) (d : Decoder) : (d.literal b).err = d.err := rfl

@[simp] theorem Decoder.mark_phase (d : Decoder) : d.mark.phase = d.phase := rfl
@[simp] theorem Decoder.mark_pend (d : Decoder) : d.mark.pend = true := rfl
@[simp] theorem Decoder.mark_pos (d : Decoder) : d.mark.pos = d.pos + 1 := rfl
@[simp] theorem Decoder.mark_out (d : Decoder) : d.mark.out = d.out := rfl
@[simp] theorem Decoder.mark_err (d : Decoder) : d.mark.err = d.err := rfl

@[simp] theorem Decoder.length_phase (l : Byte) (d : Decoder) : (d.length l).phase = d.phase := rfl
@[simp] theorem Decoder.length_pend (l : Byte) (d : Decoder) : (d.length l).pend = false := rfl
@[simp] theorem Decoder.length_pos (l : Byte) (d : Decoder) : (d.length l).pos = d.pos + 1 := rfl
@[simp] theorem Decoder.length_out (l : Byte) (d : Decoder) : (d.length l).out = d.out ++ runBytes l := rfl
@[simp] theorem Decoder.length_err (l : Byte) (d : Decoder) : (d.length l).err = d.err := rfl

@[simp] theorem Decoder.endOk_phase (d : Decoder) : d.endOk.phase = .done := rfl
@[simp] theorem Decoder.endOk_pend (d : Decoder) : d.endOk.pend = d.pend := rfl
@[simp] theorem Decoder.endOk_pos (d : Decoder) : d.endOk.pos = d.pos := rfl
@[simp] theorem Decoder.endOk_out (d : Decoder) : d.endOk.out = d.out := rfl
@[simp] theorem Decoder.endOk_err (d : Decoder) : d.endOk.err = .noError := rfl

/-! ### The results (R174) -/

theorem Decoder.endOk_result (d : Decoder) : d.endOk.result = some (.ok d.out) := rfl

theorem Decoder.raiseTruncatedMarker_result (d : Decoder) :
    d.raiseTruncatedMarker.result = some (.err .truncatedMarker) := rfl

/-- Outside RUN a decoder takes no token, however willing it is (R172, R178). -/
theorem Decoder.not_inReady_of_ne_run {d : Decoder} (h : d.phase ≠ .run) (ready : Bool) :
    (d.outputs ready).inReady = false := by
  simp [Decoder.outputs, outWires, h]

/-! ### The token operations in RUN, within the capacities -/

section
variable {s : State} {k : Nat} {d : Decoder}

theorem exec_dLit_of_run {b : Byte} (hd : s.decs[k]? = some d) (hr : d.phase = .run) (hp : d.pend = false)
    (hb : b ≠ 0x00#8) (hx : Params.excess s.cfg (d.pos + 1) (d.out.length + 1) = none) :
    exec (.dLit k b) s = .next (s.setDec k (d.literal b)) := by
  have hsel : (!d.pend && b != 0x00#8) = true := by simp [hp, hb]
  rw [exec_dec rfl hd, decLocal, decTokenLocal_run (sel := fun d => !d.pend && b != 0x00#8) hr hsel (by simpa using hx),
    liftDec]

theorem exec_dMark_of_run (hd : s.decs[k]? = some d) (hr : d.phase = .run) (hp : d.pend = false)
    (hx : Params.excess s.cfg (d.pos + 1) d.out.length = none) :
    exec (.dMark k) s = .next (s.setDec k d.mark) := by
  have hsel : (!d.pend) = true := by rw [hp]; rfl
  rw [exec_dec rfl hd, decLocal, decTokenLocal_run (sel := fun d => !d.pend) hr hsel hx, liftDec]

theorem exec_dLen_of_run {l : Byte} (hd : s.decs[k]? = some d) (hr : d.phase = .run) (hp : d.pend = true)
    (hx : Params.excess s.cfg (d.pos + 1) (d.out.length + l.toNat) = none) :
    exec (.dLen k l) s = .next (s.setDec k (d.length l)) := by
  have hlen : (d.length l).out.length = d.out.length + l.toNat := by simp [Codec.runBytes_eq]
  have hlocal : decLocal s.cfg (.dLen k l) d = .ok (d.length l) := decTokenLocal_run hr hp (by rw [hlen]; exact hx)
  rw [exec_dec rfl hd, hlocal, liftDec]

theorem exec_dEndOk_of_run (hd : s.decs[k]? = some d) (hr : d.phase = .run) (hp : d.pend = false)
    (hx : Params.excess s.cfg d.pos d.out.length = none) :
    exec (.dEndOk k) s = .next (s.setDec k d.endOk) := by
  have hsel : (!d.pend) = true := by rw [hp]; rfl
  rw [exec_dec rfl hd, decLocal, decTokenLocal_run (sel := fun d => !d.pend) hr hsel hx, liftDec]

theorem exec_dEndTrunc_of_run (hd : s.decs[k]? = some d) (hr : d.phase = .run) (hp : d.pend = true)
    (hx : Params.excess s.cfg d.pos 0 = none) :
    exec (.dEndTrunc k) s = .next (s.setDec k d.raiseTruncatedMarker) := by
  rw [exec_dec rfl hd, decLocal, decTokenLocal_run (sel := Decoder.pend) hr hp hx, liftDec]

end

/-! ### The statements -/

/-- Settles O13. -/
theorem dLitAppendsTheByte : Obligations.DLitAppendsTheByte := fun _ _ _ _ hd hr hp hb hx =>
  ⟨_, _, exec_dLit_of_run hd hr hp hb hx, State.setDec_get hd, hr, hp, rfl, rfl, rfl⟩

/-- Settles O14. -/
theorem dMarkRemembersTheMarker : Obligations.DMarkRemembersTheMarker := fun _ _ _ hd hr hp hx =>
  ⟨_, _, exec_dMark_of_run hd hr hp hx, State.setDec_get hd, hr, rfl, rfl, rfl, rfl⟩

/-- Settles O15: `runBytes` is that many zeros for every length byte. -/
theorem dLenAppendsThatManyZeros : Obligations.DLenAppendsThatManyZeros := fun _ _ _ _ hd hr hp hx =>
  ⟨_, _, exec_dLen_of_run hd hr hp hx, State.setDec_get hd, hr, rfl, rfl, rfl, rfl⟩

/-- Settles O16. -/
theorem dEndWithNoMarkerPendingSucceeds : Obligations.DEndWithNoMarkerPendingSucceeds := fun _ _ d hd hr hp hx =>
  ⟨_, d.endOk, exec_dEndOk_of_run hd hr hp hx, State.setDec_get hd, rfl, hp, rfl, rfl, rfl, d.endOk_result⟩

/-- Settles O17: only decoder `k` is written, and in FAIL it takes no token. -/
theorem dEndWithAMarkerPendingFails : Obligations.DEndWithAMarkerPendingFails := fun _ _ d hd hr hp hx =>
  ⟨_, d.raiseTruncatedMarker, exec_dEndTrunc_of_run hd hr hp hx, State.setDec_get hd, rfl, rfl, rfl, rfl, rfl, rfl,
    d.raiseTruncatedMarker_result, rfl, rfl, rfl, rfl, rfl, fun _ hj => State.setDec_get_ne hj.symm,
    Decoder.not_inReady_of_ne_run (by simp)⟩

end Sys2Proof.Machine
end

