-- ==== Sys2Proof/Proofs/DecoderTransaction.lean ====
section
/-! SUPPORT. A decoder's transaction (R148): a step over a token edge performs the token operation on the registers, every
byte keeps what the registers and the unread bytes together parse to, and so the run over all tokens ends in `decode`. -/

namespace Sys2Proof.Machine

/-! ### The registers after a token (R141 to R146) -/

/-- The token operation of R94 on the registers: D.LEN, D.MARK or D.LIT for a byte, D.END for the end. -/
def Decoder.takeToken (d : Decoder) : Token → Decoder
  | .byte b => if d.pend then d.length b else if b = 0x00#8 then d.mark else d.literal b
  | .endOfInput => if d.pend then d.raiseTruncatedMarker else d.endOk

/-- A byte is the length byte of a pending marker, a marker byte or a literal. -/
theorem Decoder.takeToken_byte_cases (d : Decoder) (b : Byte) :
    (d.pend = true ∧ d.takeToken (.byte b) = d.length b) ∨
    (d.pend = false ∧ b = 0x00#8 ∧ d.takeToken (.byte b) = d.mark) ∨
    (d.pend = false ∧ b ≠ 0x00#8 ∧ d.takeToken (.byte b) = d.literal b) := by
  cases hp : d.pend with
  | true => exact .inl ⟨rfl, by simp [Decoder.takeToken, hp]⟩
  | false =>
    by_cases hb : b = 0x00#8
    · exact .inr (.inl ⟨rfl, hb, by simp [Decoder.takeToken, hp, hb]⟩)
    · exact .inr (.inr ⟨rfl, hb, by simp [Decoder.takeToken, hp, hb]⟩)

theorem Decoder.takeToken_byte_phase (d : Decoder) (b : Byte) : (d.takeToken (.byte b)).phase = d.phase := by
  rcases d.takeToken_byte_cases b with ⟨-, h⟩ | ⟨-, -, h⟩ | ⟨-, -, h⟩ <;> rw [h] <;> rfl

theorem Decoder.takeToken_byte_pos (d : Decoder) (b : Byte) : (d.takeToken (.byte b)).pos = d.pos + 1 := by
  rcases d.takeToken_byte_cases b with ⟨-, h⟩ | ⟨-, -, h⟩ | ⟨-, -, h⟩ <;> rw [h] <;> rfl

/-- The operation a token selects is `takeToken`, within the capacities. -/
theorem exec_selectToken_dec {s : State} {k : Nat} {d : Decoder} (t : Token) (hd : s.decs[k]? = some d)
    (hr : d.phase = .run) (hx : Params.excess s.cfg (d.takeToken t).pos (d.takeToken t).out.length = none) :
    exec (selectToken (.dec k) d.pend t) s = .next (s.setDec k (d.takeToken t)) := by
  cases t with
  | endOfInput =>
    cases hp : d.pend <;> simp only [Decoder.takeToken, selectToken, hp, Bool.false_eq_true, if_true, if_false] at hx ⊢
    · exact exec_dEndOk_of_run hd hr hp hx
    · exact exec_dEndTrunc_of_run hd hr hp hx
  | byte b =>
    rcases d.takeToken_byte_cases b with ⟨hp, h⟩ | ⟨hp, rfl, h⟩ | ⟨hp, hb, h⟩ <;> rw [h] at hx ⊢
    · simpa [selectToken, hp] using exec_dLen_of_run hd hr hp (by simpa [Codec.runBytes_eq] using hx)
    · simpa [selectToken, hp] using exec_dMark_of_run hd hr hp hx
    · simpa [selectToken, hp, hb] using exec_dLit_of_run hd hr hp hb (by simpa using hx)

/-! ### What is still to be parsed -/

/-- The bytes `dec` has still to read when `c` is yet to come: a pending marker byte was consumed, but its symbol was not
executed. -/
def Decoder.unread (d : Decoder) (c : Bytes) : Bytes := if d.pend then markerByte :: c else c

/-- The buffer once every complete symbol of `c` has been executed. -/
def Decoder.filled (d : Decoder) (c : Bytes) : Bytes := d.out ++ (Codec.parse (d.unread c)).1.flatMap Codec.Sym.plain

theorem Decoder.out_length_le_filled (d : Decoder) (c : Bytes) : d.out.length ≤ (d.filled c).length := by
  rw [Decoder.filled, List.length_append]
  exact Nat.le_add_right ..

/-- `dec` from the registers (R148): the error if a marker is cut off, otherwise the filled buffer. -/
theorem Decoder.dec_unread (d : Decoder) (c : Bytes) :
    Codec.dec (d.unread c) d.out =
      if (Codec.parse (d.unread c)).2 then .err .truncatedMarker else .ok (d.filled c) := Codec.dec_eq ..

/-- Taking a byte in registers leaves the filled buffer as it is, and whether a marker is cut off. -/
theorem Decoder.parse_takeToken (d : Decoder) (x : Byte) (c : Bytes) :
    (d.takeToken (.byte x)).filled c = d.filled (x :: c) ∧
      (Codec.parse ((d.takeToken (.byte x)).unread c)).2 = (Codec.parse (d.unread (x :: c))).2 := by
  rcases d.takeToken_byte_cases x with ⟨hp, h⟩ | ⟨hp, rfl, h⟩ | ⟨hp, hx, h⟩ <;> rw [h]
  · simp [Decoder.filled, Decoder.unread, hp, Codec.parse_run, Codec.Sym.plain]
  · simp [Decoder.filled, Decoder.unread, hp]
  · simp [Decoder.filled, Decoder.unread, hp, Codec.parse_lit hx, Codec.Sym.plain]

/-- Taking a byte in registers is one round of `dec`. -/
theorem Decoder.dec_takeToken (d : Decoder) (x : Byte) (c : Bytes) :
    Codec.dec ((d.takeToken (.byte x)).unread c) (d.takeToken (.byte x)).out = Codec.dec (d.unread (x :: c)) d.out := by
  obtain ⟨hfilled, hcut⟩ := d.parse_takeToken x c
  rw [Decoder.dec_unread, Decoder.dec_unread, hfilled, hcut]

/-! ### How a transaction ends (R145, R146, R174) -/

/-- The decoder's transaction has ended with result `r`, and phase, error code and buffer are those of that result. -/
def Decoder.EndedWith (r : Result) (d : Decoder) : Prop :=
  d.pend = false ∧ d.result = some r ∧
  (∀ o, r = .ok o → d.phase = .done ∧ d.err = .noError ∧ d.out = o) ∧
  (∀ k, r = .err k → d.phase = .fail ∧ d.err = .truncatedMarker ∧ d.out = [])

/-- `End` gives the result of `dec` on what is unread: nothing, or a bare marker byte. -/
theorem Decoder.takeToken_end_endedWith (d : Decoder) :
    (d.takeToken .endOfInput).EndedWith (Codec.dec (d.unread []) d.out) := by
  cases hp : d.pend with
  | false =>
    have hdec : Codec.dec (d.unread []) d.out = .ok d.out := by simp [Decoder.unread, hp, Codec.dec]
    have htake : d.takeToken .endOfInput = d.endOk := by simp [Decoder.takeToken, hp]
    rw [hdec, htake]
    exact ⟨hp, d.endOk_result, fun o ho => ⟨rfl, rfl, by simpa using ho⟩, nofun⟩
  | true =>
    have hdec : Codec.dec (d.unread []) d.out = .err .truncatedMarker := by simp [Decoder.unread, hp, Codec.dec]
    have htake : d.takeToken .endOfInput = d.raiseTruncatedMarker := by simp [Decoder.takeToken, hp]
    rw [hdec, htake]
    exact ⟨rfl, d.raiseTruncatedMarker_result, nofun, fun _ _ => ⟨rfl, rfl, rfl⟩⟩

theorem Decoder.takeToken_end_pos (d : Decoder) : (d.takeToken .endOfInput).pos = d.pos := by
  rw [Decoder.takeToken]; split <;> rfl

theorem Decoder.takeToken_end_out_length_le (d : Decoder) : (d.takeToken .endOfInput).out.length ≤ d.out.length := by
  rw [Decoder.takeToken]; split <;> simp

/-! ### The steps of a transaction (R171, R172, R178) -/

section
variable {s : State} {k : Nat} {d : Decoder} {rest : List Input}

/-- The step that accepts START gives the registers their START values. -/
theorem step_startEdge_dec (hd : s.decs[k]? = some d) (hp : d.phase ≠ .run) (hw : s.waiting (.dec k) = none)
    (hin : s.inputs = startEdge (.dec k) :: rest) :
    ∃ t, step s = .next t ∧ t.decs[k]? = some Decoder.started ∧ t.waiting (.dec k) = none ∧ t.inputs = rest ∧
      t.cfg = s.cfg := by
  have hctx : s.ctx (.dec k) = some ⟨d.phase, d.pend⟩ := by simp [State.ctx, hd]
  have hkeep : keepsOffer (s.waiting (.dec k)) (startEdge (.dec k)) = true := by rw [hw, keepsOffer_none]
  have hdec : decode ⟨d.phase, d.pend⟩ (startEdge (.dec k)) = .ok (.dStart k, []) := decode_start rfl rfl hp
  have hexec := exec_dStart_of_ne_run (s := s.advance (.dec k) none rest) (by simpa using hd) hp
  exact ⟨_, (step_op hin hctx hkeep hdec).trans hexec, State.setDec_get (by simpa using hd),
    by rw [State.setDec_waiting, State.advance_waiting_none], rfl, rfl⟩

/-- The step that takes a token in RUN performs its operation on the registers. -/
theorem step_tokenEdge_dec {x : Token} (hd : s.decs[k]? = some d) (hr : d.phase = .run)
    (hw : s.waiting (.dec k) = none) (hin : s.inputs = tokenEdge (.dec k) x :: rest)
    (hx : Params.excess s.cfg (d.takeToken x).pos (d.takeToken x).out.length = none) :
    ∃ t, step s = .next t ∧ t.decs[k]? = some (d.takeToken x) ∧ t.waiting (.dec k) = none ∧ t.inputs = rest ∧
      t.cfg = s.cfg := by
  have hctx : s.ctx (.dec k) = some ⟨.run, d.pend⟩ := by simp [State.ctx, hd, hr]
  have hkeep : keepsOffer (s.waiting (.dec k)) (tokenEdge (.dec k) x) = true := by rw [hw, keepsOffer_none]
  have hstep := step_op hin hctx hkeep (decode_token (.dec k) d.pend x)
  rw [waitingAfter_selectToken] at hstep
  have hexec := exec_selectToken_dec (s := s.advance (.dec k) none rest) x (by simpa using hd) hr hx
  exact ⟨_, hstep.trans hexec, State.setDec_get (by simpa using hd),
    by rw [State.setDec_waiting, State.advance_waiting_none], rfl, rfl⟩

end

/-- A decoder in RUN takes the tokens of `c` and ends with what `dec` gives from its registers. -/
theorem run_tokens_dec {k : Nat} {rest : List Input} (c : Bytes) {s : State} {d : Decoder} (hd : s.decs[k]? = some d)
    (hr : d.phase = .run) (hw : s.waiting (.dec k) = none)
    (hin : s.inputs = (tokens c).map (tokenEdge (.dec k)) ++ rest)
    (hx : Params.excess s.cfg (d.pos + c.length) (d.filled c).length = none) :
    ∃ t d', Host.Core.run core (c.length + 1) s = .next t ∧ t.inputs = rest ∧ t.decs[k]? = some d' ∧
      d'.pos = d.pos + c.length ∧ d'.EndedWith (Codec.dec (d.unread c) d.out) := by
  induction c generalizing s d with
  | nil =>
    have hend : Params.excess s.cfg (d.takeToken .endOfInput).pos (d.takeToken .endOfInput).out.length = none :=
      excess_mono d.takeToken_end_pos.le (d.takeToken_end_out_length_le.trans (d.out_length_le_filled [])) hx
    obtain ⟨t, hstep, hget, -, hrest, -⟩ := step_tokenEdge_dec hd hr hw hin hend
    exact ⟨t, _, run_succ_of_step hstep, hrest, hget, d.takeToken_end_pos, d.takeToken_end_endedWith⟩
  | cons x c ih =>
    have hpos : (d.takeToken (.byte x)).pos + c.length = d.pos + (x :: c).length := by
      rw [Decoder.takeToken_byte_pos, List.length_cons]; omega
    have hfilled := (d.parse_takeToken x c).1
    have hnext : Params.excess s.cfg (d.takeToken (.byte x)).pos (d.takeToken (.byte x)).out.length = none :=
      excess_mono (by omega) (hfilled ▸ Decoder.out_length_le_filled ..) hx
    obtain ⟨s', hstep, hget, hwait, hin', hcfg⟩ := step_tokenEdge_dec (x := .byte x) hd hr hw hin hnext
    obtain ⟨t, d', hrun, hend⟩ :=
      ih hget ((d.takeToken_byte_phase x).trans hr) hwait hin' (by rw [hcfg, hpos, hfilled]; exact hx)
    rw [d.dec_takeToken, hpos] at hend
    exact ⟨t, d', (run_succ_of_step hstep).trans hrun, hend⟩

/-- Settles O54: START gives the registers from which `dec` computes `decode`, whatever the decoder held before. -/
theorem decoderTransactionComputesDecode : Obligations.DecoderTransactionComputesDecode := by
  intro s k d c rest hd hp hw hin hx
  obtain ⟨s', hstep, hget, hwait, hin', hcfg⟩ := step_startEdge_dec hd hp hw hin
  have hfilled : Decoder.started.filled c = (Codec.parse c).1.flatMap Codec.Sym.plain := rfl
  obtain ⟨t, d', hrun, hrest, hget', hpos, hpend, hresult, hok, herr⟩ :=
    run_tokens_dec c hget Decoder.started_phase hwait hin' (by simpa [hcfg, hfilled] using hx)
  exact ⟨t, d', (run_succ_of_step hstep).trans hrun, hrest, hget', by simpa using hpos, hpend, hresult, hok, herr⟩

end Sys2Proof.Machine
end

