-- ==== Sys2Proof/Proofs/DecodeLength.lean ====
section
/-! SUPPORT. The lengths of a compressed sequence and of what it decodes to, counted symbol by symbol, and where the bound of
R153 is reached. -/

namespace Sys2Proof.Codec

open Sys2Proof.Machine

/-! ### Counting symbols -/

/-- A literal. -/
def Sym.isLit : Sym → Bool
  | .lit _ => true
  | .run _ => false

/-- A marker. -/
def Sym.isRun : Sym → Bool
  | .lit _ => false
  | .run _ => true

/-- The number of plain bytes a symbol stands for. -/
def Sym.plainLength : Sym → Nat
  | .lit _ => 1
  | .run l => l.toNat

theorem Sym.length_plain (y : Sym) : y.plain.length = y.plainLength := by
  cases y with
  | lit b => rfl
  | run l => exact length_zeros l.toNat

/-- A literal is one byte, a marker two. -/
theorem length_symbols (l : List Sym) : (symbols l).length = l.countP Sym.isLit + 2 * l.countP Sym.isRun := by
  induction l with
  | nil => rfl
  | cons y l ih =>
    cases y with
    | lit b => simp [Sym.bytes, List.countP_cons, Sym.isLit, Sym.isRun, ih]; omega
    | run m => simp [Sym.bytes, markerBytes, List.countP_cons, Sym.isLit, Sym.isRun, ih]; omega

theorem length_plain (l : List Sym) : (l.flatMap Sym.plain).length = (l.map Sym.plainLength).sum := by
  simp only [List.length_flatMap, Sym.length_plain]

/-- A literal stands for one byte, a marker for at most 255. -/
theorem sum_plainLength_le (l : List Sym) :
    (l.map Sym.plainLength).sum ≤ l.countP Sym.isLit + 255 * l.countP Sym.isRun := by
  induction l with
  | nil => exact Nat.le_refl 0
  | cons y l ih =>
    cases y with
    | lit b => simp [Sym.plainLength, List.countP_cons, Sym.isLit, Sym.isRun]; omega
    | run m =>
      have hm := m.isLt
      simp [Sym.plainLength, List.countP_cons, Sym.isLit, Sym.isRun]; omega

/-! ### Accepted sequences -/

/-- A sequence that decodes is its symbols laid end to end, and it decodes to their plain bytes. -/
theorem decode_ok_elim {c o : Bytes} (h : decode c = .ok o) :
    c = symbols (parse c).1 ∧ o = (parse c).1.flatMap Sym.plain := by
  cases hc : (parse c).2 with
  | true => simp [decode_eq, hc] at h
  | false => exact ⟨by simpa [hc] using (symbols_parse c).symm, by simpa [decode_eq, hc] using h.symm⟩

/-- Markers laid end to end decode to all their zeros. -/
theorem decode_replicate_marker (m : Nat) (l : Byte) :
    decode (List.replicate m [0x00#8, l]).flatten = .ok (zeros (m * l.toNat)) := by
  have hsymbols : (List.replicate m [0x00#8, l]).flatten = symbols (List.replicate m (.run l)) := by
    simp [symbols, List.flatMap_def, Sym.bytes, markerBytes]
  have hplain : (List.replicate m (Sym.run l)).flatMap Sym.plain = zeros (m * l.toNat) := by
    simp [List.flatMap_def, Sym.plain, runBytes_eq, zeros]
  have hparse : parse (symbols (List.replicate m (.run l))) = (List.replicate m (.run l), false) :=
    parse_symbols fun b hb => by simp at hb
  simp [hsymbols, decode_eq, hparse, hplain]

/-- A literal behind an accepted sequence is appended. -/
theorem decode_append_lit {c p : Bytes} {b : Byte} (h : decode c = .ok p) (hb : b ≠ 0x00#8) :
    decode (c ++ [b]) = .ok (p ++ [b]) := by
  rw [decode, dec_append h, dec_lit hb]; rfl

/-! ### The statement -/

/-- Settles O47: literals and markers are counted along the parse, and full markers reach the bound. -/
theorem decodeLengthFormulaAndBound : Obligations.DecodeLengthFormulaAndBound := by
  refine ⟨fun c o h => ?_, fun m b hb => ?_⟩
  · obtain ⟨hc, ho⟩ := decode_ok_elim h
    have hin : c.length = (parse c).1.countP Sym.isLit + 2 * (parse c).1.countP Sym.isRun := by
      conv_lhs => rw [hc]
      exact length_symbols _
    have hout : o.length = ((parse c).1.map Sym.plainLength).sum := by rw [ho, length_plain]
    have hle := sum_plainLength_le (parse c).1
    exact ⟨hin, hout, by omega⟩
  · have hfull : decode (List.replicate m [0x00#8, 0xff#8]).flatten = .ok (zeros (2 * m + 253 * m)) := by
      have hlen : m * (0xff#8 : Byte).toNat = 2 * m + 253 * m := by simp; omega
      rw [decode_replicate_marker, hlen]
    exact ⟨hfull, decode_append_lit hfull hb, decode_replicate_marker m 0x00#8⟩

end Sys2Proof.Codec
end

