-- ==== Sys2Proof/Proofs/TransactionControl.lean ====
section
/-! SUPPORT. What an operation can do to a unit outside RUN and how it can take a unit out of RUN, what the result drain
leaves of a result, and the two statements about START in RUN (R173) and about the result of a transaction (R174). -/

namespace Sys2Proof.Machine

/-! ### How RUN is left (R173) -/

/-- An edge in RUN that carries neither reset nor a token selects nothing, whether START is raised or not. -/
theorem decode_run_without_token {c : Ctx} {u : UnitId} {w : Wires} (hc : c.phase = .run) (hr : w.rst = false)
    (hv : w.inValid = false) : ∃ r, decode c (.edge u w) = .error r := by
  cases hs : w.start with
  | false => exact ⟨.noRequest, by simp [decode, decodeEdge, hc, hr, hv, hs, Except.map]⟩
  | true => exact ⟨.startIgnored, by simp [decode, decodeEdge, hc, hr, hv, hs, Except.map]⟩

theorem exec_eStart_of_run {s : State} {k : Nat} {e : Encoder} (he : s.encs[k]? = some e) (hr : e.phase = .run) :
    exec (.eStart k) s = .next s := by
  rw [exec_enc rfl he, encLocal, if_pos hr, liftEnc, State.setEnc_self he]

theorem exec_dStart_of_run {s : State} {k : Nat} {d : Decoder} (hd : s.decs[k]? = some d) (hr : d.phase = .run) :
    exec (.dStart k) s = .next s := by
  rw [exec_dec rfl hd, decLocal, if_pos hr, liftDec, State.setDec_self hd]

/-- An encoder leaves RUN only by E.END or reset: the other token operations keep the phase. -/
theorem encLocal_leaves_run {p : Params} {i : Instr} {k : Nat} {e e' : Encoder} (hu : i.unit = .enc k)
    (h : encLocal p i e = .ok e') (hr : e.phase = .run) (hr' : e'.phase ≠ .run) :
    i = .eEnd k ∨ i = .reset (.enc k) := by
  rcases encLocal_cases hu h with
    ⟨rfl, -⟩ | ⟨-, hne, -⟩ | ⟨hi, -⟩ | ⟨-, -, ⟨-, rfl⟩ | ⟨b, -, -, rfl⟩ | ⟨hi, -⟩⟩
  · exact absurd hr hr'
  · exact absurd hr hne
  · exact .inr hi
  · exact absurd (e.zero_phase.trans hr) hr'
  · exact absurd ((e.nonZero_phase b).trans hr) hr'
  · exact .inl hi

/-- A decoder leaves RUN only by D.END, by TRUNC, which includes it, or by reset. -/
theorem decLocal_leaves_run {p : Params} {i : Instr} {k : Nat} {d d' : Decoder} (hu : i.unit = .dec k)
    (h : decLocal p i d = .ok d') (hr : d.phase = .run) (hr' : d'.phase ≠ .run) :
    i = .dEndOk k ∨ i = .dEndTrunc k ∨ i = .trunc k ∨ i = .reset (.dec k) := by
  rcases decLocal_cases hu h with
    ⟨rfl, -⟩ | ⟨-, hne, -⟩ | ⟨hi, -⟩ | ⟨-, -, ⟨b, -, -, -, rfl⟩ | ⟨-, -, rfl⟩ | ⟨l, -, -, rfl⟩ | ⟨hi, -⟩ | ⟨hi, -⟩ |
      ⟨l, -, -, rfl⟩ | ⟨hi, -⟩⟩
  · exact absurd hr hr'
  · exact absurd hr hne
  · exact .inr (.inr (.inr hi))
  · exact absurd hr hr'
  · exact absurd hr hr'
  · exact absurd hr hr'
  · exact .inl hi
  · exact .inr (.inl hi)
  · exact absurd hr hr'
  · exact .inr (.inr (.inl hi))

/-! ### Operations outside RUN (R172, R174) -/

/-- Outside RUN an encoder's operation changes nothing, unless it is START or reset. -/
theorem encLocal_outside_run {p : Params} {i : Instr} {k : Nat} {e e' : Encoder} (hu : i.unit = .enc k)
    (h : encLocal p i e = .ok e') (hp : e.phase ≠ .run) :
    e' = e ∨ (i = .eStart k ∧ e' = Encoder.started) ∨ (i = .reset (.enc k) ∧ e' = Encoder.reset) := by
  rcases encLocal_cases hu h with ⟨he, -⟩ | ⟨hi, -, he⟩ | hreset | ⟨hrun, -⟩
  · exact .inl he
  · exact .inr (.inl ⟨hi, he⟩)
  · exact .inr (.inr hreset)
  · exact absurd hrun hp

/-- Outside RUN a decoder's operation changes nothing, unless it is START or reset. -/
theorem decLocal_outside_run {p : Params} {i : Instr} {k : Nat} {d d' : Decoder} (hu : i.unit = .dec k)
    (h : decLocal p i d = .ok d') (hp : d.phase ≠ .run) :
    d' = d ∨ (i = .dStart k ∧ d' = Decoder.started) ∨ (i = .reset (.dec k) ∧ d' = Decoder.reset) := by
  rcases decLocal_cases hu h with ⟨hd, -⟩ | ⟨hi, -, hd⟩ | hreset | ⟨hrun, -⟩
  · exact .inl hd
  · exact .inr (.inl ⟨hi, hd⟩)
  · exact .inr (.inr hreset)
  · exact absurd hrun hp

/-! ### The result (R174) -/

theorem Phase.ne_run_of_over {p : Phase} (h : p.over = true) : p ≠ .run := by
  rintro rfl
  exact absurd h (by decide)

theorem resultView_of_not_over {p : Phase} (h : p.over = false) (o : Bytes) : resultView p o = none := by
  cases p with
  | idle => rfl
  | run => rfl
  | done => exact absurd h (by decide)
  | fail => exact absurd h (by decide)

/-- Only DONE shows a byte of the result at the ports (R179). -/
theorem outWires_outData_of_ne_done {p : Phase} (h : p ≠ .done) (v : BitVec 8) (o : Bytes) (rd : Nat)
    (rdEnd ready : Bool) : (outWires p v o rd rdEnd ready).outData = none := by
  simp [outWires, offersResult, h]

@[simp] theorem Encoder.drain_result (w : Wires) (e : Encoder) : (e.drain w).result = e.result := by
  simp [Encoder.result]

@[simp] theorem Decoder.drain_result (w : Wires) (d : Decoder) : (d.drain w).result = d.result := by
  simp [Decoder.result]

@[simp] theorem Decoder.drain_status (w : Wires) (d : Decoder) : (d.drain w).status = d.status := by
  simp [Decoder.status]

/-- A step that leaves an encoder in a final phase has left its registers alone, up to the drain. -/
theorem step_keeps_over_enc {s t : State} {k : Nat} {e e' : Encoder} (h : step s = .next t) (he : s.encs[k]? = some e)
    (he' : t.encs[k]? = some e') (ho : e.phase.over = true) (ho' : e'.phase.over = true) :
    e' = e ∨ ∃ w, e' = e.drain w := by
  rcases step_at_enc h he he' with heq | ⟨w, -, -, hdrain⟩ | ⟨-, -, i, -, -, -, hu, hl⟩
  · exact .inl heq
  · exact .inr ⟨w, hdrain⟩
  · rcases encLocal_outside_run hu hl (Phase.ne_run_of_over ho) with heq | ⟨-, rfl⟩ | ⟨-, rfl⟩
    · exact .inl heq
    · exact absurd ho' (by decide)
    · exact absurd ho' (by decide)

/-- A step that leaves a decoder in a final phase has left its registers alone, up to the drain. -/
theorem step_keeps_over_dec {s t : State} {k : Nat} {d d' : Decoder} (h : step s = .next t) (hd : s.decs[k]? = some d)
    (hd' : t.decs[k]? = some d') (ho : d.phase.over = true) (ho' : d'.phase.over = true) :
    d' = d ∨ ∃ w, d' = d.drain w := by
  rcases step_at_dec h hd hd' with heq | ⟨w, -, -, hdrain⟩ | ⟨-, -, i, -, -, -, hu, hl⟩
  · exact .inl heq
  · exact .inr ⟨w, hdrain⟩
  · rcases decLocal_outside_run hu hl (Phase.ne_run_of_over ho) with heq | ⟨-, rfl⟩ | ⟨-, rfl⟩
    · exact .inl heq
    · exact absurd ho' (by decide)
    · exact absurd ho' (by decide)

/-- An operation other than its START and reset changes no register of an encoder in a final phase. -/
theorem exec_keeps_over_enc {i : Instr} {s t : State} {k : Nat} {e e' : Encoder} (h : exec i s = .next t)
    (he : s.encs[k]? = some e) (he' : t.encs[k]? = some e') (ho : e.phase.over = true) (hstart : i ≠ .eStart k)
    (hreset : i ≠ .reset (.enc k)) : e' = e := by
  rcases exec_next_at_enc h he he' with ⟨-, heq⟩ | ⟨hu, hl⟩
  · exact heq
  · rcases encLocal_outside_run hu hl (Phase.ne_run_of_over ho) with heq | ⟨hi, -⟩ | ⟨hi, -⟩
    · exact heq
    · exact absurd hi hstart
    · exact absurd hi hreset

/-- An operation other than its START and reset changes no register of a decoder in a final phase. -/
theorem exec_keeps_over_dec {i : Instr} {s t : State} {k : Nat} {d d' : Decoder} (h : exec i s = .next t)
    (hd : s.decs[k]? = some d) (hd' : t.decs[k]? = some d') (ho : d.phase.over = true) (hstart : i ≠ .dStart k)
    (hreset : i ≠ .reset (.dec k)) : d' = d := by
  rcases exec_next_at_dec h hd hd' with ⟨-, heq⟩ | ⟨hu, hl⟩
  · exact heq
  · rcases decLocal_outside_run hu hl (Phase.ne_run_of_over ho) with heq | ⟨hi, -⟩ | ⟨hi, -⟩
    · exact heq
    · exact absurd hi hstart
    · exact absurd hi hreset

/-! ### The statements -/

/-- Settles O9: an edge without a token selects nothing in RUN and moves no drain there, and of the operations of a unit
only those that consume `End` and reset write another phase. -/
theorem startIsIgnoredInRun : Obligations.StartIsIgnoredInRun := by
  refine ⟨fun _ _ _ => exec_eStart_of_run, fun _ _ _ => exec_dStart_of_run, fun s u c w rest hin hc hr hrst hv hw => ?_,
    fun i s t k e e' h he he' hr hr' => ?_, fun i s t k d d' h hd hd' hr hr' => ?_⟩
  · obtain ⟨r, hdec⟩ := decode_run_without_token (u := u) hr hrst hv
    have hoffer : (Input.edge u w).offer = none := by simp [Input.offer, hv]
    have hstep := step_still hin hc (by rw [hw, keepsOffer_none]) hdec (.inl (by simp [hr]))
    rwa [hoffer] at hstep
  · rcases exec_next_at_enc h he he' with ⟨-, rfl⟩ | ⟨hu, hl⟩
    · exact absurd hr hr'
    · exact encLocal_leaves_run hu hl hr hr'
  · rcases exec_next_at_dec h hd hd' with ⟨-, rfl⟩ | ⟨hu, hl⟩
    · exact absurd hr hr'
    · exact decLocal_leaves_run hu hl hr hr'

/-- Settles O39: a final phase is left by START and reset only, and in it nothing but the drain's own registers moves. -/
theorem resultIsReleasedWholeAndStays : Obligations.ResultIsReleasedWholeAndStays := by
  refine ⟨fun e => ⟨fun h => resultView_of_not_over h _, fun h => ?_⟩,
    fun d => ⟨fun h => resultView_of_not_over h _, fun h => ?_, fun h => ?_⟩,
    fun s t h => ⟨fun k e e' he he' ho ho' => ?_, fun k d d' hd hd' ho ho' => ?_⟩,
    fun i s t k e e' h he he' ho hstart hreset => ?_, fun i s t k d d' h hd hd' ho hstart hreset => ?_,
    fun e ready h => outWires_outData_of_ne_done h .., fun d ready h => outWires_outData_of_ne_done h ..⟩
  · rw [Encoder.result, h, resultView]
  · rw [Decoder.result, h, resultView]
  · rw [Decoder.result, h, resultView]
  · rcases step_keeps_over_enc h he he' ho ho' with rfl | ⟨w, rfl⟩
    · rfl
    · exact e.drain_result w
  · rcases step_keeps_over_dec h hd hd' ho ho' with rfl | ⟨w, rfl⟩
    · exact ⟨rfl, rfl⟩
    · exact ⟨d.drain_result w, d.drain_status w⟩
  · rw [exec_keeps_over_enc h he he' ho hstart hreset]
  · rw [exec_keeps_over_dec h hd hd' ho hstart hreset]

end Sys2Proof.Machine
end

