-- ==== Sys2Proof/Proofs/ResetFromEveryPhase.lean ====
section
/-! SUPPORT. Reset as an operation and as an edge, from whatever phase (R240), the edge that leaves a unit in IDLE alone
(R172), and the statement about them. -/

namespace Sys2Proof.Machine

/-! ### A unit after reset has no result (R174) -/

@[simp] theorem Encoder.reset_result : Encoder.reset.result = none := rfl
@[simp] theorem Decoder.reset_result : Decoder.reset.result = none := rfl

/-! ### What selects an operation of a unit that exists (R94) -/

theorem State.ctx_enc {s : State} {k : Nat} {e : Encoder} (he : s.encs[k]? = some e) :
    s.ctx (.enc k) = some ⟨e.phase, false⟩ := by simp [State.ctx, he]

theorem State.ctx_dec {s : State} {k : Nat} {d : Decoder} (hd : s.decs[k]? = some d) :
    s.ctx (.dec k) = some ⟨d.phase, d.pend⟩ := by simp [State.ctx, hd]

/-! ### Reset as an operation and as an edge (R240) -/

/-- RESET asks nothing of the phase and has no capacity to exceed. -/
theorem exec_reset_enc {s : State} {k : Nat} {e : Encoder} (he : s.encs[k]? = some e) :
    exec (.reset (.enc k)) s = .next (s.setEnc k Encoder.reset) := by
  rw [exec_enc rfl he, encLocal, liftEnc]

/-- RESET asks nothing of the phase and has no capacity to exceed. -/
theorem exec_reset_dec {s : State} {k : Nat} {d : Decoder} (hd : s.decs[k]? = some d) :
    exec (.reset (.dec k)) s = .next (s.setDec k Decoder.reset) := by
  rw [exec_dec rfl hd, decLocal, liftDec]

/-- Reset wins over START and tokens on the same edge, and over a token that waits, which it abandons (R241; log 19). -/
theorem step_resetEdge {s : State} {u : UnitId} {w : Wires} {rest : List Input} {c : Ctx}
    (hin : s.inputs = .edge u w :: rest) (hc : s.ctx u = some c) (hr : w.rst = true) :
    step s = exec (.reset u) (s.advance u none rest) :=
  step_op hin hc (keepsOffer_reset hr) (decode_reset hr)

theorem step_resetEdge_enc {s : State} {k : Nat} {e : Encoder} {w : Wires} {rest : List Input}
    (he : s.encs[k]? = some e) (hin : s.inputs = .edge (.enc k) w :: rest) (hr : w.rst = true) :
    step s = .next ((s.advance (.enc k) none rest).setEnc k Encoder.reset) := by
  rw [step_resetEdge hin (State.ctx_enc he) hr, exec_reset_enc (by simpa using he)]

theorem step_resetEdge_dec {s : State} {k : Nat} {d : Decoder} {w : Wires} {rest : List Input}
    (hd : s.decs[k]? = some d) (hin : s.inputs = .edge (.dec k) w :: rest) (hr : w.rst = true) :
    step s = .next ((s.advance (.dec k) none rest).setDec k Decoder.reset) := by
  rw [step_resetEdge hin (State.ctx_dec hd) hr, exec_reset_dec (by simpa using hd)]

/-! ### A unit in IDLE waits for START (R172) -/

/-- In IDLE an edge without reset and START selects no operation, and there is no result to drain. -/
theorem step_idleEdge {s : State} {u : UnitId} {w : Wires} {rest : List Input} {c : Ctx}
    (hin : s.inputs = .edge u w :: rest) (hc : s.ctx u = some c) (hp : c.phase = .idle) (hr : w.rst = false)
    (hs : w.start = false) (hk : keepsOffer (s.waiting u) (.edge u w) = true) :
    step s = .next (s.advance u (Input.edge u w).offer rest) := by
  obtain ⟨r, hdec⟩ := decode_waits (c := c) (u := u) (by simp [hp]) hr hs
  exact step_still hin hc hk hdec (.inl (by simp [hp]))

/-! ### The statement -/

/-- Settles O8: reset writes `reset` as an operation and as an edge, and an edge in IDLE only takes the input. -/
theorem resetWinsFromEveryPhase : Obligations.ResetWinsFromEveryPhase := by
  refine ⟨fun s k e he => ⟨?_, fun w rest hin hr => ?_, fun w rest hin hp hr hs hk => ?_⟩,
    fun s k d hd => ⟨?_, fun w rest hin hr => ?_, fun w rest hin hp hr hs hk => ?_⟩⟩
  · exact ⟨_, Encoder.reset, exec_reset_enc he, State.setEnc_get he, by simp⟩
  · exact ⟨_, Encoder.reset, step_resetEdge_enc he hin hr, by simp, State.setEnc_get (by simpa using he), by simp⟩
  · exact ⟨_, step_idleEdge hin (State.ctx_enc he) hp hr hs hk, by simp⟩
  · exact ⟨_, Decoder.reset, exec_reset_dec hd, State.setDec_get hd, by simp⟩
  · exact ⟨_, Decoder.reset, step_resetEdge_dec hd hin hr, by simp, State.setDec_get (by simpa using hd), by simp⟩
  · exact ⟨_, step_idleEdge hin (State.ctx_dec hd) hp hr hs hk, by simp⟩

end Sys2Proof.Machine
end

