-- ==== Sys2Proof/Proofs/Selection.lean ====
section
/-! SUPPORT. Which operation an input selects (R94), from the encoding of an instruction back to the instruction and on to the
step that runs it, and the statements about selection. -/

namespace Sys2Proof

open Sys2Proof.Machine (Phase)

/-! ### A stream symbol at the front of a sequence (R85) -/

/-- A literal is read off the front of any sequence. -/
theorem decode_stream_lit {b : Byte} (hb : b ≠ 0x00#8) (k : Nat) (t : Bytes) :
    decode ⟨.run, false⟩ (.stream k (b :: t)) = .ok (.lit k b, [.stream k t]) := by
  simp [decode, decodeStream, decodeSymbol, hb]

/-- A marker with a length is read off the front of any sequence. -/
theorem decode_stream_run {l : Byte} (hl : l ≠ 0x00#8) (k : Nat) (t : Bytes) :
    decode ⟨.run, false⟩ (.stream k (0x00#8 :: l :: t)) = .ok (.run k l, [.stream k t]) := by
  simp [decode, decodeStream, decodeSymbol, hl]

/-- The marker `00 00` is read off the front of any sequence. -/
theorem decode_stream_runZ (k : Nat) (t : Bytes) :
    decode ⟨.run, false⟩ (.stream k (0x00#8 :: 0x00#8 :: t)) = .ok (.runZ k, [.stream k t]) := rfl

/-- A bare marker that ends the sequence takes the end with it (R87). -/
theorem decode_stream_trunc (k : Nat) : decode ⟨.run, false⟩ (.stream k [0x00#8]) = .ok (.trunc k, []) := by
  simp [decode, decodeStream, decodeSymbol]

/-- After the last symbol `End` is taken (R145). -/
theorem decode_stream_end (k : Nat) : decode ⟨.run, false⟩ (.stream k []) = .ok (.dEndOk k, []) := rfl

/-! ### The encoding of an instruction selects it (R94) -/

theorem encode_unit (i : Instr) : (encode i).unit = i.unit := by
  cases i <;> rfl

/-- START on the wires selects START of the unit wherever it is accepted. -/
theorem decode_encode_startOf {c : Ctx} (hp : c.phase ≠ .run) (u : UnitId) :
    decode c (encode (startOf u)) = .ok (startOf u, []) := by
  cases u with
  | enc k => exact decode_start rfl rfl hp
  | dec k => exact decode_start rfl rfl hp

/-- `decode` undoes `encode`, in the context that selects the instruction. -/
theorem decode_ctxOf_encode {i : Instr} (h : i.wellFormed = true) : decode (ctxOf i) (encode i) = .ok (i, leftOf i) := by
  cases i with
  | lit k b => exact decode_stream_lit (by simpa [Instr.wellFormed] using h) k []
  | run k l => exact decode_stream_run (by simpa [Instr.wellFormed] using h) k []
  | runZ k => exact decode_stream_runZ k []
  | trunc k => exact decode_stream_trunc k
  | eZero k => exact decode_token (.enc k) false (.byte 0x00#8)
  | eNz k b =>
    have hb : b ≠ 0x00#8 := by simpa [Instr.wellFormed] using h
    have hsel : selectToken (.enc k) false (.byte b) = .eNz k b := if_neg hb
    exact (decode_token (.enc k) false (.byte b)).trans (by rw [hsel]; rfl)
  | eEnd k => exact decode_token (.enc k) false .endOfInput
  | dLit k b =>
    have hb : b ≠ 0x00#8 := by simpa [Instr.wellFormed] using h
    have hsel : selectToken (.dec k) false (.byte b) = .dLit k b := if_neg hb
    exact (decode_token (.dec k) false (.byte b)).trans (by rw [hsel]; rfl)
  | dMark k => exact decode_token (.dec k) false (.byte 0x00#8)
  | dLen k l => exact decode_token (.dec k) true (.byte l)
  | dEndOk k => exact decode_token (.dec k) false .endOfInput
  | dEndTrunc k => exact decode_token (.dec k) true .endOfInput
  | eStart k => exact decode_encode_startOf (nofun : Phase.idle ≠ .run) (.enc k)
  | dStart k => exact decode_encode_startOf (nofun : Phase.idle ≠ .run) (.dec k)
  | reset u => exact decode_reset rfl

/-- Settles O4: the tokens, control words and symbols of R94 are read back one by one. -/
theorem decodeOfEncodeIsTheInstruction : Obligations.DecodeOfEncodeIsTheInstruction :=
  ⟨fun _ => decode_ctxOf_encode, fun k _ t hb => decode_stream_lit hb k t, fun k _ t hl => decode_stream_run hl k t,
    decode_stream_runZ⟩

/-- Settles O3: a token in RUN selects by `selectToken`, START and reset by the control word. -/
theorem patternUnitAndStateSelectTheOperation : Obligations.PatternUnitAndStateSelectTheOperation := by
  refine ⟨fun k pend w hr _ hv hready => ?_,
    fun k c w hr hs hp => ⟨decode_start hr hs hp, decode_start hr hs hp⟩, fun u c w => decode_reset⟩
  have token : ∀ u p, decode ⟨.run, p⟩ (.edge u w) =
      .ok (selectToken u p (if w.inEnd then .endOfInput else .byte w.inData), []) :=
    fun u p => decode_run hr hv hready
  simp only [token]
  refine ⟨fun he hb => ?_, fun he hb => ?_, fun he => ?_, fun he hb => ?_, fun he hb => ?_, fun he => ?_, fun he => ?_,
    fun he => ?_⟩
  · simp [he, hb, selectToken]
  · simp [he, hb, selectToken]
  · simp [he, selectToken]
  · simp [he, hb, selectToken]
  · simp [he, hb, selectToken]
  · simp [he, selectToken]
  · simp [he, selectToken]
  · simp [he, selectToken]

/-- Settles O2: each word is decoded by evaluating the tables. -/
theorem writtenOutWordsDecode : Obligations.WrittenOutWordsDecode :=
  ⟨rfl, rfl, rfl, rfl, rfl, rfl, rfl, rfl, rfl, rfl, rfl, rfl, rfl, rfl, rfl⟩

namespace Machine

/-- Settles O1. -/
theorem stepRunsDecodedInstruction : Obligations.StepRunsDecodedInstruction :=
  fun _ _ _ _ _ _ => step_op

/-! ### The state that selects an instruction -/

/-- A unit enabled for START is not in RUN. -/
theorem State.enable_startOf_ctx {s : State} {u : UnitId} {c : Ctx} (hc : s.ctx u = some c) :
    ∃ c', (s.enable (startOf u)).ctx u = some c' ∧ c'.phase ≠ .run := by
  cases u with
  | enc k =>
    obtain ⟨e, he, -⟩ := Option.map_eq_some_iff.1 hc
    by_cases hr : e.phase = .run
    · exact ⟨⟨.idle, false⟩, by simp [startOf, State.enable, State.ctx, he, hr], nofun⟩
    · exact ⟨⟨e.phase, false⟩, by simp [startOf, State.enable, State.ctx, he, hr], hr⟩
  | dec k =>
    obtain ⟨d, hd, -⟩ := Option.map_eq_some_iff.1 hc
    by_cases hr : d.phase = .run
    · exact ⟨⟨.idle, d.pend⟩, by simp [startOf, State.enable, State.ctx, hd, hr], nofun⟩
    · exact ⟨⟨d.phase, d.pend⟩, by simp [startOf, State.enable, State.ctx, hd, hr], hr⟩

/-- `State.enable` puts the instruction's unit in a context in which its encoding selects it: the one of `ctxOf`, or any for
reset, or one outside RUN for START. -/
theorem exists_ctx_enable {s : State} {i : Instr} (hw : i.wellFormed = true) (hu : (s.ctx i.unit).isSome = true) :
    ∃ c, (s.enable i).ctx i.unit = some c ∧ decode c (encode i) = .ok (i, leftOf i) := by
  obtain ⟨c, hc⟩ := Option.isSome_iff_exists.1 hu
  have start : ∀ u, s.ctx u = some c → ∃ c', (s.enable (startOf u)).ctx u = some c' ∧
      decode c' (encode (startOf u)) = .ok (startOf u, []) := fun u h =>
    have ⟨c', hc', hp⟩ := State.enable_startOf_ctx h
    ⟨c', hc', decode_encode_startOf hp u⟩
  cases i with
  | reset u => exact ⟨c, hc, decode_reset rfl⟩
  | eStart k => exact start (.enc k) hc
  | dStart k => exact start (.dec k) hc
  | _ =>
    obtain ⟨_, hget, -⟩ := Option.map_eq_some_iff.1 hc
    exact ⟨_, by simp [State.enable, State.ctx, Instr.unit, ctxOf, hget], decode_ctxOf_encode hw⟩

/-- The encoding of START offers no token beside it, so none waits after any encoding (R178). -/
theorem waitingAfter_encode (i : Instr) : waitingAfter i (encode i) = none := by
  cases i <;> rfl

/-- The last record of the waiting token and of the inputs counts. -/
theorem State.advance_advance (u : UnitId) (o o' : Option Token) (l l' : List Input) (s : State) :
    (s.advance u o l).advance u o' l' = s.advance u o' l' := by
  cases u <;> simp [State.advance, State.setWaiting, State.setInputs]

/-- Settles O5: the enabled unit selects the instruction, and no token waits that the input could break. -/
theorem everyWellFormedInstructionIsFetched : Obligations.EveryWellFormedInstructionIsFetched := by
  intro s i hw hu
  obtain ⟨c, hc, hdec⟩ := exists_ctx_enable hw hu
  have hwait := (s.enable i).advance_waiting_none i.unit (encode i :: s.inputs)
  rw [step_op (State.advance_inputs ..) (by rw [State.advance_ctx, encode_unit, hc])
    (by rw [encode_unit, hwait, keepsOffer_none]) hdec, waitingAfter_encode, encode_unit, State.advance_advance]

end Machine

end Sys2Proof
end

