-- ==== Sys2Proof/Proofs/Invariant.lean ====
section
/-! SUPPORT. The registers each token operation leaves alone, the invariants of R35 as they read in RUN, why the encoder's
buffer stays canonical (R120), and the statements that every step keeps the invariants. -/

namespace Sys2Proof.Codec

open Sys2Proof.Machine

/-! ### A canonical buffer to which the encoder may still append (R120) -/

/-- `o` is canonical, and a marker of any length may follow. -/
def OpenCanonical (o : Bytes) : Prop := canonical o = true ∧ canonical (o ++ markerBytes 0x01#8) = true

theorem openCanonical_nil : OpenCanonical [] := by unfold OpenCanonical; decide

/-- Well-formed symbols, themselves such that a marker may follow, keep the buffer open. -/
theorem OpenCanonical.append {o : Bytes} (h : OpenCanonical o) {m : List Sym} (hw : m.all Sym.wellFormed = true)
    (hf : fullBeforeRun (m ++ [.run 0x01#8]) = true) : OpenCanonical (o ++ symbols m) := by
  obtain ⟨hc, hopen⟩ := h
  have hm : fullBeforeRun m = true := by simpa using fullBeforeRun_append hf (m := []) rfl
  have hw' : (m ++ [Sym.run 0x01#8]).all Sym.wellFormed = true := by rw [List.all_append, hw]; rfl
  refine ⟨canonical_append hopen hc hw hm, ?_⟩
  have hlonger := canonical_append hopen hc hw' hf
  simpa [Sym.bytes] using hlonger

/-- E.ZERO appends a full marker. -/
theorem OpenCanonical.append_maxRun {o : Bytes} (h : OpenCanonical o) : OpenCanonical (o ++ markerBytes maxRun) :=
  h.append (m := [.run maxRun]) rfl rfl

/-- E.NZ appends the pending run and the byte. -/
theorem OpenCanonical.flush_append_lit {o : Bytes} (h : OpenCanonical o) (r : Byte) {b : Byte} (hb : b ≠ 0x00#8) :
    OpenCanonical (flush r o ++ [b]) := by
  have hbytes : flush r o ++ [b] = o ++ symbols (flushSyms r ++ [.lit b]) := by simp [flush_eq, Sym.bytes]
  rw [hbytes]
  refine h.append ?_ ?_
  · rw [List.all_append, flushSyms_wellFormed]
    simpa [Sym.wellFormed] using hb
  · rw [List.append_assoc, List.singleton_append, flushSyms_lit_full]
    rfl

/-- E.END appends the pending run. -/
theorem OpenCanonical.canonical_flush {o : Bytes} (h : OpenCanonical o) (r : Byte) : canonical (flush r o) = true := by
  obtain ⟨hc, hopen⟩ := h
  rw [flush_eq]
  exact canonical_append hopen hc (flushSyms_wellFormed r) (flushSyms_full r)

/-- Settles O43: what `encode` writes are well-formed symbols with every marker before a marker full (`canonical_encode`). -/
theorem encodeIsAlwaysCanonical : Obligations.EncodeIsAlwaysCanonical := fun b =>
  have hc := canonical_encode b
  ⟨hc, wellFormed_of_canonical hc, accepted_of_wellFormed (wellFormed_of_canonical hc)⟩

end Sys2Proof.Codec

namespace Sys2Proof.Machine

/-! ### The consumed input and the drain after each token operation -/

@[simp] theorem Encoder.nonZero_inp (b : Byte) (e : Encoder) : (e.nonZero b).inp = e.inp ++ [b] := by
  simp [Encoder.nonZero]
@[simp] theorem Encoder.nonZero_rd (b : Byte) (e : Encoder) : (e.nonZero b).rd = e.rd := by simp [Encoder.nonZero]
@[simp] theorem Encoder.nonZero_rdEnd (b : Byte) (e : Encoder) : (e.nonZero b).rdEnd = e.rdEnd := by
  simp [Encoder.nonZero]

@[simp] theorem Encoder.endInput_inp (e : Encoder) : e.endInput.inp = e.inp := by simp [Encoder.endInput]
@[simp] theorem Encoder.endInput_rd (e : Encoder) : e.endInput.rd = 0 := rfl
@[simp] theorem Encoder.endInput_rdEnd (e : Encoder) : e.endInput.rdEnd = false := rfl

@[simp] theorem Decoder.literal_inp (b : Byte) (d : Decoder) : (d.literal b).inp = d.inp ++ [b] := rfl
@[simp] theorem Decoder.literal_rd (b : Byte) (d : Decoder) : (d.literal b).rd = d.rd := rfl
@[simp] theorem Decoder.literal_rdEnd (b : Byte) (d : Decoder) : (d.literal b).rdEnd = d.rdEnd := rfl

@[simp] theorem Decoder.mark_inp (d : Decoder) : d.mark.inp = d.inp ++ [0x00#8] := rfl
@[simp] theorem Decoder.mark_rd (d : Decoder) : d.mark.rd = d.rd := rfl
@[simp] theorem Decoder.mark_rdEnd (d : Decoder) : d.mark.rdEnd = d.rdEnd := rfl

@[simp] theorem Decoder.length_inp (l : Byte) (d : Decoder) : (d.length l).inp = d.inp ++ [l] := rfl
@[simp] theorem Decoder.length_rd (l : Byte) (d : Decoder) : (d.length l).rd = d.rd := rfl
@[simp] theorem Decoder.length_rdEnd (l : Byte) (d : Decoder) : (d.length l).rdEnd = d.rdEnd := rfl

@[simp] theorem Decoder.endOk_inp (d : Decoder) : d.endOk.inp = d.inp := rfl
@[simp] theorem Decoder.endOk_rd (d : Decoder) : d.endOk.rd = 0 := rfl
@[simp] theorem Decoder.endOk_rdEnd (d : Decoder) : d.endOk.rdEnd = false := rfl

/-! ### The encoder's invariant (R35) -/

theorem Encoder.reset_inv : Encoder.reset.Inv := by decide

/-- In RUN the invariant is about the cursor, the buffer and the resting drain. -/
theorem Encoder.inv_run_iff {e : Encoder} (hr : e.phase = .run) :
    e.Inv ↔ e.pos = e.inp.length ∧ Codec.OpenCanonical e.out ∧ e.rd = 0 ∧ e.rdEnd = false := by
  simp only [Encoder.Inv, Codec.OpenCanonical, hr]
  constructor
  · rintro ⟨-, -, -, hpos, hc, hopen, -, hdrain, -⟩
    exact ⟨hpos, ⟨hc, hopen trivial⟩, hdrain nofun⟩
  · rintro ⟨hpos, ⟨hc, hopen⟩, hrd, hend⟩
    exact ⟨nofun, nofun, nofun, hpos, hc, fun _ => hopen, by omega, fun _ => ⟨hrd, hend⟩, by simp [hend]⟩

theorem Encoder.started_inv : Encoder.started.Inv :=
  (Encoder.inv_run_iff Encoder.started_phase).2 ⟨rfl, Codec.openCanonical_nil, rfl, rfl⟩

theorem Encoder.zero_inv {e : Encoder} (hr : e.phase = .run) (h : e.Inv) : e.zero.Inv := by
  obtain ⟨hpos, hout, hrd, hend⟩ := (Encoder.inv_run_iff hr).1 h
  refine (Encoder.inv_run_iff (e.zero_phase.trans hr)).2 ⟨by simp [hpos], ?_, by simpa using hrd, by simpa using hend⟩
  rw [Encoder.zero_out]
  split
  · exact hout.append_maxRun
  · exact hout

theorem Encoder.nonZero_inv {e : Encoder} {b : Byte} (hb : b ≠ 0x00#8) (hr : e.phase = .run) (h : e.Inv) :
    (e.nonZero b).Inv := by
  obtain ⟨hpos, hout, hrd, hend⟩ := (Encoder.inv_run_iff hr).1 h
  refine (Encoder.inv_run_iff ((e.nonZero_phase b).trans hr)).2
    ⟨by simp [hpos], ?_, by simpa using hrd, by simpa using hend⟩
  rw [Encoder.nonZero_out]
  exact hout.flush_append_lit e.runLen hb

theorem Encoder.endInput_inv {e : Encoder} (hr : e.phase = .run) (h : e.Inv) : e.endInput.Inv := by
  obtain ⟨hpos, hout, -, -⟩ := (Encoder.inv_run_iff hr).1 h
  have hc : Codec.canonical e.endInput.out = true := by rw [Encoder.endInput_out]; exact hout.canonical_flush _
  exact ⟨fun _ => rfl, nofun, nofun, by simpa using hpos, hc, nofun, by simp, by simp, by simp⟩

theorem Encoder.inv_drain {e : Encoder} (w : Wires) (h : e.Inv) : (e.drain w).Inv := by
  obtain ⟨hlen, hidle, hfail, hpos, hc, hopen, hdrain⟩ := h
  have hdrain' := Encoder.drain_inv (w := w) hdrain
  simp only [Encoder.Inv, Encoder.drain_phase, Encoder.drain_runLen, Encoder.drain_pos, Encoder.drain_out,
    Encoder.drain_inp] at hdrain' ⊢
  exact ⟨hlen, hidle, hfail, hpos, hc, hopen, hdrain'⟩

/-- Every operation of an encoder keeps its invariant. -/
theorem encLocal_inv {p : Params} {i : Instr} {k : Nat} {e e' : Encoder} (hu : i.unit = .enc k)
    (h : encLocal p i e = .ok e') (hinv : e.Inv) : e'.Inv := by
  rcases encLocal_cases hu h with ⟨rfl, -⟩ | ⟨-, -, rfl⟩ | ⟨-, rfl⟩ | ⟨hr, -, ⟨-, rfl⟩ | ⟨b, hb, -, rfl⟩ | ⟨-, rfl⟩⟩
  · exact hinv
  · exact Encoder.started_inv
  · exact Encoder.reset_inv
  · exact Encoder.zero_inv hr hinv
  · exact Encoder.nonZero_inv hb hr hinv
  · exact Encoder.endInput_inv hr hinv

/-- No operation of an encoder exceeds a capacity (R58). -/
theorem encLocal_within {p : Params} {i : Instr} {k : Nat} {e e' : Encoder} (hu : i.unit = .enc k)
    (h : encLocal p i e = .ok e') (hx : Params.excess p e.pos e.out.length = none) :
    Params.excess p e'.pos e'.out.length = none := by
  rcases encLocal_cases hu h with ⟨rfl, -⟩ | ⟨-, -, rfl⟩ | ⟨-, rfl⟩ | ⟨-, hx', -⟩
  · exact hx
  · exact excess_zero p
  · exact excess_zero p
  · exact hx'

/-! ### The decoder's invariant (R35) -/

theorem Decoder.reset_inv : Decoder.reset.Inv := by decide

/-- In RUN the invariant is about the error code, the cursor and the resting drain. -/
theorem Decoder.inv_run_iff {d : Decoder} (hr : d.phase = .run) :
    d.Inv ↔ d.err = .noError ∧ d.pos = d.inp.length ∧ d.rd = 0 ∧ d.rdEnd = false := by
  simp only [Decoder.Inv, hr]
  constructor
  · rintro ⟨-, -, hfail, -, herr, hpos, -, hdrain, -⟩
    exact ⟨herr.resolve_right fun h => Phase.noConfusion (hfail.2 h), hpos, hdrain nofun⟩
  · rintro ⟨herr, hpos, hrd, hend⟩
    exact ⟨nofun, nofun, by simp [herr], nofun, .inl herr, hpos, by omega, fun _ => ⟨hrd, hend⟩, by simp [hend]⟩

theorem Decoder.started_inv : Decoder.started.Inv := (Decoder.inv_run_iff Decoder.started_phase).2 ⟨rfl, rfl, rfl, rfl⟩

theorem Decoder.literal_inv {d : Decoder} (b : Byte) (hr : d.phase = .run) (h : d.Inv) : (d.literal b).Inv := by
  obtain ⟨herr, hpos, hdrain⟩ := (Decoder.inv_run_iff hr).1 h
  exact (Decoder.inv_run_iff (d := d.literal b) hr).2 ⟨herr, by simp [hpos], hdrain⟩

theorem Decoder.mark_inv {d : Decoder} (hr : d.phase = .run) (h : d.Inv) : d.mark.Inv := by
  obtain ⟨herr, hpos, hdrain⟩ := (Decoder.inv_run_iff hr).1 h
  exact (Decoder.inv_run_iff (d := d.mark) hr).2 ⟨herr, by simp [hpos], hdrain⟩

theorem Decoder.length_inv {d : Decoder} (l : Byte) (hr : d.phase = .run) (h : d.Inv) : (d.length l).Inv := by
  obtain ⟨herr, hpos, hdrain⟩ := (Decoder.inv_run_iff hr).1 h
  exact (Decoder.inv_run_iff (d := d.length l) hr).2 ⟨herr, by simp [hpos], hdrain⟩

theorem Decoder.endOk_inv {d : Decoder} (hp : d.pend = false) (hr : d.phase = .run) (h : d.Inv) : d.endOk.Inv := by
  obtain ⟨-, hpos, -⟩ := (Decoder.inv_run_iff hr).1 h
  exact ⟨fun _ => hp, nofun, by simp, nofun, .inl rfl, hpos, by simp, by simp, by simp⟩

theorem Decoder.raiseTruncatedMarker_inv {d : Decoder} (hr : d.phase = .run) (h : d.Inv) :
    d.raiseTruncatedMarker.Inv := by
  obtain ⟨-, hpos, -⟩ := (Decoder.inv_run_iff hr).1 h
  exact ⟨fun _ => rfl, nofun, by simp, fun _ => rfl, .inr rfl, hpos, by simp, by simp, by simp⟩

theorem Decoder.inv_drain {d : Decoder} (w : Wires) (h : d.Inv) : (d.drain w).Inv := by
  obtain ⟨hpend, hidle, hfail, hout, herr, hpos, hdrain⟩ := h
  have hdrain' := Decoder.drain_inv (w := w) hdrain
  simp only [Decoder.Inv, Decoder.drain_phase, Decoder.drain_pend, Decoder.drain_pos, Decoder.drain_out,
    Decoder.drain_err, Decoder.drain_inp] at hdrain' ⊢
  exact ⟨hpend, hidle, hfail, hout, herr, hpos, hdrain'⟩

/-- Every operation of a decoder keeps its invariant. -/
theorem decLocal_inv {p : Params} {i : Instr} {k : Nat} {d d' : Decoder} (hu : i.unit = .dec k)
    (h : decLocal p i d = .ok d') (hinv : d.Inv) : d'.Inv := by
  rcases decLocal_cases hu h with
    ⟨rfl, -⟩ | ⟨-, -, rfl⟩ | ⟨-, rfl⟩ | ⟨hr, -, ⟨b, -, -, -, rfl⟩ | ⟨-, -, rfl⟩ | ⟨l, -, -, rfl⟩ | ⟨-, hp, rfl⟩ |
      ⟨-, -, rfl⟩ | ⟨l, -, -, rfl⟩ | ⟨-, -, rfl⟩⟩
  · exact hinv
  · exact Decoder.started_inv
  · exact Decoder.reset_inv
  · exact Decoder.literal_inv b hr hinv
  · exact Decoder.mark_inv hr hinv
  · exact Decoder.length_inv l hr hinv
  · exact Decoder.endOk_inv hp hr hinv
  · exact Decoder.raiseTruncatedMarker_inv hr hinv
  · exact Decoder.length_inv l hr (Decoder.mark_inv hr hinv)
  · exact Decoder.raiseTruncatedMarker_inv hr (Decoder.mark_inv hr hinv)

/-- No operation of a decoder exceeds a capacity (R58). -/
theorem decLocal_within {p : Params} {i : Instr} {k : Nat} {d d' : Decoder} (hu : i.unit = .dec k)
    (h : decLocal p i d = .ok d') (hx : Params.excess p d.pos d.out.length = none) :
    Params.excess p d'.pos d'.out.length = none := by
  rcases decLocal_cases hu h with ⟨rfl, -⟩ | ⟨-, -, rfl⟩ | ⟨-, rfl⟩ | ⟨-, hx', -⟩
  · exact hx
  · exact excess_zero p
  · exact excess_zero p
  · exact hx'

/-! ### The statements -/

/-- Settles O32: the units after reset meet their invariants, and nothing is consumed or written yet. -/
theorem invariantHoldsAtReset : Obligations.InvariantHoldsAtReset := by
  intro p
  refine ⟨by simp [State.resetWith], by simp [State.resetWith], by simp [State.resetWith], by simp [State.resetWith],
    fun e he => ?_, fun d hd => ?_⟩
  · obtain rfl := State.eq_reset_of_mem_encs he
    exact ⟨Encoder.reset_inv, excess_zero p⟩
  · obtain rfl := State.eq_reset_of_mem_decs hd
    exact ⟨Decoder.reset_inv, excess_zero p⟩

/-- Settles O33: the drain and every operation keep the invariant of their unit and its capacities, and no step changes the
number of units. -/
theorem stepKeepsTheInvariant : Obligations.StepKeepsTheInvariant := by
  rintro s t ⟨hne, hnd, hwe, hwd, hencs, hdecs⟩ h
  obtain ⟨hcfg, he, hd, hewait, hdwait⟩ := step_shape h
  obtain ⟨hencs', hdecs'⟩ := step_lift h hencs hdecs
    (fun e w ⟨hi, hx⟩ => ⟨Encoder.inv_drain w hi, by simpa using hx⟩)
    (fun i k e e' hu hl ⟨hi, hx⟩ => ⟨encLocal_inv hu hl hi, encLocal_within hu hl hx⟩)
    (fun d w ⟨hi, hx⟩ => ⟨Decoder.inv_drain w hi, by simpa using hx⟩)
    (fun i k d d' hu hl ⟨hi, hx⟩ => ⟨decLocal_inv hu hl hi, decLocal_within hu hl hx⟩)
  rw [State.Inv, hcfg, he, hd, hewait, hdwait]
  exact ⟨hne, hnd, hwe, hwd, hencs', hdecs'⟩

end Sys2Proof.Machine
end

