-- ==== Sys2Proof/Proofs/Agreement.lean ====
section
/-! SUPPORT. The registers agree with the functions of level T (R10): each token operation is one round of `enc` or `dec`
(`enc_takeToken`, `Decoder.dec_takeToken`), which START begins and `End` closes; and the statements that every step keeps the
agreement. -/

namespace Sys2Proof.Codec

open Sys2Proof.Machine

/-- One zero more is counted: from 255 the counter goes on at 1 (R122). -/
theorem pendingRun_succ (t : Nat) : pendingRun (t + 1) = if pendingRun t = 255 then 1 else pendingRun t + 1 := by
  cases t with
  | zero => rfl
  | succ n =>
    simp only [pendingRun, Nat.add_eq_zero_iff, one_ne_zero, and_false, if_false, Nat.add_sub_cancel]
    split <;> omega

/-- The counter of R112 follows the trailing zeros of the input. -/
theorem toNat_count {r : Byte} {t : Nat} (h : r.toNat = pendingRun t) :
    (if r = maxRun then 0x01#8 else r + 1).toNat = pendingRun (t + 1) := by
  rw [pendingRun_succ, ← h]
  by_cases hr : r = maxRun
  · subst hr; rfl
  · have hne : r.toNat ≠ 255 := fun hc => hr (BitVec.eq_of_toNat_eq hc)
    rw [if_neg hr, if_neg hne, toNat_succ hr]

/-- A marker behind an accepted sequence appends its zeros. -/
theorem decode_append_marker {c p : Bytes} (h : decode c = .ok p) (l : Byte) :
    decode (c ++ markerBytes l) = .ok (p ++ runBytes l) := by
  rw [decode, dec_append h, markerBytes, dec_run]; rfl

/-- What is flushed stands for the pending zeros (R111). -/
theorem decode_flush {c p : Bytes} (h : decode c = .ok p) (r : Byte) : decode (flush r c) = .ok (p ++ zeros r.toNat) := by
  by_cases hr : r = 0x00#8
  · subst hr; simpa using h
  · rw [flush_of_ne hr, decode_append_marker h, runBytes_eq]

end Sys2Proof.Codec

namespace Sys2Proof.Machine

/-! ### The encoder (R115, R122) -/

theorem Encoder.reset_agrees : Encoder.reset.Agrees := ⟨nofun, nofun⟩

theorem Encoder.started_agrees : Encoder.started.Agrees := ⟨fun _ => ⟨fun _ => rfl, rfl, [], rfl, rfl⟩, nofun⟩

theorem Encoder.zero_agrees {e : Encoder} (hr : e.phase = .run) (h : e.Agrees) : e.zero.Agrees := by
  obtain ⟨henc, hcount, p, hp, hin⟩ := h.1 hr
  refine ⟨fun _ => ⟨fun rest => ?_, ?_, ?_⟩, fun hd => by simp [hr] at hd⟩
  · have hround := enc_takeToken 0x00#8 rest e
    rw [Encoder.takeToken_byte, if_pos rfl] at hround
    rw [e.zero_inp, List.append_assoc, List.singleton_append, henc, hround]
  · rw [e.zero_inp, Codec.trailingZeros_zero, e.zero_runLen]
    exact Codec.toNat_count hcount
  · rw [e.zero_runLen, e.zero_out, e.zero_inp, ← hin]
    by_cases hmax : e.runLen = maxRun
    · rw [if_pos hmax, if_pos hmax]
      exact ⟨_, Codec.decode_append_marker hp maxRun, by rw [hmax, Codec.runBytes_eq]; rfl⟩
    · rw [if_neg hmax, if_neg hmax]
      exact ⟨p, hp, by rw [Codec.toNat_succ hmax, Codec.zeros_add, List.append_assoc]; rfl⟩

theorem Encoder.nonZero_agrees {e : Encoder} {b : Byte} (hb : b ≠ 0x00#8) (hr : e.phase = .run) (h : e.Agrees) :
    (e.nonZero b).Agrees := by
  obtain ⟨henc, hcount, p, hp, hin⟩ := h.1 hr
  refine ⟨fun _ => ⟨fun rest => ?_, ?_, ?_⟩, fun hd => by simp [hr] at hd⟩
  · have hround := enc_takeToken b rest e
    rw [Encoder.takeToken_byte, if_neg hb] at hround
    rw [e.nonZero_inp, List.append_assoc, List.singleton_append, henc, hround]
  · rw [e.nonZero_inp, Codec.trailingZeros_nonZero _ hb]
    rfl
  · rw [e.nonZero_out, e.nonZero_inp, ← hin]
    exact ⟨_, Codec.decode_append_lit (Codec.decode_flush hp e.runLen) hb, List.append_nil _⟩

theorem Encoder.endInput_agrees {e : Encoder} (hr : e.phase = .run) (h : e.Agrees) : e.endInput.Agrees := by
  obtain ⟨henc, -⟩ := h.1 hr
  refine ⟨nofun, fun _ => ?_⟩
  have hall := henc []
  rw [List.append_nil] at hall
  rw [e.endInput_out, e.endInput_inp, hall]
  rfl

theorem Encoder.agrees_drain {e : Encoder} (w : Wires) (h : e.Agrees) : (e.drain w).Agrees := by
  simpa [Encoder.Agrees] using h

/-- Every operation of an encoder keeps its agreement with `encode`. -/
theorem encLocal_agrees {p : Params} {i : Instr} {k : Nat} {e e' : Encoder} (hu : i.unit = .enc k)
    (h : encLocal p i e = .ok e') (ha : e.Agrees) : e'.Agrees := by
  rcases encLocal_cases hu h with ⟨rfl, -⟩ | ⟨-, -, rfl⟩ | ⟨-, rfl⟩ | ⟨hr, -, ⟨-, rfl⟩ | ⟨b, hb, -, rfl⟩ | ⟨-, rfl⟩⟩
  · exact ha
  · exact Encoder.started_agrees
  · exact Encoder.reset_agrees
  · exact Encoder.zero_agrees hr ha
  · exact Encoder.nonZero_agrees hb hr ha
  · exact Encoder.endInput_agrees hr ha

/-! ### The decoder (R148) -/

theorem Decoder.reset_agrees : Decoder.reset.Agrees := ⟨nofun, nofun, nofun⟩

theorem Decoder.started_agrees : Decoder.started.Agrees := ⟨fun _ _ => rfl, nofun, nofun⟩

/-- In RUN the agreement is about the bytes still to come. -/
theorem Decoder.agrees_run_iff {d : Decoder} (hr : d.phase = .run) :
    d.Agrees ↔ ∀ rest, Codec.decode (d.inp ++ rest) = Codec.dec (d.unread rest) d.out := by
  simp [Decoder.Agrees, Decoder.unread, hr]

theorem Decoder.takeToken_lit {d : Decoder} {b : Byte} (hp : d.pend = false) (hb : b ≠ 0x00#8) :
    d.takeToken (.byte b) = d.literal b := by
  simp [Decoder.takeToken, hp, hb]

theorem Decoder.takeToken_mark {d : Decoder} (hp : d.pend = false) : d.takeToken (.byte 0x00#8) = d.mark := by
  simp [Decoder.takeToken, hp]

theorem Decoder.takeToken_length {d : Decoder} (hp : d.pend = true) (l : Byte) :
    d.takeToken (.byte l) = d.length l := if_pos hp

theorem Decoder.takeToken_byte_inp (d : Decoder) (b : Byte) : (d.takeToken (.byte b)).inp = d.inp ++ [b] := by
  rcases d.takeToken_byte_cases b with ⟨-, h⟩ | ⟨-, rfl, h⟩ | ⟨-, -, h⟩ <;> rw [h] <;> rfl

theorem Decoder.takeToken_byte_agrees {d : Decoder} (b : Byte) (hr : d.phase = .run) (h : d.Agrees) :
    (d.takeToken (.byte b)).Agrees := by
  rw [Decoder.agrees_run_iff hr] at h
  rw [Decoder.agrees_run_iff ((d.takeToken_byte_phase b).trans hr)]
  intro rest
  rw [d.takeToken_byte_inp, List.append_assoc, List.singleton_append, h, d.dec_takeToken]

/-- `End` closes the input: the result of `decode` is known. -/
theorem Decoder.decode_inp {d : Decoder} (hr : d.phase = .run) (h : d.Agrees) :
    Codec.decode d.inp = Codec.dec (d.unread []) d.out := by
  simpa using (Decoder.agrees_run_iff hr).1 h []

theorem Decoder.literal_agrees {d : Decoder} {b : Byte} (hb : b ≠ 0x00#8) (hp : d.pend = false) (hr : d.phase = .run)
    (h : d.Agrees) : (d.literal b).Agrees :=
  Decoder.takeToken_lit hp hb ▸ Decoder.takeToken_byte_agrees b hr h

theorem Decoder.mark_agrees {d : Decoder} (hp : d.pend = false) (hr : d.phase = .run) (h : d.Agrees) :
    d.mark.Agrees :=
  Decoder.takeToken_mark hp ▸ Decoder.takeToken_byte_agrees 0x00#8 hr h

theorem Decoder.length_agrees {d : Decoder} (l : Byte) (hp : d.pend = true) (hr : d.phase = .run) (h : d.Agrees) :
    (d.length l).Agrees :=
  Decoder.takeToken_length hp l ▸ Decoder.takeToken_byte_agrees l hr h

theorem Decoder.endOk_agrees {d : Decoder} (hp : d.pend = false) (hr : d.phase = .run) (h : d.Agrees) :
    d.endOk.Agrees := by
  refine ⟨nofun, fun _ => ?_, nofun⟩
  rw [d.endOk_inp, Decoder.decode_inp hr h, Decoder.unread, hp]
  rfl

theorem Decoder.raiseTruncatedMarker_agrees {d : Decoder} (hp : d.pend = true) (hr : d.phase = .run) (h : d.Agrees) :
    d.raiseTruncatedMarker.Agrees := by
  refine ⟨nofun, nofun, fun _ => ?_⟩
  rw [d.raiseTruncatedMarker_inp, Decoder.decode_inp hr h, Decoder.unread, hp]
  rfl

theorem Decoder.agrees_drain {d : Decoder} (w : Wires) (h : d.Agrees) : (d.drain w).Agrees := by
  simpa [Decoder.Agrees] using h

/-- Every operation of a decoder keeps its agreement with `decode`. -/
theorem decLocal_agrees {p : Params} {i : Instr} {k : Nat} {d d' : Decoder} (hu : i.unit = .dec k)
    (h : decLocal p i d = .ok d') (ha : d.Agrees) : d'.Agrees := by
  rcases decLocal_cases hu h with
    ⟨rfl, -⟩ | ⟨-, -, rfl⟩ | ⟨-, rfl⟩ | ⟨hr, -, ⟨b, hb, -, hp, rfl⟩ | ⟨-, hp, rfl⟩ | ⟨l, -, hp, rfl⟩ | ⟨-, hp, rfl⟩ |
      ⟨-, hp, rfl⟩ | ⟨l, -, hp, rfl⟩ | ⟨-, hp, rfl⟩⟩
  · exact ha
  · exact Decoder.started_agrees
  · exact Decoder.reset_agrees
  · exact Decoder.literal_agrees hb hp hr ha
  · exact Decoder.mark_agrees hp hr ha
  · exact Decoder.length_agrees l hp hr ha
  · exact Decoder.endOk_agrees hp hr ha
  · exact Decoder.raiseTruncatedMarker_agrees hp hr ha
  · exact Decoder.length_agrees l rfl hr (Decoder.mark_agrees hp hr ha)
  · exact Decoder.raiseTruncatedMarker_agrees rfl hr (Decoder.mark_agrees hp hr ha)

/-! ### The statements -/

/-- Settles O34: in IDLE there is nothing to agree about. -/
theorem agreementHoldsAtReset : Obligations.AgreementHoldsAtReset := fun _ =>
  ⟨fun _ he => State.eq_reset_of_mem_encs he ▸ Encoder.reset_agrees,
    fun _ hd => State.eq_reset_of_mem_decs hd ▸ Decoder.reset_agrees⟩

/-- Settles O35: the drain and every operation keep the agreement of their unit. -/
theorem stepKeepsAgreementWithTheFunctions : Obligations.StepKeepsAgreementWithTheFunctions :=
  fun _ _ ⟨hencs, hdecs⟩ h => step_lift h hencs hdecs
    (fun _ w => Encoder.agrees_drain w) (fun _ _ _ _ => encLocal_agrees)
    (fun _ w => Decoder.agrees_drain w) (fun _ _ _ _ => decLocal_agrees)

end Sys2Proof.Machine
end

