-- ==== Sys2Proof/Proofs/StreamSymbols.lean ====
section
/-! SUPPORT. The stream symbols as the token operations they are executed by (R94, R144), the run of a decoder to which a
sequence is played symbol by symbol, and the statements about both. -/

namespace Sys2Proof.Machine

/-! ### A symbol is one or two token operations (R94, R144) -/

theorem exec_lit_eq (k : Nat) (b : Byte) (s : State) : exec (.lit k b) s = exec (.dLit k b) s := rfl

theorem exec_run_eq (k : Nat) (l : Byte) (s : State) :
    exec (.run k l) s = andThen (exec (.dMark k) s) (exec (.dLen k l)) := rfl

theorem exec_runZ_eq (k : Nat) (s : State) : exec (.runZ k) s = exec (.run k 0x00#8) s := rfl

theorem exec_trunc_eq (k : Nat) (s : State) :
    exec (.trunc k) s = andThen (exec (.dMark k) s) (exec (.dEndTrunc k)) := rfl

/-- The last write of a unit counts. -/
theorem State.setDec_setDec (k : Nat) (d d' : Decoder) (s : State) : (s.setDec k d).setDec k d' = s.setDec k d' := by
  simp [State.setDec]

section
variable {s : State} {k : Nat} {d : Decoder}

/-- D.MARK then D.LEN within the capacities, which the marker byte alone does not exceed either. -/
theorem exec_dMark_dLen_of_run (l : Byte) (hd : s.decs[k]? = some d) (hr : d.phase = .run) (hp : d.pend = false)
    (hx : Params.excess s.cfg (d.pos + 2) (d.out.length + l.toNat) = none) :
    exec (.dMark k) s = .next (s.setDec k d.mark) ∧
      exec (.dLen k l) (s.setDec k d.mark) = .next (s.setDec k (d.mark.length l)) := by
  have hmark := exec_dMark_of_run hd hr hp (excess_mono (by omega) (by omega) hx)
  have hlen := exec_dLen_of_run (l := l) (State.setDec_get (d' := d.mark) hd) hr rfl hx
  exact ⟨hmark, by rw [hlen, State.setDec_setDec]⟩

/-- D.MARK then D.END (truncated) within the capacities. -/
theorem exec_dMark_dEndTrunc_of_run (hd : s.decs[k]? = some d) (hr : d.phase = .run) (hp : d.pend = false)
    (hx : Params.excess s.cfg (d.pos + 1) d.out.length = none) :
    exec (.dMark k) s = .next (s.setDec k d.mark) ∧
      exec (.dEndTrunc k) (s.setDec k d.mark) = .next (s.setDec k d.mark.raiseTruncatedMarker) := by
  have hmark := exec_dMark_of_run hd hr hp hx
  have hend := exec_dEndTrunc_of_run (State.setDec_get (d' := d.mark) hd) hr rfl
    (excess_mono (Nat.le_refl _) (Nat.zero_le _) hx)
  exact ⟨hmark, by rw [hend, State.setDec_setDec]⟩

theorem exec_run_of_run (l : Byte) (hd : s.decs[k]? = some d) (hr : d.phase = .run) (hp : d.pend = false)
    (hx : Params.excess s.cfg (d.pos + 2) (d.out.length + l.toNat) = none) :
    exec (.run k l) s = .next (s.setDec k (d.mark.length l)) := by
  obtain ⟨hmark, hlen⟩ := exec_dMark_dLen_of_run l hd hr hp hx
  rw [exec_run_eq, hmark]
  exact hlen

theorem exec_trunc_of_run (hd : s.decs[k]? = some d) (hr : d.phase = .run) (hp : d.pend = false)
    (hx : Params.excess s.cfg (d.pos + 1) d.out.length = none) :
    exec (.trunc k) s = .next (s.setDec k d.mark.raiseTruncatedMarker) := by
  obtain ⟨hmark, hend⟩ := exec_dMark_dEndTrunc_of_run hd hr hp hx
  rw [exec_trunc_eq, hmark]
  exact hend

end

/-! ### The statements about one symbol -/

/-- Settles O18. -/
theorem litSymbolAppendsTheByte : Obligations.LitSymbolAppendsTheByte := fun _ k b _ hd hr hp hb hx =>
  ⟨exec_lit_eq k b _, _, _, exec_dLit_of_run hd hr hp hb hx, State.setDec_get hd, hr, hp, rfl, rfl⟩

/-- Settles O19: RUN.Z is the case of length 0, in which no byte is appended. -/
theorem runSymbolIsMarkThenLength : Obligations.RunSymbolIsMarkThenLength := by
  refine ⟨fun s k l d hd hr hp hx => ?_, fun s k d hd hr hp hx => ?_⟩
  · obtain ⟨hmark, hlen⟩ := exec_dMark_dLen_of_run l hd hr hp hx
    exact ⟨_, _, d.mark.length l, hmark, hlen, exec_run_of_run l hd hr hp hx, State.setDec_get hd, hr, rfl, rfl, rfl, rfl⟩
  · obtain ⟨hmark, hlen⟩ := exec_dMark_dLen_of_run 0x00#8 hd hr hp hx
    exact ⟨_, _, d.mark.length 0x00#8, hmark, hlen, exec_run_of_run 0x00#8 hd hr hp hx, State.setDec_get hd, hr, rfl, rfl,
      rfl, by simp⟩

/-- Settles O20: after D.MARK the marker is pending, and `End` takes the TruncatedMarker entry. -/
theorem truncSymbolEndsInFail : Obligations.TruncSymbolEndsInFail := by
  intro s k d hd hr hp hx
  obtain ⟨hmark, hend⟩ := exec_dMark_dEndTrunc_of_run hd hr hp hx
  exact ⟨_, _, d.mark.raiseTruncatedMarker, hmark, hend, exec_trunc_of_run hd hr hp hx, State.setDec_get hd, rfl, rfl, rfl,
    rfl, rfl, Decoder.raiseTruncatedMarker_result _⟩

/-! ### A sequence played to a decoder in RUN -/

section
variable {s : State} {k : Nat} {d d' : Decoder} {c : Bytes} {i : Instr} {left rest : List Input}

/-- A step over the rest `c` of a sequence performs the operation that `c` selects. -/
theorem step_stream (hd : s.decs[k]? = some d) (hr : d.phase = .run) (hp : d.pend = false)
    (hw : s.waiting (.dec k) = none) (hin : s.inputs = .stream k c :: rest)
    (hdec : decode ⟨.run, false⟩ (.stream k c) = .ok (i, left)) (hnone : waitingAfter i (.stream k c) = none)
    (hexec : ∀ s' : State, s'.cfg = s.cfg → s'.decs[k]? = some d → exec i s' = .next (s'.setDec k d')) :
    ∃ t, step s = .next t ∧ t.decs[k]? = some d' ∧ t.waiting (.dec k) = none ∧ t.inputs = left ++ rest ∧
      t.cfg = s.cfg := by
  have hctx : s.ctx (.dec k) = some ⟨.run, false⟩ := by rw [State.ctx_dec hd, hr, hp]
  have hkeep : keepsOffer (s.waiting (.dec k)) (.stream k c) = true := by rw [hw, keepsOffer_none]
  have hstep := step_op hin hctx hkeep hdec
  rw [hnone] at hstep
  have hdone := hexec (s.advance (.dec k) none (left ++ rest)) (by simp) (by simpa using hd)
  exact ⟨_, hstep.trans hdone, State.setDec_get (by simpa using hd),
    by rw [State.setDec_waiting, State.advance_waiting_none], rfl, rfl⟩

/-- A literal at the front takes one step. -/
theorem step_stream_lit {b : Byte} (hb : b ≠ 0x00#8) (hd : s.decs[k]? = some d) (hr : d.phase = .run)
    (hp : d.pend = false) (hw : s.waiting (.dec k) = none) (hin : s.inputs = .stream k (b :: c) :: rest)
    (hx : Params.excess s.cfg (d.literal b).pos (d.literal b).out.length = none) :
    ∃ t, step s = .next t ∧ t.decs[k]? = some (d.literal b) ∧ t.waiting (.dec k) = none ∧
      t.inputs = .stream k c :: rest ∧ t.cfg = s.cfg :=
  step_stream hd hr hp hw hin (decode_stream_lit hb k c) rfl fun s' hcfg hd' =>
    exec_dLit_of_run hd' hr hp hb (by simpa [hcfg] using hx)

/-- A whole marker at the front, of whatever length, takes one step (R88, R144). -/
theorem step_stream_marker {l : Byte} (hd : s.decs[k]? = some d) (hr : d.phase = .run) (hp : d.pend = false)
    (hw : s.waiting (.dec k) = none) (hin : s.inputs = .stream k (0x00#8 :: l :: c) :: rest)
    (hx : Params.excess s.cfg (d.mark.length l).pos (d.mark.length l).out.length = none) :
    ∃ t, step s = .next t ∧ t.decs[k]? = some (d.mark.length l) ∧ t.waiting (.dec k) = none ∧
      t.inputs = .stream k c :: rest ∧ t.cfg = s.cfg := by
  have hexec : ∀ s' : State, s'.cfg = s.cfg → s'.decs[k]? = some d →
      exec (.run k l) s' = .next (s'.setDec k (d.mark.length l)) := fun s' hcfg hd' =>
    exec_run_of_run l hd' hr hp (by simpa [hcfg, Codec.runBytes_eq] using hx)
  by_cases hl : l = 0x00#8
  · subst hl
    exact step_stream hd hr hp hw hin (decode_stream_runZ k c) rfl hexec
  · exact step_stream hd hr hp hw hin (decode_stream_run hl k c) rfl hexec

end

/-- A decoder in RUN takes the symbols of `c`, one a step, and ends with what `dec` gives from its registers. -/
theorem run_stream {k : Nat} {rest : List Input} (c : Bytes) {s : State} {d : Decoder} (hd : s.decs[k]? = some d)
    (hr : d.phase = .run) (hp : d.pend = false) (hw : s.waiting (.dec k) = none) (hin : s.inputs = .stream k c :: rest)
    (hx : Params.excess s.cfg (d.pos + c.length) (d.filled c).length = none) :
    ∃ t d', Host.Core.run core ((Codec.parse c).1.length + 1) s = .next t ∧ t.inputs = rest ∧
      t.waiting (.dec k) = none ∧ t.decs[k]? = some d' ∧ d'.pos = d.pos + c.length ∧
      d'.EndedWith (Codec.dec (d.unread c) d.out) := by
  induction c using Codec.parse_induction generalizing s d with
  | nil =>
    have hend : d.takeToken .endOfInput = d.endOk := by simp [Decoder.takeToken, hp]
    have hx' : Params.excess s.cfg d.pos d.out.length = none := excess_mono (by simp) (d.out_length_le_filled []) hx
    obtain ⟨t, hstep, hget, hwait, hrest, -⟩ := step_stream hd hr hp hw hin (decode_stream_end k) rfl
      fun s' hcfg hd' => exec_dEndOk_of_run hd' hr hp (hcfg ▸ hx')
    exact ⟨t, _, run_succ_of_step hstep, hrest, hwait, hget, rfl, hend ▸ d.takeToken_end_endedWith⟩
  | bare =>
    have hx' : Params.excess s.cfg (d.pos + 1) d.out.length = none :=
      excess_mono (by simp) (d.out_length_le_filled _) hx
    obtain ⟨t, hstep, hget, hwait, hrest, -⟩ := step_stream hd hr hp hw hin (decode_stream_trunc k) rfl
      fun s' hcfg hd' => exec_trunc_of_run hd' hr hp (hcfg ▸ hx')
    have hround := d.dec_takeToken 0x00#8 []
    rw [Decoder.takeToken_mark hp] at hround
    exact ⟨t, _, run_succ_of_step hstep, hrest, hwait, hget, rfl, hround ▸ d.mark.takeToken_end_endedWith⟩
  | lit b c hb ih =>
    have hfilled := (d.parse_takeToken b c).1
    have hround := d.dec_takeToken b c
    have hpos : (d.literal b).pos + c.length = d.pos + (b :: c).length := by simp; omega
    rw [Decoder.takeToken_lit hp hb] at hfilled hround
    obtain ⟨s', hstep, hget, hwait, hin', hcfg⟩ := step_stream_lit hb hd hr hp hw hin
      (excess_mono (by omega) (hfilled ▸ Decoder.out_length_le_filled ..) hx)
    obtain ⟨t, d', hrun, hend⟩ := ih hget hr hp hwait hin' (by rw [hcfg, hpos, hfilled]; exact hx)
    rw [hround, hpos] at hend
    rw [Codec.parse_lit hb]
    exact ⟨t, d', (run_succ_of_step hstep).trans hrun, hend⟩
  | run l c ih =>
    have hfilled := (d.mark.parse_takeToken l c).1.trans (Decoder.takeToken_mark hp ▸ (d.parse_takeToken 0x00#8 (l :: c)).1)
    have hround := (d.mark.dec_takeToken l c).trans (Decoder.takeToken_mark hp ▸ d.dec_takeToken 0x00#8 (l :: c))
    have hpos : (d.mark.length l).pos + c.length = d.pos + (0x00#8 :: l :: c).length := by simp; omega
    rw [Decoder.takeToken_length rfl] at hfilled hround
    obtain ⟨s', hstep, hget, hwait, hin', hcfg⟩ := step_stream_marker hd hr hp hw hin
      (excess_mono (by omega) (hfilled ▸ Decoder.out_length_le_filled ..) hx)
    obtain ⟨t, d', hrun, hend⟩ := ih hget hr rfl hwait hin' (by rw [hcfg, hpos, hfilled]; exact hx)
    rw [hround, hpos] at hend
    rw [Codec.parse_run]
    exact ⟨t, d', (run_succ_of_step hstep).trans hrun, hend⟩

/-- Settles O55: START gives the registers from which the symbols of `c` compute `decode`. -/
theorem symbolStepsComputeDecode : Obligations.SymbolStepsComputeDecode := by
  intro s k d c rest hd hp hw hin hx
  obtain ⟨s', hstep, hget, hwait, hin', hcfg⟩ := step_startEdge_dec hd hp hw hin
  have hfilled : Decoder.started.filled c = (Codec.parse c).1.flatMap Codec.Sym.plain := rfl
  obtain ⟨t, d', hrun, hrest, hwait', hget', hpos, hpend, hresult, -⟩ :=
    run_stream c hget Decoder.started_phase rfl hwait hin' (by simpa [hcfg, hfilled] using hx)
  exact ⟨t, d', (run_succ_of_step hstep).trans hrun, hrest, hwait', hget', by simpa using hpos, hpend, hresult⟩

end Sys2Proof.Machine
end

