-- ==== Sys2Proof/Proofs/Concatenation.lean ====
section
/-! SUPPORT. Where `encode` and `decode` may be cut (95_test_vectors.md part 4), canonical programs as the encoder's output
(R97), the tokens of a sequence at the cursor (R51), and the statements about them. -/

namespace Sys2Proof.Codec

open Sys2Proof.Machine

/-! ### Cutting a plain sequence where no run of zeros is cut -/

/-- The counted zeros are written before anything that does not begin with a zero. -/
theorem closedFrom_of_head_ne {b : Bytes} (h : b.head? ≠ some 0x00#8) (n : Nat) :
    closedFrom n b = markers n ++ closedFrom 0 b := by
  cases b with
  | nil => exact (List.append_nil _).symm
  | cons x t =>
    have hx : x ≠ 0x00#8 := by simpa using h
    rw [closedFrom_nonZero hx, closedFrom_nonZero hx, markers_zero, List.nil_append]

/-- The closed form is cut where the second part does not begin with a zero, or where the first part does not end with one,
counted zeros included. -/
theorem closedFrom_append {n : Nat} {b₁ b₂ : Bytes}
    (h : ((b₁ = [] → n = 0) ∧ b₁.getLast? ≠ some 0x00#8) ∨ b₂.head? ≠ some 0x00#8) :
    closedFrom n (b₁ ++ b₂) = closedFrom n b₁ ++ closedFrom 0 b₂ := by
  induction b₁ generalizing n with
  | nil =>
    rcases h with ⟨hn, -⟩ | hhead
    · obtain rfl := hn rfl; rfl
    · exact closedFrom_of_head_ne hhead n
  | cons x t ih =>
    have hlast : (x :: t).getLast? ≠ some 0x00#8 → t.getLast? ≠ some 0x00#8 := by cases t <;> simp
    by_cases hx : x = 0x00#8
    · subst hx
      have hne : (0x00#8 :: t).getLast? ≠ some 0x00#8 → t ≠ [] := by rintro h rfl; exact h rfl
      rw [List.cons_append, closedFrom_zero, closedFrom_zero]
      exact ih (h.imp_left fun ⟨_, hl⟩ => ⟨fun ht => absurd ht (hne hl), hlast hl⟩)
    · rw [List.cons_append, closedFrom_nonZero hx, closedFrom_nonZero hx,
        ih (h.imp_left fun ⟨_, hl⟩ => ⟨fun _ => rfl, hlast hl⟩), List.append_assoc, List.cons_append]

theorem encode_append {b₁ b₂ : Bytes} (h : b₁.getLast? ≠ some 0x00#8 ∨ b₂.head? ≠ some 0x00#8) :
    encode (b₁ ++ b₂) = encode b₁ ++ encode b₂ := by
  simp only [encode_eq_closedForm, closedForm]
  exact closedFrom_append (h.imp_left fun hl => ⟨fun _ => rfl, hl⟩)

/-! ### Decoding goes on after an accepted sequence -/

theorem decode_append {c₁ c₂ p₁ : Bytes} (h : decode c₁ = .ok p₁) : decode (c₁ ++ c₂) = dec c₂ p₁ := dec_append h c₂ []

/-- `dec` appends what `decode` gives to what the buffer holds. -/
theorem dec_of_decode_ok {c p : Bytes} (h : decode c = .ok p) (o : Bytes) : dec c o = .ok (o ++ p) := by
  simpa [dec] using dec_append h [] o

/-- An error does not depend on what the buffer holds. -/
theorem dec_of_decode_err {c : Bytes} {r : ErrCode} (h : decode c = .err r) (o : Bytes) : dec c o = .err r := by
  rw [decode_eq] at h
  rw [dec_eq]
  split at h
  · rw [if_pos ‹_›, h]
  · exact absurd h nofun

/-- Settles O50: `dec` goes on from the bytes of the first sequence, and the closed form is cut between two runs. -/
theorem functionsOnConcatenations : Obligations.FunctionsOnConcatenations := by
  refine ⟨fun c₁ c₂ p₁ h => ⟨fun p₂ h₂ => ?_, fun r h₂ => ?_⟩, fun _ _ => encode_append⟩
  · rw [decode_append h, dec_of_decode_ok h₂]
  · rw [decode_append h, dec_of_decode_err h₂]

/-! ### Canonical programs (R97) -/

/-- The plain bytes a line stands for; a bare marker stands for none. -/
def AsmLine.plain : AsmLine → Bytes
  | .lit b => [b]
  | .run l => runBytes l
  | .zeros n => Machine.zeros n
  | .bareMarker => []

@[simp] theorem assemble_nil : assemble [] = [] := rfl

@[simp] theorem assemble_cons (y : AsmLine) (p : List AsmLine) : assemble (y :: p) = y.bytes ++ assemble p := rfl

theorem encode_cons_lit {b : Byte} (hb : b ≠ 0x00#8) (t : Bytes) : encode (b :: t) = b :: encode t := by
  simp only [encode_eq_closedForm, closedForm, closedFrom_nonZero hb, markers_zero, List.nil_append]

/-- A canonical program assembles to what the encoder writes for the bytes of its lines: between two ZEROS lines there is a
literal. -/
theorem assemble_of_canonicalProgram {p : List AsmLine} (h : canonicalProgram p = true) :
    assemble p = encode (p.flatMap AsmLine.plain) := by
  induction p using canonicalProgram.induct with
  | case1 => rfl
  | case2 b t ih =>
    simp only [canonicalProgram, Bool.and_eq_true, bne_iff_ne, ne_eq] at h
    obtain ⟨hb, ht⟩ := h
    simp [AsmLine.bytes, AsmLine.plain, encode_cons_lit hb, ih ht]
  | case3 n b t ih =>
    simp only [canonicalProgram, Bool.and_eq_true, bne_iff_ne, ne_eq] at h
    obtain ⟨⟨-, hb⟩, ht⟩ := h
    have hcut : encode (Machine.zeros n ++ b :: t.flatMap AsmLine.plain) =
        encode (Machine.zeros n) ++ encode (b :: t.flatMap AsmLine.plain) := encode_append (.inr (by simpa using hb))
    simp [AsmLine.bytes, AsmLine.plain, hcut, encode_zeros, encode_cons_lit hb, ih ht]
  | case4 n => simp [AsmLine.bytes, AsmLine.plain, encode_zeros]
  | case5 p h1 h2 h3 h4 => simp [canonicalProgram] at h

/-- Settles O51: a canonical program assembles to an output of the encoder, which is canonical. -/
theorem canonicalProgramsAssembleToCanonical : Obligations.CanonicalProgramsAssembleToCanonical := by
  refine ⟨fun n => ?_, fun p h => ?_⟩
  · simp [AsmLine.bytes, encode_zeros]
  · rw [assemble_of_canonicalProgram h]
    exact canonical_encode _

end Sys2Proof.Codec

namespace Sys2Proof.Machine

/-! ### The tokens at the cursor (R51) -/

/-- Settles O52, by induction on the sequence: the cursor 0 reads its first byte, and the cursors behind it read the rest. -/
theorem deliveredTokensAreTheTokensAtTheCursor : Obligations.DeliveredTokensAreTheTokensAtTheCursor := by
  intro inp
  induction inp with
  | nil => rfl
  | cons b inp ih =>
    calc tokens (b :: inp) = .byte b :: tokens inp := rfl
      _ = tok (b :: inp) 0 :: (List.range (inp.length + 1)).map (tok (b :: inp) ∘ Nat.succ) := by rw [ih]; rfl
      _ = (List.range ((b :: inp).length + 1)).map (tok (b :: inp)) := by
        rw [List.length_cons, List.range_succ_eq_map (n := inp.length + 1), List.map_cons, List.map_map]

end Sys2Proof.Machine
end

