-- ==== Sys2Proof/Proofs/HexBoundary.lean ====
section
/-! SUPPORT. The digits of the host's hex boundary and `hexdec` pair by pair (R192 to R195), and the three statements about
the boundary. -/

namespace Sys2Proof.HexBoundary

open Sys2Proof.Machine

/-! ### Digits and bytes -/

/-- The digit of a nibble has the nibble's value, whichever alphabet is accepted (R192, R195). -/
theorem digitValue_digitChar (upper : Bool) {n : Nat} (h : n < 16) : digitValue upper (digitChar n) = some n := by
  revert n upper
  decide

/-- A byte is its two nibbles. -/
theorem byte_of_nibbles (x : Byte) : BitVec.ofNat 8 (16 * (x.toNat / 16) + x.toNat % 16) = x := by
  rw [Nat.div_add_mod, BitVec.ofNat_toNat, BitVec.setWidth_eq]

/-! ### `hexdec` and `hexenc`, a pair of digits at a time -/

theorem hexenc_cons (x : Byte) (b : Bytes) :
    hexenc (x :: b) = digitChar (x.toNat / 16) :: digitChar (x.toNat % 16) :: hexenc b := rfl

theorem hexdec_pair {upper : Bool} {h l : Char} {m n : Nat} (hh : digitValue upper h = some m)
    (hl : digitValue upper l = some n) (t : List Char) :
    hexdec upper (h :: l :: t) = (hexdec upper t).map (BitVec.ofNat 8 (16 * m + n) :: ·) := by
  rw [hexdec, hh, hl]
  cases hexdec upper t <;> rfl

/-- A pair fails at either character or behind it. -/
theorem hexdec_pair_none_iff {upper : Bool} {h l : Char} {t : List Char} :
    hexdec upper (h :: l :: t) = none ↔
      digitValue upper h = none ∨ digitValue upper l = none ∨ hexdec upper t = none := by
  cases hh : digitValue upper h with
  | none => simp [hexdec, hh]
  | some m =>
    cases hl : digitValue upper l with
    | none => simp [hexdec, hh, hl]
    | some n => simp [hexdec_pair hh hl]

theorem hexdec_hexenc (upper : Bool) (b : Bytes) : hexdec upper (hexenc b) = some b := by
  induction b with
  | nil => rfl
  | cons x b ih =>
    have hx := x.isLt
    rw [hexenc_cons, hexdec_pair (digitValue_digitChar upper (by omega)) (digitValue_digitChar upper (by omega)), ih,
      Option.map_some, byte_of_nibbles]

theorem length_hexenc (b : Bytes) : (hexenc b).length = 2 * b.length := by
  induction b with
  | nil => rfl
  | cons x b ih => rw [hexenc_cons, List.length_cons, List.length_cons, List.length_cons, ih]; omega

/-- The two failures of R193, by induction over pairs of characters. -/
theorem hexdec_none_iff (upper : Bool) (s : List Char) :
    hexdec upper s = none ↔ s.length % 2 = 1 ∨ ∃ c ∈ s, digitValue upper c = none := by
  induction s using List.twoStepInduction with
  | nil => simp [hexdec]
  | singleton c => simp [hexdec]
  | cons_cons h l t ih _ =>
    have hlen : (h :: l :: t).length % 2 = t.length % 2 := by simp [Nat.add_assoc]
    rw [hexdec_pair_none_iff, ih, hlen]
    simp only [List.mem_cons, exists_eq_or_imp]
    tauto

/-- A pair of digits is one byte. -/
theorem length_of_hexdec {upper : Bool} {s : List Char} {b : Bytes} (h : hexdec upper s = some b) :
    b.length = s.length / 2 := by
  induction s using List.twoStepInduction generalizing b with
  | nil => simp [hexdec] at h; simp [← h]
  | singleton c => simp [hexdec] at h
  | cons_cons c l t ih _ =>
    have hsome : hexdec upper (c :: l :: t) ≠ none := by simp [h]
    rw [ne_eq, hexdec_pair_none_iff, not_or, not_or] at hsome
    obtain ⟨hc, hl, -⟩ := hsome
    obtain ⟨m, hm⟩ := Option.ne_none_iff_exists'.1 hc
    obtain ⟨n, hn⟩ := Option.ne_none_iff_exists'.1 hl
    rw [hexdec_pair hm hn] at h
    obtain ⟨r, hr, rfl⟩ := Option.map_eq_some_iff.1 h
    simp only [List.length_cons, ih hr]
    omega

/-! ### The statements -/

/-- Settles O56. -/
theorem hexDecodeOfHexEncode : Obligations.HexDecodeOfHexEncode := fun upper b =>
  ⟨hexdec_hexenc upper b, length_hexenc b⟩

/-- Settles O57. -/
theorem hexDecodeFailsInExactlyTwoCases : Obligations.HexDecodeFailsInExactlyTwoCases := fun upper s =>
  ⟨hexdec_none_iff upper s, fun _ => length_of_hexdec⟩

/-- Settles O58: the round trips of the digits and of the codec (`Codec.decode_encode`) compose, and a malformed string is
met before anything else. -/
theorem wrappedCodecRoundTrips : Obligations.WrappedCodecRoundTrips := by
  refine ⟨fun p b => ⟨hexenc (Codec.encode b), ?_, ?_⟩, fun p u s h => ⟨?_, ?_, ?_⟩⟩
  · rw [encodeHex, hexdec_hexenc]
  · simp only [decodeHex, hexdec_hexenc, Codec.decode_encode]
  · rw [encodeHex, h]
  · rw [decodeHex, h]
  · rw [hexTransaction, h]

end Sys2Proof.HexBoundary
end

