-- ==== Sys2Proof/Proofs/RegisterFrames.lean ====
section
/-! SUPPORT. What an operation performed in RUN makes of its unit's registers, which phases an operation moves between
(R170), and the statements about registers, buffers, cursors and phases. -/

namespace Sys2Proof.Codec

open Sys2Proof.Machine

/-- FLUSH appends a marker or nothing (R111). -/
theorem flush_appends (r : Byte) (o : Bytes) : ∃ a, flush r o = o ++ a ∧ a.length ≤ 2 := by
  by_cases h : r = 0x00#8
  · subst h; exact ⟨[], by simp, by simp⟩
  · exact ⟨markerBytes r, flush_of_ne h o, by simp [markerBytes]⟩

end Sys2Proof.Codec

namespace Sys2Proof.Machine

/-! ### The registers after an operation performed in RUN (R94) -/

/-- The effect of an encoder's operation in RUN, where START is ignored. -/
def Encoder.after (e : Encoder) : Instr → Encoder
  | .eZero _ => e.zero
  | .eNz _ b => e.nonZero b
  | .eEnd _ => e.endInput
  | .reset _ => Encoder.reset
  | _ => e

/-- The effect of a decoder's operation or stream symbol in RUN, where START is ignored. -/
def Decoder.after (d : Decoder) : Instr → Decoder
  | .lit _ b => d.literal b
  | .dLit _ b => d.literal b
  | .dMark _ => d.mark
  | .dLen _ l => d.length l
  | .dEndOk _ => d.endOk
  | .dEndTrunc _ => d.raiseTruncatedMarker
  | .run _ l => d.mark.length l
  | .runZ _ => d.mark.length 0x00#8
  | .trunc _ => d.mark.raiseTruncatedMarker
  | .reset _ => Decoder.reset
  | _ => d

section
variable {i : Instr} {s t : State} {k : Nat}

theorem exec_enc_of_run {e e' : Encoder} (hu : i.unit = .enc k) (hr : e.phase = .run) (he : s.encs[k]? = some e)
    (he' : t.encs[k]? = some e') (h : exec i s = .next t) : e' = e.after i := by
  rcases exec_next_at_enc h he he' with ⟨hne, -⟩ | ⟨-, hl⟩
  · exact absurd hu hne
  · rcases encLocal_cases hu hl with
      ⟨rfl, hne | rfl⟩ | ⟨-, hne, -⟩ | ⟨rfl, rfl⟩ | ⟨-, -, ⟨rfl, rfl⟩ | ⟨b, -, rfl, rfl⟩ | ⟨rfl, rfl⟩⟩
    · exact absurd hr hne
    · rfl
    · exact absurd hr hne
    all_goals rfl

/-- The operation found `pend` as its row of R94 asks, unless it is START or reset, which ask nothing. -/
theorem exec_dec_of_run {d d' : Decoder} (hu : i.unit = .dec k) (hr : d.phase = .run) (hd : s.decs[k]? = some d)
    (hd' : t.decs[k]? = some d') (h : exec i s = .next t) :
    d' = d.after i ∧ (i = .dStart k ∨ i = .reset (.dec k) ∨ d.pend = (ctxOf i).pend) := by
  rcases exec_next_at_dec h hd hd' with ⟨hne, -⟩ | ⟨-, hl⟩
  · exact absurd hu hne
  · rcases decLocal_cases hu hl with
      ⟨rfl, hne | rfl⟩ | ⟨-, hne, -⟩ | ⟨rfl, rfl⟩ | ⟨-, -, ⟨b, -, rfl | rfl, hp, rfl⟩ | ⟨rfl, hp, rfl⟩ | ⟨l, rfl, hp, rfl⟩ |
        ⟨rfl, hp, rfl⟩ | ⟨rfl, hp, rfl⟩ | ⟨l, rfl | ⟨rfl, rfl⟩, hp, rfl⟩ | ⟨rfl, hp, rfl⟩⟩
    · exact absurd hr hne
    · exact ⟨rfl, .inl rfl⟩
    · exact absurd hr hne
    · exact ⟨rfl, .inr (.inl rfl)⟩
    all_goals exact ⟨rfl, .inr (.inr hp)⟩

end

/-! ### Registers and cursors in RUN -/

/-- Settles O26. -/
theorem encoderRegisterFrame : Obligations.EncoderRegisterFrame := by
  intro s t k e e' he he' hr
  refine ⟨fun h => ?_, fun b h => ?_, fun h => ?_⟩
  · obtain rfl := exec_enc_of_run rfl hr he he' h
    simp [Encoder.after, hr]
  · obtain rfl := exec_enc_of_run rfl hr he he' h
    simp [Encoder.after, hr]
  · obtain rfl := exec_enc_of_run rfl hr he he' h
    simp [Encoder.after]

/-- Settles O27: RUN and RUN.Z leave `pend` at 0, where they found it. -/
theorem decoderRegisterFrame : Obligations.DecoderRegisterFrame := by
  intro s t k d d' hd hd' hr
  refine ⟨fun b h => ?_, fun h => ?_, fun l h => ?_, fun l h => ?_, fun h => ?_, fun h => ?_, fun h => ?_, fun h => ?_⟩
  · obtain rfl : d' = d.literal b := by
      rcases h with h | h
      · exact (exec_dec_of_run rfl hr hd hd' h).1
      · exact (exec_dec_of_run rfl hr hd hd' h).1
    simp [hr]
  · obtain ⟨rfl, -⟩ := exec_dec_of_run rfl hr hd hd' h
    simp [Decoder.after, hr]
  · obtain ⟨rfl, -⟩ := exec_dec_of_run rfl hr hd hd' h
    simp [Decoder.after, hr]
  · obtain ⟨rfl, hp⟩ := exec_dec_of_run rfl hr hd hd' h
    have hp : d.pend = false := by simpa [ctxOf] using hp
    simp [Decoder.after, hr, hp]
  · obtain ⟨rfl, hp⟩ := exec_dec_of_run rfl hr hd hd' h
    have hp : d.pend = false := by simpa [ctxOf] using hp
    simp [Decoder.after, hr, hp]
  · obtain ⟨rfl, -⟩ := exec_dec_of_run rfl hr hd hd' h
    simp [Decoder.after]
  · obtain ⟨rfl, -⟩ := exec_dec_of_run rfl hr hd hd' h
    simp [Decoder.after]
  · obtain ⟨rfl, -⟩ := exec_dec_of_run rfl hr hd hd' h
    simp [Decoder.after]

/-- Settles O29. -/
theorem cursorAdvancesByOnePerByte : Obligations.CursorAdvancesByOnePerByte := by
  refine ⟨fun s t k e e' he he' hr => ⟨fun h => ?_, fun h => ?_⟩,
    fun s t k d d' hd hd' hr => ⟨fun h => ?_, fun h => ?_, fun h => ?_⟩⟩
  · rcases h with h | ⟨b, h⟩ <;> obtain rfl := exec_enc_of_run rfl hr he he' h <;> simp [Encoder.after]
  · obtain rfl := exec_enc_of_run rfl hr he he' h
    simp [Encoder.after]
  · rcases h with ⟨b, h⟩ | ⟨b, h⟩ | h | ⟨l, h⟩ | h <;> obtain ⟨rfl, -⟩ := exec_dec_of_run rfl hr hd hd' h <;> rfl
  · rcases h with ⟨l, h⟩ | h <;> obtain ⟨rfl, -⟩ := exec_dec_of_run rfl hr hd hd' h <;> rfl
  · rcases h with h | h <;> obtain ⟨rfl, -⟩ := exec_dec_of_run rfl hr hd hd' h <;> rfl

/-! ### The output buffers (R52) -/

/-- Bytes after the end leave every index before it as it was. -/
theorem getElem?_of_appended {o o' : Bytes} {n : Nat} (h : ∃ a, o' = o ++ a ∧ a.length ≤ n) :
    (∃ a, o' = o ++ a ∧ a.length ≤ n) ∧ ∀ j, j < o.length → o'[j]? = o[j]? := by
  refine ⟨h, fun j hj => ?_⟩
  obtain ⟨a, rfl, -⟩ := h
  exact List.getElem?_append_left hj

/-- Only START and reset remove bytes of an encoder's buffer. -/
theorem encLocal_appends {p : Params} {i : Instr} {k : Nat} {e e' : Encoder} (hu : i.unit = .enc k)
    (h : encLocal p i e = .ok e') (hstart : i ≠ .eStart k) (hreset : i ≠ .reset (.enc k)) :
    ∃ a, e'.out = e.out ++ a ∧ a.length ≤ 3 := by
  rcases encLocal_cases hu h with
    ⟨rfl, -⟩ | ⟨hi, -⟩ | ⟨hi, -⟩ | ⟨-, -, ⟨-, rfl⟩ | ⟨b, -, -, rfl⟩ | ⟨-, rfl⟩⟩
  · exact ⟨[], by simp, by simp⟩
  · exact absurd hi hstart
  · exact absurd hi hreset
  · rw [Encoder.zero_out]
    split
    · exact ⟨markerBytes maxRun, rfl, by simp [markerBytes]⟩
    · exact ⟨[], by simp, by simp⟩
  · obtain ⟨a, ha, hlen⟩ := Codec.flush_appends e.runLen e.out
    exact ⟨a ++ [b], by rw [Encoder.nonZero_out, ha, List.append_assoc], by simp; omega⟩
  · obtain ⟨a, ha, hlen⟩ := Codec.flush_appends e.runLen e.out
    exact ⟨a, by rw [Encoder.endInput_out, ha], by omega⟩

/-- Only START, reset and the failing operations remove bytes of a decoder's buffer. -/
theorem decLocal_appends {p : Params} {i : Instr} {k : Nat} {d d' : Decoder} (hu : i.unit = .dec k)
    (h : decLocal p i d = .ok d') (hstart : i ≠ .dStart k) (hreset : i ≠ .reset (.dec k)) (hend : i ≠ .dEndTrunc k)
    (htrunc : i ≠ .trunc k) : ∃ a, d'.out = d.out ++ a ∧ a.length ≤ 255 := by
  have run : ∀ l : Byte, ∃ a, d.out ++ runBytes l = d.out ++ a ∧ a.length ≤ 255 := fun l =>
    ⟨runBytes l, rfl, by have := l.isLt; rw [Codec.runBytes_eq, Codec.length_zeros]; omega⟩
  have same : ∃ a, d.out = d.out ++ a ∧ a.length ≤ 255 := ⟨[], by simp, by simp⟩
  rcases decLocal_cases hu h with
    ⟨rfl, -⟩ | ⟨hi, -⟩ | ⟨hi, -⟩ | ⟨-, -, ⟨b, -, -, -, rfl⟩ | ⟨-, -, rfl⟩ | ⟨l, -, -, rfl⟩ | ⟨-, -, rfl⟩ | ⟨hi, -⟩ |
      ⟨l, -, -, rfl⟩ | ⟨hi, -⟩⟩
  · exact same
  · exact absurd hi hstart
  · exact absurd hi hreset
  · exact ⟨[b], rfl, by simp⟩
  · exact same
  · exact run l
  · exact same
  · exact absurd hi hend
  · exact run l
  · exact absurd hi htrunc

/-- An operation that answers the state with one encoder written leaves that encoder. -/
theorem eq_of_exec_setEnc {i : Instr} {s t : State} {k : Nat} {e e' f : Encoder} (h : exec i s = .next t)
    (hf : exec i s = .next (s.setEnc k f)) (he : s.encs[k]? = some e) (he' : t.encs[k]? = some e') : e' = f := by
  obtain rfl : s.setEnc k f = t := by simpa [hf] using h
  rw [State.setEnc_get he] at he'
  exact (Option.some.inj he').symm

/-- An operation that answers the state with one decoder written leaves that decoder. -/
theorem eq_of_exec_setDec {i : Instr} {s t : State} {k : Nat} {d d' f : Decoder} (h : exec i s = .next t)
    (hf : exec i s = .next (s.setDec k f)) (hd : s.decs[k]? = some d) (hd' : t.decs[k]? = some d') : d' = f := by
  obtain rfl : s.setDec k f = t := by simpa [hf] using h
  rw [State.setDec_get hd] at hd'
  exact (Option.some.inj hd').symm

/-- Settles O28: the registers after START, reset and the failing operations have an empty buffer, and no other operation
removes a byte. -/
theorem outputBytesAreOnlyAppended : Obligations.OutputBytesAreOnlyAppended := by
  refine ⟨fun i s t k e e' h he he' => ⟨?_, fun hstart hreset => getElem?_of_appended ?_⟩,
    fun i s t k d d' h hd hd' => ⟨?_, fun hstart hreset hend htrunc => getElem?_of_appended ?_⟩⟩
  · rintro (⟨rfl, hp⟩ | rfl)
    · rw [eq_of_exec_setEnc h (exec_eStart_of_ne_run he hp) he he', Encoder.started_out]
    · rw [eq_of_exec_setEnc h (exec_reset_enc he) he he', Encoder.reset_out]
  · rcases exec_next_at_enc h he he' with ⟨-, rfl⟩ | ⟨hu, hl⟩
    · exact ⟨[], by simp, by simp⟩
    · exact encLocal_appends hu hl hstart hreset
  · rintro (⟨rfl | rfl, hr⟩ | ⟨rfl, hp⟩ | rfl)
    · rw [(exec_dec_of_run rfl hr hd hd' h).1]; rfl
    · rw [(exec_dec_of_run rfl hr hd hd' h).1]; rfl
    · rw [eq_of_exec_setDec h (exec_dStart_of_ne_run hd hp) hd hd', Decoder.started_out]
    · rw [eq_of_exec_setDec h (exec_reset_dec hd) hd hd', Decoder.reset_out]
  · rcases exec_next_at_dec h hd hd' with ⟨-, rfl⟩ | ⟨hu, hl⟩
    · exact ⟨[], by simp, by simp⟩
    · exact decLocal_appends hu hl hstart hreset hend htrunc

/-! ### The phases (R170) -/

/-- The transitions an encoder's operation makes, each on its event. -/
theorem encLocal_phase {p : Params} {i : Instr} {k : Nat} {e e' : Encoder} (hu : i.unit = .enc k)
    (h : encLocal p i e = .ok e') :
    e'.phase = e.phase ∨ (i = .eStart k ∧ e.phase ≠ .run ∧ e'.phase = .run) ∨
    (i = .eEnd k ∧ e.phase = .run ∧ e'.phase = .done) ∨ (i = .reset (.enc k) ∧ e'.phase = .idle) := by
  rcases encLocal_cases hu h with
    ⟨rfl, -⟩ | ⟨hi, hne, rfl⟩ | ⟨hi, rfl⟩ | ⟨hr, -, ⟨-, rfl⟩ | ⟨b, -, -, rfl⟩ | ⟨hi, rfl⟩⟩
  · exact .inl rfl
  · exact .inr (.inl ⟨hi, hne, rfl⟩)
  · exact .inr (.inr (.inr ⟨hi, rfl⟩))
  · exact .inl e.zero_phase
  · exact .inl (e.nonZero_phase b)
  · exact .inr (.inr (.inl ⟨hi, hr, rfl⟩))

/-- The transitions a decoder's operation makes, each on its event. -/
theorem decLocal_phase {p : Params} {i : Instr} {k : Nat} {d d' : Decoder} (hu : i.unit = .dec k)
    (h : decLocal p i d = .ok d') :
    d'.phase = d.phase ∨ (i = .dStart k ∧ d.phase ≠ .run ∧ d'.phase = .run) ∨
    (i = .dEndOk k ∧ d.phase = .run ∧ d.pend = false ∧ d'.phase = .done) ∨
    (i = .dEndTrunc k ∧ d.phase = .run ∧ d.pend = true ∧ d'.phase = .fail) ∨
    (i = .trunc k ∧ d.phase = .run ∧ d.pend = false ∧ d'.phase = .fail) ∨
    (i = .reset (.dec k) ∧ d'.phase = .idle) := by
  rcases decLocal_cases hu h with
    ⟨rfl, -⟩ | ⟨hi, hne, rfl⟩ | ⟨hi, rfl⟩ | ⟨hr, -, ⟨b, -, -, -, rfl⟩ | ⟨-, -, rfl⟩ | ⟨l, -, -, rfl⟩ | ⟨hi, hp, rfl⟩ |
      ⟨hi, hp, rfl⟩ | ⟨l, -, -, rfl⟩ | ⟨hi, hp, rfl⟩⟩
  · exact .inl rfl
  · exact .inr (.inl ⟨hi, hne, rfl⟩)
  · exact .inr (.inr (.inr (.inr (.inr ⟨hi, rfl⟩))))
  · exact .inl rfl
  · exact .inl rfl
  · exact .inl rfl
  · exact .inr (.inr (.inl ⟨hi, hr, hp, rfl⟩))
  · exact .inr (.inr (.inr (.inl ⟨hi, hr, hp, rfl⟩)))
  · exact .inl rfl
  · exact .inr (.inr (.inr (.inr (.inl ⟨hi, hr, hp, rfl⟩))))

theorem phaseMove_self (p : Phase) : phaseMove p p = true := by
  cases p <;> rfl

theorem phaseMove_idle (p : Phase) : phaseMove p .idle = true := rfl

theorem phaseMove_run (p : Phase) : phaseMove p .run = true := by
  cases p <;> rfl

/-- An encoder's operation moves by the table, and never into FAIL. -/
theorem encLocal_phaseMove {p : Params} {i : Instr} {k : Nat} {e e' : Encoder} (hu : i.unit = .enc k)
    (h : encLocal p i e = .ok e') : phaseMove e.phase e'.phase = true ∧ (e'.phase = .fail → e.phase = .fail) := by
  rcases encLocal_phase hu h with hp | ⟨-, -, hp⟩ | ⟨-, hr, hp⟩ | ⟨-, hp⟩
  · rw [hp]; exact ⟨phaseMove_self _, id⟩
  · rw [hp]; exact ⟨phaseMove_run _, nofun⟩
  · rw [hp, hr]; exact ⟨rfl, nofun⟩
  · rw [hp]; exact ⟨phaseMove_idle _, nofun⟩

theorem decLocal_phaseMove {p : Params} {i : Instr} {k : Nat} {d d' : Decoder} (hu : i.unit = .dec k)
    (h : decLocal p i d = .ok d') : phaseMove d.phase d'.phase = true := by
  rcases decLocal_phase hu h with hp | ⟨-, -, hp⟩ | ⟨-, hr, -, hp⟩ | ⟨-, hr, -, hp⟩ | ⟨-, hr, -, hp⟩ | ⟨-, hp⟩
  · rw [hp]; exact phaseMove_self _
  · rw [hp]; exact phaseMove_run _
  · rw [hp, hr]; rfl
  · rw [hp, hr]; rfl
  · rw [hp, hr]; rfl
  · rw [hp]; rfl

/-- Settles O31: an operation of another unit, a drain and a waiting input leave the phase, and the unit's own operations
move it as `encLocal_phase` and `decLocal_phase` say. -/
theorem phasesMoveOnlyAsTheTransitionTable : Obligations.PhasesMoveOnlyAsTheTransitionTable := by
  refine ⟨fun i s t k e e' h he he' => ?_, fun i s t k d d' h hd hd' => ?_,
    fun s t h => ⟨fun k e e' he he' => ?_, fun k d d' hd hd' => ?_⟩⟩
  · rcases exec_next_at_enc h he he' with ⟨-, rfl⟩ | ⟨hu, hl⟩
    · exact .inl rfl
    · exact encLocal_phase hu hl
  · rcases exec_next_at_dec h hd hd' with ⟨-, rfl⟩ | ⟨hu, hl⟩
    · exact .inl rfl
    · exact decLocal_phase hu hl
  · rcases step_at_enc h he he' with rfl | ⟨w, -, -, rfl⟩ | ⟨-, -, i, -, -, -, hu, hl⟩
    · exact ⟨phaseMove_self _, id⟩
    · rw [e.drain_phase]; exact ⟨phaseMove_self _, id⟩
    · exact encLocal_phaseMove hu hl
  · rcases step_at_dec h hd hd' with rfl | ⟨w, -, -, rfl⟩ | ⟨-, -, i, -, -, -, hu, hl⟩
    · exact phaseMove_self _
    · rw [d.drain_phase]; exact phaseMove_self _
    · exact decLocal_phaseMove hu hl

/-- Settles O30: of the transitions of a decoder's operations only two end in FAIL, and none of an encoder's. -/
theorem failIsEnteredOnlyByAPendingMarkerAtEnd : Obligations.FailIsEnteredOnlyByAPendingMarkerAtEnd := by
  refine ⟨fun i s t k d d' h hd hd' hne hfail => ?_, fun i s t k e e' h he he' hfail => ?_⟩
  · rcases exec_next_at_dec h hd hd' with ⟨-, rfl⟩ | ⟨hu, hl⟩
    · exact absurd hfail hne
    · rcases decLocal_phase hu hl with hp | ⟨-, -, hp⟩ | ⟨-, -, -, hp⟩ | ⟨hi, hr, hp, -⟩ | ⟨hi, hr, hp, -⟩ | ⟨-, hp⟩
      · exact absurd (hp.symm.trans hfail) hne
      · exact absurd (hp.symm.trans hfail) nofun
      · exact absurd (hp.symm.trans hfail) nofun
      · exact ⟨hr, .inl ⟨hi, hp⟩⟩
      · exact ⟨hr, .inr ⟨hi, hp⟩⟩
      · exact absurd (hp.symm.trans hfail) nofun
  · rcases exec_next_at_enc h he he' with ⟨-, rfl⟩ | ⟨hu, hl⟩
    · exact hfail
    · exact (encLocal_phaseMove hu hl).2 hfail

end Sys2Proof.Machine
end

