-- ==== Sys2Proof/Proofs/UnitsApart.lean ====
section
/-! SUPPORT. An operation and a step over an input read and write one unit only; therefore those of different units commute
(R11, R176), and the statements about it. -/

namespace Sys2Proof.Machine

/-! ### The registers of one unit -/

/-- The registers of an encoder or of a decoder. -/
inductive Registers where
  | enc (e : Encoder)
  | dec (d : Decoder)

/-- The registers of unit `u`, if it exists. -/
def State.registers (s : State) : UnitId → Option Registers
  | .enc k => (s.encs[k]?).map .enc
  | .dec k => (s.decs[k]?).map .dec

/-- The registers of unit `u` become `r`, if they are of its kind. -/
def State.write (u : UnitId) (r : Registers) (s : State) : State :=
  match u, r with
  | .enc k, .enc e => s.setEnc k e
  | .dec k, .dec d => s.setDec k d
  | _, _ => s

section
variable (u : UnitId) (r : Registers) (s : State)

@[simp] theorem State.write_cfg : (s.write u r).cfg = s.cfg := by cases u <;> cases r <;> rfl
@[simp] theorem State.write_inputs : (s.write u r).inputs = s.inputs := by cases u <;> cases r <;> rfl
@[simp] theorem State.write_waiting : (s.write u r).waiting = s.waiting := by cases u <;> cases r <;> rfl

@[simp] theorem State.advance_registers (o : Option Token) (l : List Input) :
    (s.advance u o l).registers = s.registers := by
  funext v; cases v <;> simp [State.registers]

theorem State.write_setInputs (l : List Input) : (s.write u r).setInputs l = (s.setInputs l).write u r := by
  cases u <;> cases r <;> rfl

end

theorem State.write_registers_ne {u v : UnitId} (h : u ≠ v) (r : Registers) (s : State) :
    (s.write u r).registers v = s.registers v := by
  cases u <;> cases v <;> cases r <;>
    simp_all [State.registers, State.write, State.setEnc, State.setDec, List.getElem?_set_ne]

/-- Writes of different units commute. -/
theorem State.write_comm {u v : UnitId} (h : u ≠ v) (r r' : Registers) (s : State) :
    (s.write u r).write v r' = (s.write v r').write u r := by
  cases u with
  | enc j =>
    cases v with
    | enc k =>
      have hjk : j ≠ k := fun hk => h (congrArg UnitId.enc hk)
      cases r <;> cases r' <;> simp [State.write, State.setEnc, List.set_comm _ _ hjk]
    | dec k => cases r <;> cases r' <;> rfl
  | dec j =>
    cases v with
    | enc k => cases r <;> cases r' <;> rfl
    | dec k =>
      have hjk : j ≠ k := fun hk => h (congrArg UnitId.dec hk)
      cases r <;> cases r' <;> simp [State.write, State.setDec, List.set_comm _ _ hjk]

theorem State.write_advance (u v : UnitId) (r : Registers) (o : Option Token) (l : List Input) (s : State) :
    (s.write u r).advance v o l = (s.advance v o l).write u r := by
  cases u <;> cases v <;> cases r <;> rfl

/-- The records of the waiting tokens of different units commute; the inputs are those of the last one. -/
theorem State.advance_comm {u v : UnitId} (h : u ≠ v) (o o' : Option Token) (l l' m : List Input) (s : State) :
    (s.advance u o l).advance v o' m = (s.advance v o' l').advance u o m := by
  cases u with
  | enc j =>
    cases v with
    | enc k =>
      have hjk : j ≠ k := fun hk => h (congrArg UnitId.enc hk)
      simp [State.advance, State.setWaiting, State.setInputs, List.set_comm _ _ hjk]
    | dec k => rfl
  | dec j =>
    cases v with
    | enc k => rfl
    | dec k =>
      have hjk : j ≠ k := fun hk => h (congrArg UnitId.dec hk)
      simp [State.advance, State.setWaiting, State.setInputs, List.set_comm _ _ hjk]

/-! ### An operation reads and writes its own unit (R176) -/

/-- The two states have the same parameters and the same registers of unit `u`. -/
def State.AgreesAt (u : UnitId) (s s' : State) : Prop := s'.cfg = s.cfg ∧ s'.registers u = s.registers u

theorem State.agreesAt_enc {k : Nat} {s s' : State} :
    s.AgreesAt (.enc k) s' ↔ s'.cfg = s.cfg ∧ s'.encs[k]? = s.encs[k]? := by
  have hinj : Function.Injective Registers.enc := fun _ _ => Registers.enc.inj
  rw [State.AgreesAt, State.registers, State.registers, (Option.map_injective hinj).eq_iff]

theorem State.agreesAt_dec {k : Nat} {s s' : State} :
    s.AgreesAt (.dec k) s' ↔ s'.cfg = s.cfg ∧ s'.decs[k]? = s.decs[k]? := by
  have hinj : Function.Injective Registers.dec := fun _ _ => Registers.dec.inj
  rw [State.AgreesAt, State.registers, State.registers, (Option.map_injective hinj).eq_iff]

theorem State.AgreesAt.refl (u : UnitId) (s : State) : s.AgreesAt u s := ⟨rfl, rfl⟩

/-- A write elsewhere is not felt. -/
theorem State.AgreesAt.write {u v : UnitId} (h : u ≠ v) (r : Registers) (s : State) : s.AgreesAt v (s.write u r) :=
  ⟨State.write_cfg u r s, State.write_registers_ne h r s⟩

/-- An operation writes the registers of its unit, the same in every state that agrees there. -/
theorem exec_writes {i : Instr} {s t : State} (h : exec i s = .next t) :
    ∃ r, ∀ s', s.AgreesAt i.unit s' → exec i s' = .next (s'.write i.unit r) := by
  cases hu : i.unit with
  | enc k =>
    obtain ⟨e, e', he, hl, -⟩ := exec_next_enc hu h
    refine ⟨.enc e', fun s' ha => ?_⟩
    obtain ⟨hcfg, hget⟩ := State.agreesAt_enc.1 ha
    rw [exec_enc hu (hget.trans he), hcfg, hl]
    rfl
  | dec k =>
    obtain ⟨d, d', hd, hl, -⟩ := exec_next_dec hu h
    refine ⟨.dec d', fun s' ha => ?_⟩
    obtain ⟨hcfg, hget⟩ := State.agreesAt_dec.1 ha
    rw [exec_dec hu (hget.trans hd), hcfg, hl]
    rfl

/-- Settles O25: an operation only writes the registers of its unit. -/
theorem onlyTheOperationsUnitChanges : Obligations.OnlyTheOperationsUnitChanges := by
  intro i s t h
  cases hu : i.unit with
  | enc k =>
    obtain ⟨e, e', -, -, rfl⟩ := exec_next_enc hu h
    exact ⟨rfl, rfl, rfl, rfl, by simp, rfl, fun j hj => State.setEnc_get_ne fun hk => hj (by rw [hk]), fun _ _ => rfl⟩
  | dec k =>
    obtain ⟨d, d', -, -, rfl⟩ := exec_next_dec hu h
    exact ⟨rfl, rfl, rfl, rfl, rfl, by simp, fun _ _ => rfl, fun j hj => State.setDec_get_ne fun hk => hj (by rw [hk])⟩

/-- Settles O37: both states get the same registers written. -/
theorem operationsFeelOnlyTheirOwnUnit : Obligations.OperationsFeelOnlyTheirOwnUnit := by
  intro i s s' t hcfg h
  refine ⟨fun k hu hget => ?_, fun k hu hget => ?_⟩
  · obtain ⟨e, e', he, hl, rfl⟩ := exec_next_enc hu h
    have he' := hget.symm.trans he
    refine ⟨s'.setEnc k e', ?_, ?_⟩
    · rw [exec_enc hu he', ← hcfg, hl]; rfl
    · rw [State.setEnc_get he, State.setEnc_get he']
  · obtain ⟨d, d', hd, hl, rfl⟩ := exec_next_dec hu h
    have hd' := hget.symm.trans hd
    refine ⟨s'.setDec k d', ?_, ?_⟩
    · rw [exec_dec hu hd', ← hcfg, hl]; rfl
    · rw [State.setDec_get hd, State.setDec_get hd']

/-! ### A step over an input reads and writes the input's unit -/

/-- An input of unit `u` is over: its registers become `r`, `o` waits there and `l` is still to come. -/
def State.finishInput (u : UnitId) (r : Registers) (o : Option Token) (l : List Input) (s : State) : State :=
  (s.advance u o l).write u r

@[simp] theorem State.finishInput_inputs (u : UnitId) (r : Registers) (o : Option Token) (l : List Input) (s : State) :
    (s.finishInput u r o l).inputs = l := by
  rw [State.finishInput, State.write_inputs, State.advance_inputs]

theorem State.finishInput_setInputs (u : UnitId) (r : Registers) (o : Option Token) (l m : List Input) (s : State) :
    (s.finishInput u r o l).setInputs m = s.finishInput u r o m := by
  rw [State.finishInput, State.write_setInputs]
  rfl

/-- Inputs of different units may be finished in either order. -/
theorem State.finishInput_comm {u v : UnitId} (h : u ≠ v) (r r' : Registers) (o o' : Option Token) (l l' m : List Input)
    (s : State) :
    (s.finishInput u r o l).finishInput v r' o' m = (s.finishInput v r' o' l').finishInput u r o m := by
  simp only [State.finishInput, State.write_advance]
  rw [State.write_comm h, State.advance_comm h o o' l l' m]

/-- A step over an input finishes it, the same in every state that agrees at its unit and has the same token waiting there. -/
theorem step_finishesInput {s t : State} {x : Input} {l : List Input} (h : step (s.setInputs (x :: l)) = .next t) :
    ∃ r o left, ∀ (s' : State) (m : List Input), s.AgreesAt x.unit s' → s'.waiting x.unit = s.waiting x.unit →
      step (s'.setInputs (x :: m)) = .next (s'.finishInput x.unit r o (left ++ m)) := by
  cases hu : x.unit with
  | enc k =>
    obtain ⟨e, o, left, hstep⟩ := step_over_enc hu h
    refine ⟨.enc e, o, left, fun s' m ha hw => ?_⟩
    obtain ⟨hcfg, hget⟩ := State.agreesAt_enc.1 ha
    exact hstep s' m hcfg hget hw
  | dec k =>
    obtain ⟨d, o, left, hstep⟩ := step_over_dec hu h
    refine ⟨.dec d, o, left, fun s' m ha hw => ?_⟩
    obtain ⟨hcfg, hget⟩ := State.agreesAt_dec.1 ha
    exact hstep s' m hcfg hget hw

/-- A finished input of another unit is not felt. -/
theorem State.AgreesAt.finishInput {u v : UnitId} (h : u ≠ v) (r : Registers) (o : Option Token) (l : List Input)
    (s : State) : s.AgreesAt v (s.finishInput u r o l) ∧ (s.finishInput u r o l).waiting v = s.waiting v := by
  refine ⟨⟨by simp [State.finishInput], ?_⟩, ?_⟩
  · rw [State.finishInput, State.write_registers_ne h, State.advance_registers]
  · rw [State.finishInput, State.write_waiting, State.advance_waiting_ne h]

/-- Nothing of an edge is left of the input once a step has been made over it. -/
theorem step_edge_cases {s t : State} {u : UnitId} {w : Wires} {rest : List Input} {c : Ctx}
    (hin : s.inputs = .edge u w :: rest) (hc : s.ctx u = some c) (h : step s = .next t) :
    keepsOffer (s.waiting u) (.edge u w) = true ∧
    ((∃ q, decode c (.edge u w) = .error q ∧ drainEdge u w (s.advance u (Input.edge u w).offer rest) = .next t) ∨
      ∃ i, decode c (.edge u w) = .ok (i, []) ∧ exec i (s.advance u (waitingAfter i (.edge u w)) rest) = .next t) := by
  cases hk : keepsOffer (s.waiting u) (.edge u w) with
  | false => simp [step_brokenOffer hin hc hk] at h
  | true =>
    refine ⟨rfl, ?_⟩
    cases hd : decodeEdge c u w with
    | error q =>
      have hdec : decode c (.edge u w) = .error q := by simp [decode, hd, Except.map]
      exact .inl ⟨q, hdec, by rwa [step_edge hin hc hk hdec] at h⟩
    | ok i =>
      have hdec : decode c (.edge u w) = .ok (i, []) := by simp [decode, hd, Except.map]
      exact .inr ⟨i, hdec, by rwa [step_op hin hc hk hdec] at h⟩

/-- An operation takes no input. -/
theorem exec_inputs {i : Instr} {s t : State} (h : exec i s = .next t) : t.inputs = s.inputs :=
  (onlyTheOperationsUnitChanges i s t h).2.1

theorem step_edge_inputs {s t : State} {u : UnitId} {w : Wires} {rest : List Input}
    (hin : s.inputs = .edge u w :: rest) (h : step s = .next t) : t.inputs = rest := by
  cases hc : s.ctx u with
  | none => simp [step, fetch, runFetched, hin, Input.unit, hc] at h
  | some c =>
    obtain ⟨-, ⟨q, -, hdrain⟩ | ⟨i, -, hexec⟩⟩ := step_edge_cases hin hc h
    · rcases drainEdge_next hdrain with ⟨k, e, -, -, rfl⟩ | ⟨k, d, -, -, rfl⟩ <;> simp
    · simpa using exec_inputs hexec

/-! ### The statement -/

/-- Operations of different units commute. -/
theorem exec_comm {i j : Instr} {s s₁ s₂ : State} (hu : i.unit ≠ j.unit) (hi : exec i s = .next s₁)
    (hj : exec j s = .next s₂) : ∃ t, exec j s₁ = .next t ∧ exec i s₂ = .next t := by
  obtain ⟨r, hr⟩ := exec_writes hi
  obtain ⟨r', hr'⟩ := exec_writes hj
  obtain rfl : s.write i.unit r = s₁ := by simpa [hr s (.refl ..)] using hi
  obtain rfl : s.write j.unit r' = s₂ := by simpa [hr' s (.refl ..)] using hj
  exact ⟨_, hr' _ (.write hu r s), by rw [hr _ (.write hu.symm r' s), State.write_comm hu]⟩

/-- Steps over inputs of different units commute, what is left of each input aside. -/
theorem step_comm {x y : Input} {s s₁ s₂ : State} (hu : x.unit ≠ y.unit) (hx : step (s.setInputs [x]) = .next s₁)
    (hy : step (s.setInputs [y]) = .next s₂) :
    ∃ t : State, step (s₁.setInputs [y]) = .next (t.setInputs s₂.inputs) ∧
      step (s₂.setInputs [x]) = .next (t.setInputs s₁.inputs) := by
  obtain ⟨r, o, left, hr⟩ := step_finishesInput hx
  obtain ⟨r', o', left', hr'⟩ := step_finishesInput hy
  obtain rfl : s.finishInput x.unit r o (left ++ []) = s₁ := by simpa [hr s [] (.refl ..) rfl] using hx
  obtain rfl : s.finishInput y.unit r' o' (left' ++ []) = s₂ := by simpa [hr' s [] (.refl ..) rfl] using hy
  obtain ⟨ha, hw⟩ := State.AgreesAt.finishInput hu r o (left ++ []) s
  obtain ⟨ha', hw'⟩ := State.AgreesAt.finishInput hu.symm r' o' (left' ++ []) s
  refine ⟨(s.finishInput x.unit r o (left ++ [])).finishInput y.unit r' o' (left' ++ []), ?_, ?_⟩
  · rw [hr' _ _ ha hw, State.finishInput_inputs, State.finishInput_setInputs]
  · rw [hr _ _ ha' hw', State.finishInput_inputs, State.finishInput_setInputs,
      State.finishInput_comm hu r r' o o' (left ++ []) (left' ++ [])]

/-- Two edges of different units may stand in either order. -/
theorem step_edges_comm {u v : UnitId} {w w' : Wires} {rest : List Input} {s s₁ s₂ : State} (hu : u ≠ v)
    (hx : step (s.setInputs (.edge u w :: .edge v w' :: rest)) = .next s₁)
    (hy : step (s.setInputs (.edge v w' :: .edge u w :: rest)) = .next s₂) :
    ∃ t, step s₁ = .next t ∧ step s₂ = .next t ∧ t.inputs = rest := by
  have hin := step_edge_inputs (State.setInputs_inputs ..) hx
  have hin' := step_edge_inputs (State.setInputs_inputs ..) hy
  obtain ⟨r, o, left, hr⟩ := step_finishesInput hx
  obtain ⟨r', o', left', hr'⟩ := step_finishesInput hy
  obtain rfl : s.finishInput u r o (left ++ .edge v w' :: rest) = s₁ := by
    simpa [Input.unit, hr s (.edge v w' :: rest) (.refl ..) rfl] using hx
  obtain rfl : s.finishInput v r' o' (left' ++ .edge u w :: rest) = s₂ := by
    simpa [Input.unit, hr' s (.edge u w :: rest) (.refl ..) rfl] using hy
  obtain rfl : left = [] := by simpa using hin
  obtain rfl : left' = [] := by simpa using hin'
  obtain ⟨ha, hw⟩ := State.AgreesAt.finishInput hu r o (.edge v w' :: rest) s
  obtain ⟨ha', hw'⟩ := State.AgreesAt.finishInput hu.symm r' o' (.edge u w :: rest) s
  have hstep := hr' _ rest ha hw
  have hstep' := hr _ rest ha' hw'
  rw [State.finishInput_setInputs] at hstep hstep'
  exact ⟨_, hstep, hstep'.trans (congrArg _ (State.finishInput_comm hu r r' o o' _ _ rest s).symm),
    State.finishInput_inputs ..⟩

/-- Settles O36: each operation or step writes its own unit only, and writes of different units commute. -/
theorem stepsOfDifferentUnitsCommute : Obligations.StepsOfDifferentUnitsCommute :=
  ⟨fun _ _ _ _ _ => exec_comm, fun _ _ _ _ _ => step_comm, fun _ _ _ _ _ _ _ _ => step_edges_comm⟩

end Sys2Proof.Machine
end

