-- ==== Sys2Proof/Proofs/Refusals.lean ====
section
/-! SUPPORT. When a capacity is exceeded and what is then refused (R9, R58), why a step never meets another refusal of `exec`,
and the statements about it. -/

namespace Sys2Proof.Machine

/-! ### Which capacity is exceeded (R9; log 5) -/

theorem withinCap_false_iff {cap : Option Nat} {n : Nat} : withinCap cap n = false ↔ ∃ c, cap = some c ∧ c < n := by
  cases cap <;> simp [withinCap]

theorem excess_lenBits_iff {p : Params} {pos len : Nat} :
    Params.excess p pos len = some .lenBitsExceeded ↔ 2 ^ p.lenBits ≤ pos := by
  by_cases h : pos < 2 ^ p.lenBits
  · cases hi : withinCap p.inCap pos <;> cases ho : withinCap p.outCap len <;> simp [Params.excess, h, hi, ho]
  · simp [Params.excess, h, Nat.le_of_not_lt h]

theorem excess_inCap_iff {p : Params} {pos len : Nat} :
    Params.excess p pos len = some .inCapExceeded ↔ pos < 2 ^ p.lenBits ∧ withinCap p.inCap pos = false := by
  by_cases h : pos < 2 ^ p.lenBits
  · cases hi : withinCap p.inCap pos <;> cases ho : withinCap p.outCap len <;> simp [Params.excess, h, hi, ho]
  · simp [Params.excess, h]

theorem excess_outCap_iff {p : Params} {pos len : Nat} :
    Params.excess p pos len = some .outCapExceeded ↔
      pos < 2 ^ p.lenBits ∧ withinCap p.inCap pos = true ∧ withinCap p.outCap len = false := by
  by_cases h : pos < 2 ^ p.lenBits
  · cases hi : withinCap p.inCap pos <;> cases ho : withinCap p.outCap len <;> simp [Params.excess, h, hi, ho]
  · simp [Params.excess, h]

/-! ### The bytes an encoder's operation writes, counted -/

theorem Encoder.length_zero_out (e : Encoder) :
    e.zero.out.length = e.out.length + if e.runLen = 0xff#8 then 2 else 0 := by
  rw [Encoder.zero_out]; split <;> simp [markerBytes]

theorem Encoder.length_nonZero_out (b : Byte) (e : Encoder) :
    (e.nonZero b).out.length = e.out.length + if e.runLen = 0x00#8 then 1 else 3 := by
  rw [Encoder.nonZero_out, List.length_append, Codec.length_flush]; split <;> rfl

theorem Encoder.length_endInput_out (e : Encoder) :
    e.endInput.out.length = e.out.length + if e.runLen = 0x00#8 then 0 else 2 := by
  rw [Encoder.endInput_out, Codec.length_flush]

/-! ### The operations in RUN, beyond a capacity -/

theorem encTokenLocal_exceeds {p : Params} {sel : Encoder → Bool} {f : Encoder → Encoder} {e : Encoder} {r : Refusal}
    (hr : e.phase = .run) (hs : sel e = true) (hx : Params.excess p (f e).pos (f e).out.length = some r) :
    encTokenLocal p sel f e = .error r := by
  simp [encTokenLocal, hr, hs, hx]

theorem decTokenLocal_exceeds {p : Params} {sel : Decoder → Bool} {f : Decoder → Decoder} {d : Decoder} {r : Refusal}
    (hr : d.phase = .run) (hs : sel d = true) (hx : Params.excess p (f d).pos (f d).out.length = some r) :
    decTokenLocal p sel f d = .error r := by
  simp [decTokenLocal, hr, hs, hx]

theorem exec_enc_refused {i : Instr} {k : Nat} {s : State} {e : Encoder} {r : Refusal} (hu : i.unit = .enc k)
    (he : s.encs[k]? = some e) (hl : encLocal s.cfg i e = .error r) : exec i s = .refused r := by
  rw [exec_enc hu he, hl, liftEnc]

theorem exec_dec_refused {i : Instr} {k : Nat} {s : State} {d : Decoder} {r : Refusal} (hu : i.unit = .dec k)
    (hd : s.decs[k]? = some d) (hl : decLocal s.cfg i d = .error r) : exec i s = .refused r := by
  rw [exec_dec hu hd, hl, liftDec]

section
variable {s : State} {k : Nat} {r : Refusal}

theorem exec_eZero_refused {e : Encoder} (he : s.encs[k]? = some e) (hr : e.phase = .run)
    (hx : Params.excess s.cfg (e.pos + 1) (e.out.length + if e.runLen = 0xff#8 then 2 else 0) = some r) :
    exec (.eZero k) s = .refused r :=
  exec_enc_refused rfl he (encTokenLocal_exceeds (sel := fun _ => true) hr rfl
    (by rwa [Encoder.zero_pos, Encoder.length_zero_out]))

theorem exec_eNz_refused {e : Encoder} {b : Byte} (he : s.encs[k]? = some e) (hr : e.phase = .run) (hb : b ≠ 0x00#8)
    (hx : Params.excess s.cfg (e.pos + 1) (e.out.length + if e.runLen = 0x00#8 then 1 else 3) = some r) :
    exec (.eNz k b) s = .refused r :=
  exec_enc_refused rfl he (encTokenLocal_exceeds (sel := fun _ => b != 0x00#8) hr (bne_iff_ne.2 hb)
    (by rwa [Encoder.nonZero_pos, Encoder.length_nonZero_out]))

theorem exec_eEnd_refused {e : Encoder} (he : s.encs[k]? = some e) (hr : e.phase = .run)
    (hx : Params.excess s.cfg e.pos (e.out.length + if e.runLen = 0x00#8 then 0 else 2) = some r) :
    exec (.eEnd k) s = .refused r :=
  exec_enc_refused rfl he (encTokenLocal_exceeds (sel := fun _ => true) hr rfl
    (by rwa [Encoder.endInput_pos, Encoder.length_endInput_out]))

theorem exec_dLit_refused {d : Decoder} {b : Byte} (hd : s.decs[k]? = some d) (hr : d.phase = .run)
    (hp : d.pend = false) (hb : b ≠ 0x00#8) (hx : Params.excess s.cfg (d.pos + 1) (d.out.length + 1) = some r) :
    exec (.dLit k b) s = .refused r :=
  exec_dec_refused rfl hd (decTokenLocal_exceeds (sel := fun d => !d.pend && b != 0x00#8) hr (by simp [hp, hb])
    (by simpa using hx))

theorem exec_dMark_refused {d : Decoder} (hd : s.decs[k]? = some d) (hr : d.phase = .run) (hp : d.pend = false)
    (hx : Params.excess s.cfg (d.pos + 1) d.out.length = some r) : exec (.dMark k) s = .refused r :=
  exec_dec_refused rfl hd (decTokenLocal_exceeds (sel := fun d => !d.pend) hr (by simp [hp]) hx)

theorem exec_dLen_refused {d : Decoder} {l : Byte} (hd : s.decs[k]? = some d) (hr : d.phase = .run)
    (hp : d.pend = true) (hx : Params.excess s.cfg (d.pos + 1) (d.out.length + l.toNat) = some r) :
    exec (.dLen k l) s = .refused r :=
  exec_dec_refused rfl hd (decTokenLocal_exceeds hr hp (by simpa [Codec.runBytes_eq] using hx))

theorem exec_dEndOk_refused {d : Decoder} (hd : s.decs[k]? = some d) (hr : d.phase = .run) (hp : d.pend = false)
    (hx : Params.excess s.cfg d.pos d.out.length = some r) : exec (.dEndOk k) s = .refused r :=
  exec_dec_refused rfl hd (decTokenLocal_exceeds (sel := fun d => !d.pend) hr (by simp [hp]) hx)

theorem exec_dEndTrunc_refused {d : Decoder} (hd : s.decs[k]? = some d) (hr : d.phase = .run) (hp : d.pend = true)
    (hx : Params.excess s.cfg d.pos 0 = some r) : exec (.dEndTrunc k) s = .refused r :=
  exec_dec_refused rfl hd (decTokenLocal_exceeds (sel := Decoder.pend) hr hp hx)

/-- A marker is refused where its marker byte is. -/
theorem exec_run_refused_of_dMark (h : exec (.dMark k) s = .refused r) (l : Byte) : exec (.run k l) s = .refused r := by
  rw [exec_run_eq, h, andThen]

theorem exec_trunc_refused_of_dMark (h : exec (.dMark k) s = .refused r) : exec (.trunc k) s = .refused r := by
  rw [exec_trunc_eq, h, andThen]

/-- A marker is refused where its length byte is. -/
theorem exec_run_refused {d : Decoder} {l : Byte} (hd : s.decs[k]? = some d) (hr : d.phase = .run) (hp : d.pend = false)
    (hmark : Params.excess s.cfg (d.pos + 1) d.out.length = none)
    (hx : Params.excess s.cfg (d.pos + 2) (d.out.length + l.toNat) = some r) : exec (.run k l) s = .refused r := by
  rw [exec_run_eq, exec_dMark_of_run hd hr hp hmark]
  exact exec_dLen_refused (State.setDec_get (d' := d.mark) hd) hr rfl hx

end

/-- Settles O24: operation by operation, and then the names by the definition of `excess`. -/
theorem overCapacityIsRefused : Obligations.OverCapacityIsRefused := by
  refine ⟨fun s k e r he hr => ⟨exec_eZero_refused he hr, fun b => exec_eNz_refused he hr, exec_eEnd_refused he hr⟩,
    fun s k d r hd hr hp => ⟨fun b hb hx => ?_, fun hx => ?_, fun l hmark hx => ?_, exec_dEndOk_refused hd hr hp⟩,
    fun s k d r hd hr hp => ⟨fun l => exec_dLen_refused hd hr hp, exec_dEndTrunc_refused hd hr hp⟩,
    fun p pos len => ⟨?_, excess_lenBits_iff, ?_, ?_⟩⟩
  · have h := exec_dLit_refused hd hr hp hb hx
    exact ⟨h, h⟩
  · have h := exec_dMark_refused hd hr hp hx
    exact ⟨h, exec_run_refused_of_dMark h, exec_run_refused_of_dMark h 0x00#8, exec_trunc_refused_of_dMark h⟩
  · have h := exec_run_refused hd hr hp hmark hx
    exact ⟨h, fun hl => by rw [exec_runZ_eq, ← hl, h]⟩
  · rw [excess_none_iff, withinCap_iff, withinCap_iff]
  · rw [excess_inCap_iff, withinCap_false_iff]
  · rw [excess_outCap_iff, withinCap_iff, withinCap_false_iff]

/-! ### A selected operation answers, or exceeds a capacity -/

/-- The effect is a next state, or a refusal under the name of an exceeded parameter. -/
def AnswersOrExceeds {α : Type} (p : Params) (o : Except Refusal α) : Prop :=
  (∃ x, o = .ok x) ∨ ∃ r pos len, o = .error r ∧ Params.excess p pos len = some r

theorem encTokenLocal_answersOrExceeds {p : Params} {sel : Encoder → Bool} (f : Encoder → Encoder) {e : Encoder}
    (hr : e.phase = .run) (hs : sel e = true) : AnswersOrExceeds p (encTokenLocal p sel f e) := by
  cases hx : Params.excess p (f e).pos (f e).out.length with
  | none => exact .inl ⟨_, encTokenLocal_run hr hs hx⟩
  | some r => exact .inr ⟨r, _, _, encTokenLocal_exceeds hr hs hx, hx⟩

theorem decTokenLocal_answersOrExceeds {p : Params} {sel : Decoder → Bool} (f : Decoder → Decoder) {d : Decoder}
    (hr : d.phase = .run) (hs : sel d = true) : AnswersOrExceeds p (decTokenLocal p sel f d) := by
  cases hx : Params.excess p (f d).pos (f d).out.length with
  | none => exact .inl ⟨_, decTokenLocal_run hr hs hx⟩
  | some r => exact .inr ⟨r, _, _, decTokenLocal_exceeds hr hs hx, hx⟩

/-- D.MARK, after which an operation that asks for a pending marker is selected. -/
theorem thenLocal_mark_answersOrExceeds {p : Params} (f : Decoder → Decoder) {d : Decoder} (hr : d.phase = .run)
    (hp : d.pend = false) : AnswersOrExceeds p (thenLocal (decTokenLocal p (fun d => !d.pend) Decoder.mark d)
      (decTokenLocal p (fun d => d.pend) f)) := by
  have hs : (!d.pend) = true := by rw [hp]; rfl
  cases hx : Params.excess p d.mark.pos d.mark.out.length with
  | none =>
    rw [decTokenLocal_run (sel := fun d => !d.pend) hr hs hx]
    exact decTokenLocal_answersOrExceeds f (d := d.mark) hr rfl
  | some r =>
    rw [decTokenLocal_exceeds (sel := fun d => !d.pend) hr hs hx]
    exact .inr ⟨r, _, _, rfl, hx⟩

/-- The operation a token selects in an encoder in RUN. -/
theorem encLocal_selectToken {p : Params} {k : Nat} {pend : Bool} {e : Encoder} (hr : e.phase = .run) (t : Token) :
    AnswersOrExceeds p (encLocal p (selectToken (.enc k) pend t) e) := by
  cases t with
  | endOfInput => exact encTokenLocal_answersOrExceeds (sel := fun _ => true) _ hr rfl
  | byte b =>
    by_cases hb : b = 0x00#8
    · rw [selectToken, if_pos hb]
      exact encTokenLocal_answersOrExceeds (sel := fun _ => true) _ hr rfl
    · rw [selectToken, if_neg hb]
      exact encTokenLocal_answersOrExceeds (sel := fun _ => b != 0x00#8) _ hr (bne_iff_ne.2 hb)

/-- The operation a token selects in a decoder in RUN, with its `pend`. -/
theorem decLocal_selectToken {p : Params} {k : Nat} {d : Decoder} (hr : d.phase = .run) (t : Token) :
    AnswersOrExceeds p (decLocal p (selectToken (.dec k) d.pend t) d) := by
  cases hp : d.pend with
  | true =>
    cases t with
    | endOfInput => exact decTokenLocal_answersOrExceeds (sel := fun d => d.pend) _ hr hp
    | byte b => exact decTokenLocal_answersOrExceeds (sel := fun d => d.pend) _ hr hp
  | false =>
    have hs : (!d.pend) = true := by rw [hp]; rfl
    cases t with
    | endOfInput => exact decTokenLocal_answersOrExceeds (sel := fun d => !d.pend) _ hr hs
    | byte b =>
      by_cases hb : b = 0x00#8
      · simp only [selectToken, Bool.false_eq_true, if_false, if_pos hb]
        exact decTokenLocal_answersOrExceeds (sel := fun d => !d.pend) _ hr hs
      · simp only [selectToken, Bool.false_eq_true, if_false, if_neg hb]
        exact decTokenLocal_answersOrExceeds (sel := fun d => !d.pend && b != 0x00#8) _ hr (by simp [hp, hb])

/-- The symbols the greedy parse reads (R85). -/
theorem decodeSymbol_cases {k : Nat} {bs t : Bytes} {i : Instr} (h : decodeSymbol k bs = .ok (i, t)) :
    (∃ b, b ≠ 0x00#8 ∧ i = .lit k b) ∨ (∃ l, i = .run k l) ∨ i = .runZ k ∨ i = .trunc k := by
  match bs with
  | [] => simp [decodeSymbol] at h
  | x :: c =>
    by_cases hx : x = 0x00#8
    · match c with
      | [] => exact .inr (.inr (.inr (by simp [decodeSymbol, hx] at h; exact h.1.symm)))
      | l :: c =>
        by_cases hl : l = 0x00#8
        · exact .inr (.inr (.inl (by simp [decodeSymbol, hx, hl] at h; exact h.1.symm)))
        · exact .inr (.inl ⟨l, by simp [decodeSymbol, hx, hl] at h; exact h.1.symm⟩)
    · exact .inl ⟨x, hx, by simp [decodeSymbol, hx] at h; exact h.1.symm⟩

/-- The stream symbol at the front of a sequence, in a decoder in RUN with no marker pending. -/
theorem decLocal_decodeSymbol {p : Params} {k : Nat} {bs t : Bytes} {i : Instr} {d : Decoder} (hr : d.phase = .run)
    (hp : d.pend = false) (h : decodeSymbol k bs = .ok (i, t)) : AnswersOrExceeds p (decLocal p i d) := by
  rcases decodeSymbol_cases h with ⟨b, hb, rfl⟩ | ⟨l, rfl⟩ | rfl | rfl
  · exact decTokenLocal_answersOrExceeds (sel := fun d => !d.pend && b != 0x00#8) _ hr (by simp [hp, hb])
  · exact thenLocal_mark_answersOrExceeds _ hr hp
  · exact thenLocal_mark_answersOrExceeds _ hr hp
  · exact thenLocal_mark_answersOrExceeds _ hr hp

/-- What an input selects in its unit answers a next state, or is refused under the name of an exceeded parameter. -/
theorem exec_of_decode {s : State} {inp : Input} {c : Ctx} {i : Instr} {left : List Input}
    (hc : s.ctx inp.unit = some c) (hd : decode c inp = .ok (i, left)) :
    (∃ t, exec i s = .next t) ∨ ∃ r pos len, exec i s = .refused r ∧ Params.excess s.cfg pos len = some r := by
  have hi := decode_unit hd
  cases hu : inp.unit with
  | enc k =>
    rw [hu] at hc hi
    obtain ⟨e, he, rfl⟩ := Option.map_eq_some_iff.1 hc
    have hlocal : AnswersOrExceeds s.cfg (encLocal s.cfg i e) := by
      rcases decode_cases hd with rfl | ⟨-, rfl⟩ | ⟨hr, t, rfl⟩ | ⟨-, -, j, bs, t, rfl, -⟩
      · rw [hu]; exact .inl ⟨_, rfl⟩
      · rw [hu]; exact .inl ⟨_, rfl⟩
      · rw [hu]; exact encLocal_selectToken hr t
      · exact absurd hu nofun
    rw [exec_enc hi he]
    rcases hlocal with ⟨e', h⟩ | ⟨r, pos, len, h, hx⟩
    · exact .inl ⟨_, by rw [h]; rfl⟩
    · exact .inr ⟨r, pos, len, by rw [h]; rfl, hx⟩
  | dec k =>
    rw [hu] at hc hi
    obtain ⟨d, he, rfl⟩ := Option.map_eq_some_iff.1 hc
    have hlocal : AnswersOrExceeds s.cfg (decLocal s.cfg i d) := by
      rcases decode_cases hd with rfl | ⟨-, rfl⟩ | ⟨hr, t, rfl⟩ | ⟨hr, hp, j, bs, t, rfl, hsym⟩
      · rw [hu]; exact .inl ⟨_, rfl⟩
      · rw [hu]; exact .inl ⟨_, rfl⟩
      · rw [hu]; exact decLocal_selectToken hr t
      · exact decLocal_decodeSymbol hr hp hsym
    rw [exec_dec hi he]
    rcases hlocal with ⟨d', h⟩ | ⟨r, pos, len, h, hx⟩
    · exact .inl ⟨_, by rw [h]; rfl⟩
    · exact .inr ⟨r, pos, len, by rw [h]; rfl, hx⟩

/-! ### What a step answers -/

theorem drainEdge_enc {k : Nat} {s : State} {e : Encoder} (he : s.encs[k]? = some e) (w : Wires) :
    drainEdge (.enc k) w s = .next (s.setEnc k (e.drain w)) := by
  simp only [drainEdge, onEnc, he]

theorem drainEdge_dec {k : Nat} {s : State} {d : Decoder} (hd : s.decs[k]? = some d) (w : Wires) :
    drainEdge (.dec k) w s = .next (s.setDec k (d.drain w)) := by
  simp only [drainEdge, onDec, hd]

/-- The drain of a unit that exists always answers. -/
theorem drainEdge_answers {u : UnitId} {s : State} {c : Ctx} (hc : s.ctx u = some c) (w : Wires) :
    ∃ t, drainEdge u w s = .next t := by
  cases u with
  | enc k =>
    obtain ⟨e, he, -⟩ := Option.map_eq_some_iff.1 hc
    exact ⟨_, drainEdge_enc he w⟩
  | dec k =>
    obtain ⟨d, hd, -⟩ := Option.map_eq_some_iff.1 hc
    exact ⟨_, drainEdge_dec hd w⟩

/-- A sequence that selects nothing waits where it is (R172; log 10). -/
theorem step_stream_waits {s : State} {k : Nat} {bs : Bytes} {rest : List Input} {c : Ctx} {q : Reject}
    (hin : s.inputs = .stream k bs :: rest) (hc : s.ctx (.dec k) = some c)
    (hk : keepsOffer (s.waiting (.dec k)) (.stream k bs) = true) (hd : decode c (.stream k bs) = .error q) :
    step s = .next s := by
  simp [step, fetch, hin, Input.unit, hc, hk, hd, runFetched]

/-- A step over an input of a unit that exists, from a host that keeps its offer, answers a next state or is refused under
the name of an exceeded parameter. -/
theorem step_answers {s : State} {inp : Input} {rest : List Input} {c : Ctx} (hin : s.inputs = inp :: rest)
    (hc : s.ctx inp.unit = some c) (hk : keepsOffer (s.waiting inp.unit) inp = true) :
    (∃ t, step s = .next t) ∨ ∃ r pos len, step s = .refused r ∧ Params.excess s.cfg pos len = some r := by
  cases hd : decode c inp with
  | ok il =>
    obtain ⟨i, left⟩ := il
    rw [step_op hin hc hk hd]
    simpa using exec_of_decode (s := s.advance inp.unit (waitingAfter i inp) (left ++ rest)) (by simpa using hc) hd
  | error q =>
    cases inp with
    | edge u w =>
      rw [step_edge hin hc hk hd]
      exact .inl (drainEdge_answers (by rw [State.advance_ctx]; exact hc) w)
    | stream k bs => exact .inl ⟨s, step_stream_waits hin hc hk hd⟩

/-- All a step can be refused for: the host's offer, or a capacity. -/
theorem step_refused {s : State} {r : Refusal} (h : step s = .refused r) :
    (r = .offerNotKept ∧ ∃ inp rest, s.inputs = inp :: rest ∧ keepsOffer (s.waiting inp.unit) inp = false) ∨
      ∃ pos len, Params.excess s.cfg pos len = some r := by
  cases hin : s.inputs with
  | nil => simp [step, fetch, hin, runFetched] at h
  | cons inp rest =>
    cases hc : s.ctx inp.unit with
    | none => simp [step, fetch, hin, hc, runFetched] at h
    | some c =>
      cases hk : keepsOffer (s.waiting inp.unit) inp with
      | false =>
        rw [step_brokenOffer hin hc hk] at h
        exact .inl ⟨by simpa using h.symm, inp, rest, rfl, hk⟩
      | true =>
        rcases step_answers hin hc hk with ⟨t, ht⟩ | ⟨q, pos, len, hq, hx⟩
        · simp [ht] at h
        · obtain rfl : q = r := by simpa [hq] using h
          exact .inr ⟨pos, len, hx⟩

/-! ### The statements -/

/-- Settles O22: neither name is that of a broken offer or of a capacity. -/
theorem stepNeverMeetsAnUnselectedOperation : Obligations.StepNeverMeetsAnUnselectedOperation := by
  intro s
  refine ⟨fun h => ?_, fun m h => ?_⟩
  · rcases step_refused h with ⟨hr, -⟩ | ⟨pos, len, hx⟩
    · exact absurd hr nofun
    · simpa using excess_some hx
  · rcases step_refused h with ⟨hr, -⟩ | ⟨pos, len, hx⟩
    · exact absurd hr nofun
    · simpa using excess_some hx

/-- Settles O23: of the three capacities only `LEN_BITS` can be exceeded. -/
theorem unboundedBlockGoesOn : Obligations.UnboundedBlockGoesOn := by
  intro s hin hout hnext
  cases hinp : s.inputs with
  | nil => exact .inl ⟨s, by simp [step, fetch, hinp, runFetched]⟩
  | cons inp rest =>
    obtain ⟨hu, hk⟩ := hnext inp rest hinp
    obtain ⟨c, hc⟩ := Option.isSome_iff_exists.1 hu
    rcases step_answers hinp hc hk with hstep | ⟨r, pos, len, hr, hx⟩
    · exact .inl hstep
    · rcases excess_some hx with rfl | ⟨-, hcap⟩ | ⟨-, hcap⟩
      · exact .inr hr
      · exact absurd hin hcap
      · exact absurd hout hcap

end Sys2Proof.Machine
end

