-- ==== Sys2Proof/Proofs/OffersAndDrain.lean ====
section
/-! SUPPORT. The token a host offers and the result token a unit offers (R172, R178, R179): when each is taken, when it waits,
and the statements about both. -/

namespace Sys2Proof.Machine

/-! ### Outside RUN nothing is consumed (R172) -/

/-- Outside RUN an encoder's operation other than START and reset changes no register. -/
theorem encLocal_waits {p : Params} {i : Instr} {e : Encoder} (hp : e.phase ≠ .run) (hstart : ∀ k, i ≠ .eStart k)
    (hreset : ∀ u, i ≠ .reset u) : encLocal p i e = .ok e := by
  cases i with
  | eStart k => exact absurd rfl (hstart k)
  | reset u => exact absurd rfl (hreset u)
  | _ => simp [encLocal, encTokenLocal, hp]

/-- Outside RUN a decoder's operation other than START and reset changes no register; of a symbol neither half is performed. -/
theorem decLocal_waits {p : Params} {i : Instr} {d : Decoder} (hp : d.phase ≠ .run) (hstart : ∀ k, i ≠ .dStart k)
    (hreset : ∀ u, i ≠ .reset u) : decLocal p i d = .ok d := by
  cases i with
  | dStart k => exact absurd rfl (hstart k)
  | reset u => exact absurd rfl (hreset u)
  | _ => simp [decLocal, decTokenLocal, thenLocal, hp]

/-- `exec` called on such an operation answers the state as it is (log 6). -/
theorem exec_enc_waits {i : Instr} {k : Nat} {s : State} {e : Encoder} (hu : i.unit = .enc k) (he : s.encs[k]? = some e)
    (hp : e.phase ≠ .run) (hstart : ∀ k, i ≠ .eStart k) (hreset : ∀ u, i ≠ .reset u) : exec i s = .next s := by
  rw [exec_enc hu he, encLocal_waits hp hstart hreset, liftEnc, State.setEnc_self he]

/-- `exec` called on such an operation answers the state as it is (log 6). -/
theorem exec_dec_waits {i : Instr} {k : Nat} {s : State} {d : Decoder} (hu : i.unit = .dec k) (hd : s.decs[k]? = some d)
    (hp : d.phase ≠ .run) (hstart : ∀ k, i ≠ .dStart k) (hreset : ∀ u, i ≠ .reset u) : exec i s = .next s := by
  rw [exec_dec hu hd, decLocal_waits hp hstart hreset, liftDec, State.setDec_self hd]

theorem decode_stream_outside_run {c : Ctx} (hp : c.phase ≠ .run) (k : Nat) (bs : Bytes) :
    decode c (.stream k bs) = .error .tokenWaits := by
  simp [decode, decodeStream, hp]

/-- Outside RUN an encoder takes no token, however willing it is (R172, R178). -/
theorem Encoder.not_inReady_of_ne_run {e : Encoder} (h : e.phase ≠ .run) (ready : Bool) :
    (e.outputs ready).inReady = false := by
  simp [Encoder.outputs, outWires, h]

/-- Settles O21: outside RUN a token operation writes back the registers it finds, and an input without reset and START
selects none. -/
theorem tokensWaitOutsideRun : Obligations.TokensWaitOutsideRun := by
  refine ⟨fun s k e he hp => ?_, fun s k d hd hp => ?_, fun s u c w rest hin hc hp hr hs ho hk => ?_,
    fun s k c bs rest hin hc hp hk => ?_, fun e ready h => Encoder.not_inReady_of_ne_run h ready,
    fun d ready h => Decoder.not_inReady_of_ne_run h ready⟩
  · have wait : ∀ i : Instr, i.unit = .enc k → (∀ k, i ≠ .eStart k) → (∀ u, i ≠ .reset u) → exec i s = .next s :=
      fun i hu => exec_enc_waits hu he hp
    exact ⟨wait _ rfl nofun nofun, fun b => wait _ rfl nofun nofun, wait _ rfl nofun nofun⟩
  · have wait : ∀ i : Instr, i.unit = .dec k → (∀ k, i ≠ .dStart k) → (∀ u, i ≠ .reset u) → exec i s = .next s :=
      fun i hu => exec_dec_waits hu hd hp
    exact ⟨fun b => wait _ rfl nofun nofun, wait _ rfl nofun nofun, fun l => wait _ rfl nofun nofun,
      wait _ rfl nofun nofun, wait _ rfl nofun nofun, fun b => wait _ rfl nofun nofun, fun l => wait _ rfl nofun nofun,
      wait _ rfl nofun nofun, wait _ rfl nofun nofun⟩
  · obtain ⟨q, hdec⟩ := decode_waits (u := u) hp hr hs
    exact step_still hin hc hk hdec (.inr ho)
  · exact step_stream_waits hin hc hk (decode_stream_outside_run hp k bs)

/-! ### In RUN a token is taken exactly if it is offered and the unit is willing (R178) -/

theorem outWires_inReady_iff {p : Phase} {v : BitVec 8} {o : Bytes} {rd : Nat} {rdEnd ready : Bool} :
    (outWires p v o rd rdEnd ready).inReady = true ↔ p = .run ∧ ready = true := by
  simp [outWires, and_comm]

/-- An edge in RUN at which the unit is not willing selects nothing. -/
theorem decode_run_not_ready {c : Ctx} {u : UnitId} {w : Wires} (hc : c.phase = .run) (hr : w.rst = false)
    (hready : w.ready = false) : ∃ q, decode c (.edge u w) = .error q := by
  cases hv : w.inValid with
  | false => exact decode_run_without_token hc hr hv
  | true => exact ⟨.notReady, by simp [decode, decodeEdge, hc, hr, hv, hready, Except.map]⟩

/-- An edge in RUN that offers a token to a willing unit selects the token's operation. -/
theorem decode_run_ready {c : Ctx} {u : UnitId} {w : Wires} (hc : c.phase = .run) (hr : w.rst = false)
    (hv : w.inValid = true) (hready : w.ready = true) :
    decode c (.edge u w) = .ok (selectToken u c.pend (if w.inEnd then .endOfInput else .byte w.inData), []) := by
  obtain ⟨p, pend⟩ := c
  obtain rfl : p = .run := hc
  exact decode_run hr hv hready

section
variable {s : State} {w : Wires} {rest : List Input}

/-- The edge with START outside RUN runs START; a token offered beside it waits. -/
theorem step_startEdge {u : UnitId} {c : Ctx} (hin : s.inputs = .edge u w :: rest) (hc : s.ctx u = some c)
    (hp : c.phase ≠ .run) (hr : w.rst = false) (hs : w.start = true)
    (hk : keepsOffer (s.waiting u) (.edge u w) = true) :
    step s = exec (startOf u) (s.advance u (Input.edge u w).offer rest) := by
  rw [step_op hin hc hk (decode_start hr hs hp)]
  cases u <;> rfl

end

/-- Settles O41: what an edge selects in RUN depends on the token and the unit's willingness alone. -/
theorem tokensAreTakenOnlyWhenReady : Obligations.TokensAreTakenOnlyWhenReady := by
  refine ⟨fun e ready => outWires_inReady_iff, fun d ready => outWires_inReady_iff,
    fun s u c w rest hin hc hp hr hk => ⟨fun hv hready => ?_, fun h => ?_⟩,
    fun s k e w rest hin he hp hr hs hk => step_startEdge hin (State.ctx_enc he) hp hr hs hk,
    fun s k d w rest hin hd hp hr hs hk => step_startEdge hin (State.ctx_dec hd) hp hr hs hk⟩
  · rw [step_op hin hc hk (decode_run_ready hp hr hv hready), waitingAfter_selectToken]
    rfl
  · obtain ⟨q, hdec⟩ : ∃ q, decode c (.edge u w) = .error q := by
      rcases h with hv | hready
      · exact decode_run_without_token hp hr hv
      · exact decode_run_not_ready hp hr hready
    exact step_still hin hc hk hdec (.inl (by simp [hp]))

/-! ### The host's offer (R178, R181, R226) -/

/-- The token on the wires (R177). -/
theorem edge_offer (u : UnitId) (w : Wires) :
    (Input.edge u w).offer = if w.inValid then some (if w.inEnd then .endOfInput else .byte w.inData) else none := by
  rw [Input.offer, token_of_wires]

/-- An operation does not touch the tokens that wait. -/
theorem exec_waiting {i : Instr} {s t : State} (h : exec i s = .next t) : t.waiting = s.waiting := by
  obtain ⟨-, -, he, hd, -⟩ := onlyTheOperationsUnitChanges i s t h
  funext u
  cases u with
  | enc k => simp only [State.waiting, he]
  | dec k => simp only [State.waiting, hd]

/-- A drain does not touch the tokens that wait. -/
theorem drainEdge_waiting {u : UnitId} {w : Wires} {s t : State} (h : drainEdge u w s = .next t) :
    t.waiting = s.waiting := by
  rcases drainEdge_next h with ⟨k, e, -, -, rfl⟩ | ⟨k, d, -, -, rfl⟩ <;> rfl

section
variable {s t : State} {u : UnitId} {c : Ctx} {w : Wires} {rest : List Input}

/-- After a step over an edge of `u` the tokens that wait are those of `State.advance`, whatever the edge selected. -/
theorem step_edge_waiting (hin : s.inputs = .edge u w :: rest) (hc : s.ctx u = some c) (h : step s = .next t) :
    ((∃ q, decode c (.edge u w) = .error q) ∧ t.waiting = (s.advance u (Input.edge u w).offer rest).waiting) ∨
      ∃ i, decode c (.edge u w) = .ok (i, []) ∧
        t.waiting = (s.advance u (waitingAfter i (.edge u w)) rest).waiting := by
  obtain ⟨-, ⟨q, hdec, hdrain⟩ | ⟨i, hdec, hexec⟩⟩ := step_edge_cases hin hc h
  · exact .inl ⟨⟨q, hdec⟩, drainEdge_waiting hdrain⟩
  · exact .inr ⟨i, hdec, exec_waiting hexec⟩

/-- A token offered outside RUN or to an unwilling unit is not taken: the edge selects nothing, or START. -/
theorem offer_not_taken (hin : s.inputs = .edge u w :: rest) (hc : s.ctx u = some c) (h : step s = .next t)
    (hr : w.rst = false) (hp : c.phase ≠ .run ∨ w.ready = false) :
    t.waiting = (s.advance u (Input.edge u w).offer rest).waiting := by
  rcases step_edge_waiting hin hc h with ⟨-, hwait⟩ | ⟨i, hdec, hwait⟩
  · exact hwait
  · have hstart : c.phase ≠ .run := fun hrun => by
      obtain ⟨q, hq⟩ := decode_run_not_ready (u := u) hrun hr (hp.resolve_left fun hne => hne hrun)
      simp [hq] at hdec
    cases hs : w.start with
    | false =>
      obtain ⟨q, hq⟩ := decode_waits (u := u) hstart hr hs
      simp [hq] at hdec
    | true =>
      obtain rfl : startOf u = i := by simpa [decode_start hr hs hstart] using hdec
      rw [hwait]
      cases u <;> rfl

/-- Reset abandons the token, and a willing unit in RUN takes it. -/
theorem offer_taken_or_abandoned (hin : s.inputs = .edge u w :: rest) (hc : s.ctx u = some c) (h : step s = .next t)
    (hp : w.rst = true ∨ (c.phase = .run ∧ w.ready = true)) : t.waiting = (s.advance u none rest).waiting := by
  cases hr : w.rst with
  | true =>
    rw [step_resetEdge hin hc hr] at h
    exact exec_waiting h
  | false =>
    obtain ⟨hrun, hready⟩ := hp.resolve_left (by simp [hr])
    rcases step_edge_waiting hin hc h with ⟨⟨q, hdec⟩, hwait⟩ | ⟨i, hdec, hwait⟩
    · have hv : w.inValid = false := by
        cases hv : w.inValid with
        | false => rfl
        | true => simp [decode_run_ready (u := u) hrun hr hv hready] at hdec
      simpa [edge_offer, hv] using hwait
    · rcases decode_cases hdec with rfl | ⟨hne, -⟩ | ⟨-, tok, rfl⟩ | ⟨-, -, k, bs, r, hi, -⟩
      · exact hwait
      · exact absurd hrun hne
      · rwa [waitingAfter_selectToken] at hwait
      · exact absurd hi nofun

end

/-- Settles O59: the step checks the offer before anything else, and `State.advance` records the token that then waits. -/
theorem offeredTokenMustBeKept : Obligations.OfferedTokenMustBeKept := by
  refine ⟨fun s inp rest c o hin hc hw hr ho => ?_, fun s h => ?_, fun u w => ⟨rfl, edge_offer u w⟩,
    fun s t u c w rest hel hdl hin hc h => ⟨fun hr hp => ?_, fun hp => ?_, fun v hv => ?_⟩⟩
  · exact step_brokenOffer hin hc (keepsOffer_false_iff.2 ⟨o, hw, hr, ho⟩)
  · rcases step_refused h with ⟨-, inp, rest, hin, hk⟩ | ⟨pos, len, hx⟩
    · obtain ⟨o, hw, hr, ho⟩ := keepsOffer_false_iff.1 hk
      exact ⟨inp, rest, o, hin, hw, hr, ho⟩
    · exact absurd (excess_some hx) (by simp)
  · rw [offer_not_taken hin hc h hr hp, State.advance_waiting hel hdl hc]
  · rw [offer_taken_or_abandoned hin hc h hp, State.advance_waiting_none]
  · rcases step_edge_waiting hin hc h with ⟨-, hwait⟩ | ⟨i, -, hwait⟩
    · rw [hwait, State.advance_waiting_ne hv.symm]
    · rw [hwait, State.advance_waiting_ne hv.symm]

/-! ### The unit's offer (R179) -/

theorem offersResult_iff {p : Phase} {rdEnd : Bool} : offersResult p rdEnd = true ↔ p = .done ∧ rdEnd = false := by
  simp [offersResult]

section
variable {p : Phase} {v : BitVec 8} {o : Bytes} {rd : Nat} {rdEnd ready : Bool}

theorem outWires_outValid_iff : (outWires p v o rd rdEnd ready).outValid = true ↔ p = .done ∧ rdEnd = false :=
  offersResult_iff

/-- Nothing is offered outside DONE, nor once `End` has been taken. -/
theorem outWires_silent (h : p ≠ .done ∨ rdEnd = true) : (outWires p v o rd rdEnd ready).outValid = false := by
  rw [← Bool.not_eq_true, outWires_outValid_iff]
  rintro ⟨hp, hend⟩
  rcases h with h | h
  · exact h hp
  · simp [hend] at h

/-- In DONE the byte at the read index is offered, and `End` behind the last one. -/
theorem outWires_offering (hp : p = .done) (hend : rdEnd = false) :
    (outWires p v o rd rdEnd ready).outValid = true ∧ (outWires p v o rd rdEnd ready).outData = o[rd]? ∧
      ((outWires p v o rd rdEnd ready).outEnd = true ↔ o.length ≤ rd) := by
  simp [outWires, offersResult, hp, hend]

end

/-- A transfer moves the drain by one token. -/
theorem Encoder.drain_transfer {w : Wires} {e : Encoder} (hp : e.phase = .done) (hend : e.rdEnd = false)
    (ho : w.outReady = true) :
    e.drain w = if e.rd < e.out.length then { e with rd := e.rd + 1 } else { e with rdEnd := true } := by
  simp [Encoder.drain, offersResult, hp, hend, ho]

/-- A transfer moves the drain by one token. -/
theorem Decoder.drain_transfer {w : Wires} {d : Decoder} (hp : d.phase = .done) (hend : d.rdEnd = false)
    (ho : w.outReady = true) :
    d.drain w = if d.rd < d.out.length then { d with rd := d.rd + 1 } else { d with rdEnd := true } := by
  simp [Decoder.drain, offersResult, hp, hend, ho]

/-- Without an offer or without `out_ready` there is no transfer. -/
theorem Encoder.drain_rests {w : Wires} {e : Encoder} (h : e.rdEnd = true ∨ w.outReady = false) : e.drain w = e := by
  rcases h with h | h <;> simp [Encoder.drain, offersResult, h]

/-- Without an offer or without `out_ready` there is no transfer. -/
theorem Decoder.drain_rests {w : Wires} {d : Decoder} (h : d.rdEnd = true ∨ w.outReady = false) : d.drain w = d := by
  rcases h with h | h <;> simp [Decoder.drain, offersResult, h]

section
variable {s : State} {k : Nat} {w : Wires} {rest : List Input}

/-- A step over an edge of DONE without reset and START is an edge of the drain. -/
theorem step_drain_enc {e : Encoder} (hin : s.inputs = .edge (.enc k) w :: rest) (he : s.encs[k]? = some e)
    (hp : e.phase = .done) (hr : w.rst = false) (hs : w.start = false)
    (hk : keepsOffer (s.waiting (.enc k)) (.edge (.enc k) w) = true) :
    step s = .next ((s.advance (.enc k) (Input.edge (.enc k) w).offer rest).setEnc k (e.drain w)) := by
  obtain ⟨q, hdec⟩ := decode_waits (c := ⟨e.phase, false⟩) (u := .enc k) (by simp [hp]) hr hs
  rw [step_edge hin (State.ctx_enc he) hk hdec]
  exact drainEdge_enc (by simpa using he) w

/-- A step over an edge of DONE without reset and START is an edge of the drain. -/
theorem step_drain_dec {d : Decoder} (hin : s.inputs = .edge (.dec k) w :: rest) (hd : s.decs[k]? = some d)
    (hp : d.phase = .done) (hr : w.rst = false) (hs : w.start = false)
    (hk : keepsOffer (s.waiting (.dec k)) (.edge (.dec k) w) = true) :
    step s = .next ((s.advance (.dec k) (Input.edge (.dec k) w).offer rest).setDec k (d.drain w)) := by
  obtain ⟨q, hdec⟩ := decode_waits (c := ⟨d.phase, d.pend⟩) (u := .dec k) (by simp [hp]) hr hs
  rw [step_edge hin (State.ctx_dec hd) hk hdec]
  exact drainEdge_dec (by simpa using hd) w

end

/-- Settles O40: the wires show the drain's registers, and an edge in DONE without reset and START moves nothing else. -/
theorem drainOffersTheResultInOrder : Obligations.DrainOffersTheResultInOrder := by
  refine ⟨fun e ready => ⟨outWires_silent, outWires_offering⟩, fun d ready => ⟨outWires_silent, outWires_offering⟩,
    fun s k e w rest hin he hp hr hs hk => ⟨fun hend ho => ?_, fun h => ?_⟩,
    fun s k d w rest hin hd hp hr hs hk => ⟨fun hend ho => ?_, fun h => ?_⟩⟩
  · rw [step_drain_enc hin he hp hr hs hk, Encoder.drain_transfer hp hend ho]
  · rw [step_drain_enc hin he hp hr hs hk, Encoder.drain_rests h, State.setEnc_self (by simpa using he)]
  · rw [step_drain_dec hin hd hp hr hs hk, Decoder.drain_transfer hp hend ho]
  · rw [step_drain_dec hin hd hp hr hs hk, Decoder.drain_rests h, State.setDec_self (by simpa using hd)]

/-! ### An offered result token is held (R179, D10) -/

section
variable {s t : State} {k : Nat}

/-- Outside RUN a step that is no edge of the encoder with reset, START or `out_ready` leaves its registers. -/
theorem step_holds_enc {e : Encoder} (he : s.encs[k]? = some e) (hp : e.phase ≠ .run) (h : step s = .next t)
    (hquiet : ∀ w rest, s.inputs = .edge (.enc k) w :: rest → w.rst = false ∧ w.start = false ∧ w.outReady = false) :
    t.encs[k]? = some e := by
  obtain ⟨-, hlen, -⟩ := step_shape h
  have hk : k < t.encs.length := by obtain ⟨hk, -⟩ := List.getElem?_eq_some_iff.1 he; omega
  have he' := List.getElem?_eq_getElem hk
  rw [he']
  rcases step_at_enc h he he' with heq | ⟨w, rest, hin, heq⟩ | ⟨inp, rest, i, left, hin, hdec, hu, -⟩
  · rw [heq]
  · obtain ⟨-, -, ho⟩ := hquiet w rest hin
    rw [heq, Encoder.drain_rests (.inr ho)]
  · obtain ⟨w, hedge, hreq⟩ := decode_outside_run hdec hp
    rw [← decode_unit hdec, hu] at hedge
    obtain ⟨hr, hs, -⟩ := hquiet w rest (hedge ▸ hin)
    simp [hr, hs] at hreq

/-- Outside RUN a step that is no edge of the decoder with reset, START or `out_ready` leaves its registers. -/
theorem step_holds_dec {d : Decoder} (hd : s.decs[k]? = some d) (hp : d.phase ≠ .run) (h : step s = .next t)
    (hquiet : ∀ w rest, s.inputs = .edge (.dec k) w :: rest → w.rst = false ∧ w.start = false ∧ w.outReady = false) :
    t.decs[k]? = some d := by
  obtain ⟨-, -, hlen, -⟩ := step_shape h
  have hk : k < t.decs.length := by obtain ⟨hk, -⟩ := List.getElem?_eq_some_iff.1 hd; omega
  have hd' := List.getElem?_eq_getElem hk
  rw [hd']
  rcases step_at_dec h hd hd' with heq | ⟨w, rest, hin, heq⟩ | ⟨inp, rest, i, left, hin, hdec, hu, -⟩
  · rw [heq]
  · obtain ⟨-, -, ho⟩ := hquiet w rest hin
    rw [heq, Decoder.drain_rests (.inr ho)]
  · obtain ⟨w, hedge, hreq⟩ := decode_outside_run hdec hp
    rw [← decode_unit hdec, hu] at hedge
    obtain ⟨hr, hs, -⟩ := hquiet w rest (hedge ▸ hin)
    simp [hr, hs] at hreq

end

/-- Settles O60: the registers the result wires show stay as they are, and the wires do not depend on the willingness. -/
theorem offeredResultTokenIsHeld : Obligations.OfferedResultTokenIsHeld := by
  refine ⟨fun s t k e ready he hv h hquiet => ?_, fun s t k d ready hd hv h hquiet => ?_⟩
  · obtain ⟨hp, -⟩ := outWires_outValid_iff.1 hv
    exact ⟨e, step_holds_enc he (by simp [hp]) h hquiet, fun _ => ⟨hv, rfl, rfl⟩⟩
  · obtain ⟨hp, -⟩ := outWires_outValid_iff.1 hv
    exact ⟨d, step_holds_dec hd (by simp [hp]) h hquiet, fun _ => ⟨hv, rfl, rfl⟩⟩

end Sys2Proof.Machine
end
